-- ==== Sys2Proof/Word.lean ====
section
/-! DEFINITION. The data unit of the MAR CPU: the 16-bit word (00_scope.md R5, R6). -/

namespace Sys2Proof

/-- A word: a register, a RAM word, an immediate, an address or the instruction pointer (R5 `WORD`). -/
abbrev Word := BitVec 16

/-- `w[i]`, one bit of a word (R6); bit 15 is the most significant. -/
def Word.bit (w : Word) (i : Nat) : Bool := w.getLsbD i

/-- `w[15]`, the sign bit (R6). -/
def Word.sign (w : Word) : Bool := w.getLsbD 15

end Sys2Proof
end

