-- ==== Sys2Proof/Syntax.lean ====
section
/-! DEFINITION. The instructions of the MAR CPU as terms: one constructor of `Instr` for each row of
spec/opcode_table.json (30_encoding.md R90, 45_setcc.md R220), over the operand classes of R86. -/

namespace Sys2Proof

/-- The eight general registers (10_state.md R20, R21). -/
inductive Reg where
  | a | b | c | d | x | y | sp | bp
  deriving DecidableEq, Repr

/-- The general registers in the order of the table of 10_state.md R21. -/
def Reg.all : List Reg := [.a, .b, .c, .d, .x, .y, .sp, .bp]

/-- The fourteen conditions of the jumps and of `SETcc` (44_control_transfer.md R192 to R207, 45_setcc.md R221 to R234). -/
inductive Cond where
  /-- `CF == 0 and ZF == 0`: `JA` (R192), `SETA` (R221). -/
  | above
  /-- `CF == 0`: `JNC`, `JAE` (R201, R193), `SETAE` (R222). -/
  | notCarry
  /-- `CF == 1 or ZF == 1`: `JNA` (R200), `SETBE` (R223). -/
  | notAbove
  /-- `CF == 1`: `JC` (R194), `SETB` (R224). -/
  | carry
  /-- `ZF == 1`: `JZ` (R207), `SETE` (R225). -/
  | zero
  /-- `ZF == 0`: `JNZ` (R204), `SETNE` (R226). -/
  | notZero
  /-- `SF == OF and ZF == 0`: `JG` (R195), `SETG` (R227). -/
  | greater
  /-- `SF == OF`: `JGE` (R196), `SETGE` (R228). -/
  | greaterEqual
  /-- `SF != OF or ZF == 1`: `JLE` (R198), `SETLE` (R229). -/
  | lessEqual
  /-- `SF != OF`: `JL` (R197), `SETL` (R230). -/
  | less
  /-- `SF == 1`: `JS` (R206), `SETS` (R231). -/
  | sign
  /-- `SF == 0`: `JNS` (R203), `SETNS` (R232). -/
  | notSign
  /-- `OF == 1`: `JO` (R205), `SETO` (R233). -/
  | overflow
  /-- `OF == 0`: `JNO` (R202), `SETNO` (R234). -/
  | notOverflow
  deriving DecidableEq, Repr

/-- The conditions in the order of the table of 45_setcc.md R220. -/
def Cond.all : List Cond :=
  [.above, .notCarry, .notAbove, .carry, .zero, .notZero, .greater, .greaterEqual, .lessEqual, .less, .sign, .notSign,
    .overflow, .notOverflow]

/-- An operand of class `mem/reg` (R82, R86): a place that can be read and written. -/
inductive Place where
  /-- `reg`: selectors 1 to 8. -/
  | reg (r : Reg)
  /-- `[reg]`: selectors 9 to 16. -/
  | ind (r : Reg)
  /-- `[reg + imm]`: selectors 17 to 24, with one extension word. -/
  | idx (r : Reg) (w : Word)
  /-- `[imm]`: selector 30, with one extension word. -/
  | abs (w : Word)
  deriving DecidableEq, Repr

/-- An operand of class `mem/reg/imm` (R82, R86): a value that is read. -/
inductive Source where
  /-- A `mem/reg` operand, read. -/
  | place (p : Place)
  /-- `imm`: selector 31, with one extension word. -/
  | imm (w : Word)
  deriving DecidableEq, Repr

/-- One constructor for each row of the opcode table. An aliased mnemonic has a constructor of its own,
with the same words as the one it names (R91). The destination operand stands first, as it is written (R97). -/
inductive Instr where
  -- data movement (40_data_movement.md)
  | mov (d : Place) (s : Source)
  | pop (d : Place)
  | popf
  | push (s : Source)
  | pushf
  | xchg (d s : Place)
  -- arithmetic (41_arithmetic.md)
  | add (d : Place) (s : Source)
  | cmp (d : Place) (s : Source)
  | dec (d : Place)
  | div (s : Source)
  | inc (d : Place)
  | mul (s : Source)
  | neg (d : Place)
  | sub (d : Place) (s : Source)
  -- logic (42_logic.md)
  | and (d : Place) (s : Source)
  | not (d : Place)
  | or (d : Place) (s : Source)
  | test (d : Place) (s : Source)
  | xor (d : Place) (s : Source)
  -- shifts and rotates (43_shift_rotate.md)
  | rcl (d : Place) (c : Source)
  | rcr (d : Place) (c : Source)
  | rol (d : Place) (c : Source)
  | ror (d : Place) (c : Source)
  | sal (d : Place) (c : Source)
  | sar (d : Place) (c : Source)
  | shl (d : Place) (c : Source)
  | shr (d : Place) (c : Source)
  -- control transfer (44_control_transfer.md)
  | call (t : Source)
  | ja (t : Source)
  | jae (t : Source)
  | jc (t : Source)
  | jg (t : Source)
  | jge (t : Source)
  | jl (t : Source)
  | jle (t : Source)
  | jmp (t : Source)
  | jna (t : Source)
  | jnc (t : Source)
  | jno (t : Source)
  | jns (t : Source)
  | jnz (t : Source)
  | jo (t : Source)
  | js (t : Source)
  | jz (t : Source)
  | ret
  | retImm (amount : Word)
  -- conditional set (45_setcc.md)
  | seta (d : Place)
  | setnbe (d : Place)
  | setae (d : Place)
  | setnb (d : Place)
  | setnc (d : Place)
  | setbe (d : Place)
  | setna (d : Place)
  | setb (d : Place)
  | setc (d : Place)
  | setnae (d : Place)
  | sete (d : Place)
  | setz (d : Place)
  | setne (d : Place)
  | setnz (d : Place)
  | setg (d : Place)
  | setnle (d : Place)
  | setge (d : Place)
  | setnl (d : Place)
  | setle (d : Place)
  | setng (d : Place)
  | setl (d : Place)
  | setnge (d : Place)
  | sets (d : Place)
  | setns (d : Place)
  | seto (d : Place)
  | setno (d : Place)
  -- system (46_system.md)
  | brk
  | hwi (s : Source)
  | hwq (s : Source)
  | int (n : Word)
  | into
  | iret
  | nop
  deriving DecidableEq, Repr

end Sys2Proof
end

