-- ==== Sys2Proof/Config.lean ====
section
/-! DEFINITION. What the spec leaves to the machine's surroundings: the types of its open parameters
(00_scope.md R5), the devices (10_state.md R34), and the values it leaves free (R7 `any`), which are
opaque constants: nothing in Lean can evaluate one or prove a value of it.
The parameters' defaults stand in Decode.lean (encoding) and Machine/Parameters.lean (the rest). -/

namespace Sys2Proof

/-- The parameter `SINGLE_OPERAND_FIELD` (R5, R89): the field of the first word that holds the operand of
a one-operand instruction. -/
inductive Config.OperandField where
  | source | destination
  deriving DecidableEq, Repr

/-- The parameter `EXT_WORD_ORDER` (R5, R84): whose extension word stands first when both operands have one. -/
inductive Config.ExtWordOrder where
  | sourceFirst | destinationFirst
  deriving DecidableEq, Repr

/-- The parameter `SETCC_SELECTOR` (R5, 30_encoding.md R100): for each condition of `Cond.all`, in that order, what names
it: the value of the source field, and the source's extension word (0 where that selector has none). -/
abbrev Config.SetccSelector := List (Nat × Word)

/-- The open parameters of the encoding. -/
structure Config.Encoding where
  /-- `REG_INDEX` (10_state.md R21): the registers in the order of their selector numbers, from 1. -/
  regIndex : List Reg
  singleOperandField : Config.OperandField
  extWordOrder : Config.ExtWordOrder
  /-- `SETCC_SELECTOR`; with `none` it is not supplied, and the decoder refuses opcode 0x32 (R100). -/
  setccSelector : Option Config.SetccSelector
  deriving DecidableEq, Repr

/-- The parameter `ILLEGAL_POLICY` (R5, R94): what an encoding with no meaning does. -/
inductive Config.IllegalPolicy where
  /-- The model fault `IllegalInstruction`. -/
  | fault
  /-- It is executed as `NOP`, which the reference implementation is believed to do (R94). -/
  | nop
  deriving DecidableEq, Repr

/-- The parameter `TickHost` (R5, 70_reset_and_hazards.md R291): what the host does between two runs, beside `BF` and
`IP`. -/
inductive Config.TickHost where
  /-- It changes no register, RAM word or device. -/
  | keeps
  /-- It may change registers, RAM and the devices' states in any way. -/
  | unconstrained
  deriving DecidableEq, Repr

/-- The parameter `INT_FRAME` (R5, 60_exceptions.md R263): what an interrupt entry pushes and `IRET` pops. -/
inductive Config.IntFrame where
  /-- `flags+ip`: the flags word, then the return address. -/
  | flagsAndIp
  /-- `ip-only`: the return address alone. -/
  | ipOnly
  deriving DecidableEq, Repr

/-- The parameters a host supplies to a machine (R5, 70_reset_and_hazards.md R301). The devices and the loaded image are
the host's too and stand in the state; `TICK_BUDGET` is the bound of a run. -/
structure Config.Parameters where
  encoding : Config.Encoding
  /-- `ILLEGAL_POLICY` (R94). -/
  illegalPolicy : Config.IllegalPolicy
  /-- `IVT_BASE`: the RAM address of interrupt vector 0 (R262). -/
  ivtBase : Word
  /-- `INT_FRAME` (R263). -/
  intFrame : Config.IntFrame
  /-- `TEXT_START`: where `IP` is set at each tick (R290). -/
  textStart : Word
  /-- `SP_RESET`: `SP` before the first instruction ever executed (R36). -/
  spReset : Word
  /-- `TickHost` (R291). -/
  tickHost : Config.TickHost
  deriving DecidableEq, Repr

namespace Machine

/-- The contents of the eight general registers (R20, R21). -/
structure Regs where
  a : Word
  b : Word
  c : Word
  d : Word
  x : Word
  y : Word
  sp : Word
  bp : Word
  deriving DecidableEq, Repr, Inhabited

/-- An attached hardware device (R34): its hardware address, its hardware id, and whatever internal state
its documentation gives it, which is outside the spec and held here as words. -/
structure Device where
  address : Word
  id : Word
  state : List Word
  deriving DecidableEq, Repr, Inhabited

/-- What an `HWI` may have changed (46_system.md R241): every general register, RAM (given as the words
stored, in order), and the device's own state. Nothing else: no flag, not `IP`. -/
structure DeviceEffect where
  regs : Regs
  stores : List (Word × Word)
  state : List Word
  deriving DecidableEq, Repr, Inhabited

/-- What an unconstrained host may have changed between two runs (70_reset_and_hazards.md R291, 10_state.md R36): every
general register, RAM (given as the words stored, in order), and the states of devices, by hardware address. -/
structure HostEffect where
  regs : Regs
  stores : List (Word × Word)
  states : List (Word × List Word)
  deriving DecidableEq, Repr, Inhabited

end Machine

/-- The `n`-th one-bit value the spec leaves open (R7 `any`): `OF` after the shifts of
43_shift_rotate.md R176 to R178, and the flags after a tick (10_state.md R36). DESIGN CHOICE (the form), safe: log
entries 19 and 21. -/
opaque Config.freeFlag : Nat → Bool

/-- `dev.HwiEffect` of R241, the open part of the parameter `Devices`: what the device does on the `n`-th
open draw, given the device, the general registers and RAM. UNVERIFIED, safe: log entry 17. -/
opaque Config.hwiEffect : Nat → Machine.Device → Machine.Regs → List Host.Cell → Machine.DeviceEffect

/-- What an unconstrained host does between two runs, on the `n`-th open draw, given the general registers, RAM and the
devices. UNVERIFIED, safe: log entry 20. -/
opaque Config.hostEffect : Nat → Machine.Regs → List Host.Cell → List Machine.Device → Machine.HostEffect

end Sys2Proof
end

