-- ==== Sys2Proof/WellFormed.lean ====
section
/-! DEFINITION. Which terms of `Instr` stand for a legal instruction.
The operand classes of 30_encoding.md R86 are already in the types (`Place` for mem/reg, `Source` for
mem/reg/imm, a bare `Word` for imm), so the one check left is the range of `INT`'s vector number. -/

namespace Sys2Proof

/-- The vector numbers `INT` takes: "imm (0-255)" (46_system.md R243, 92_eei_decisions.md D22). -/
def vectorInRange (n : Word) : Bool := decide (n.toNat ≤ 255)

/-- A legal instruction: every term but `INT` with a number above 255 (R94, R243). -/
def Instr.wellFormed : Instr → Bool
  | .int n => vectorInRange n
  | _ => true

end Sys2Proof
end

