-- ==== Sys2Proof/Decode.lean ====
section
/-! DEFINITION. The decoder, total on any words, and after it the encoder, both from 30_encoding.md. -/

namespace Sys2Proof

/-! ## The parameters of the encoding (00_scope.md R5) -/

/-- `REG_INDEX` A to BP = 1 to 8 (10_state.md R21), `SINGLE_OPERAND_FIELD = source`, `EXT_WORD_ORDER = source-first`,
`SETCC_SELECTOR` = selector 31 with the condition numbers 1 to 14 (R100, 45_setcc.md R220): the spec's defaults (R5).
DESIGN CHOICE, unsafe: log entries 1 to 4. -/
def defaultEncoding : Config.Encoding :=
  { regIndex := Reg.all
    singleOperandField := .source
    extWordOrder := .sourceFirst
    setccSelector := some
      [(31, 1), (31, 2), (31, 3), (31, 4), (31, 5), (31, 6), (31, 7), (31, 8), (31, 9), (31, 10), (31, 11), (31, 12),
        (31, 13), (31, 14)] }

/-- The index of a register by `REG_INDEX` (R21). -/
def Config.Encoding.regNumber (e : Config.Encoding) (r : Reg) : Nat := e.regIndex.idxOf r + 1

/-- The register with an index (R83); there is none with index 0 (R20). -/
def Config.Encoding.regOf (e : Config.Encoding) (n : Nat) : Option Reg :=
  match n with
  | 0 => none
  | k + 1 => e.regIndex[k]?

/-! ## The first word (R81) -/

/-- `opc = w0[5:0]`. -/
def opcodeField (w0 : Word) : Nat := w0.toNat % 64

/-- `dsel = w0[10:6]`. -/
def destinationField (w0 : Word) : Nat := w0.toNat / 64 % 32

/-- `ssel = w0[15:11]`. -/
def sourceField (w0 : Word) : Nat := w0.toNat / 2048 % 32

/-- `w0 = ssel * 2048 + dsel * 64 + opc`. -/
def firstWord (ssel dsel opc : Nat) : Word := BitVec.ofNat 16 (ssel * 2048 + dsel * 64 + opc)

/-! ## Operand selectors (R82 to R86) -/

/-- Why a list of words is no instruction (R94). -/
inductive DecodeError where
  /-- The list ends before the instruction does; never raised by the machine, which gives three words. -/
  | truncated
  /-- An opcode with no instruction: 30 and 51 to 62 (R92). -/
  | unassignedOpcode (opc : Nat)
  /-- A selector in 25 to 29 (R93). -/
  | reservedSelector (sel : Nat)
  /-- Selector 0 where an operand is required (R86). -/
  | missingOperand
  /-- Selector 31 where the class list has no `imm` (R86). -/
  | immediateNotAllowed
  /-- A selector other than 31 where only `imm` is allowed: `INT`, `RET` (R94). -/
  | immediateRequired (sel : Nat)
  /-- A field the shape does not use is not 00000 (R89). -/
  | unusedFieldNotZero
  /-- `INT` with an immediate above 255 (R243). -/
  | vectorOutOfRange (n : Word)
  /-- `SETcc` with a source field and extension word that name no condition (R220). -/
  | noSuchCondition (ssel : Nat) (cc : Word)
  /-- Opcode 0x32 without the parameter `SETCC_SELECTOR` (R100). -/
  | setccSelectorNotSupplied
  deriving DecidableEq, Repr

/-- `NeedsWord(sel)`: 17 to 24, 30 and 31 (R84). -/
def needsWord (sel : Nat) : Bool := (decide (17 ≤ sel) && decide (sel ≤ 24)) || sel == 30 || sel == 31

/-- `length(w0)` (R85), of any first word. -/
def wordCount (w0 : Word) : Nat :=
  1 + (if needsWord (sourceField w0) then 1 else 0) + (if needsWord (destinationField w0) then 1 else 0)

/-- A condition of `SETcc` can be named by a source selector that R93 does not reserve, with an extension word where that
selector has one (R84, R100). -/
def conditionCodeOk (code : Nat × Word) : Bool :=
  (decide (code.1 ≤ 24) || code.1 == 30 || code.1 == 31) && (needsWord code.1 || code.2 == 0)

/-- `SETCC_SELECTOR` names each of the fourteen conditions, and no two alike. -/
def setccSelectorOk (codes : Config.SetccSelector) : Bool :=
  codes.length == Cond.all.length && decide codes.Nodup && codes.all conditionCodeOk

/-- The parameters are consistent: `REG_INDEX` numbers the eight registers 1 to 8 (R20, R21), and `SETCC_SELECTOR`, where it
is supplied, tells the conditions apart. -/
def Config.Encoding.wf (e : Config.Encoding) : Bool := e.regIndex.isPerm Reg.all && e.setccSelector.all setccSelectorOk

/-- A selector's extension word, where it has one, and the words after it (R84). -/
def takeExt (sel : Nat) (ws : List Word) : Except DecodeError (Word × List Word) :=
  if needsWord sel then
    match ws with
    | [] => .error .truncated
    | w :: rest => .ok (w, rest)
  else .ok (0, ws)

/-- Both selectors' extension words, source and destination, in the order of the parameter (R84). -/
def takeExts (order : Config.ExtWordOrder) (ssel dsel : Nat) (ws : List Word) :
    Except DecodeError (Word × Word × List Word) :=
  match order with
  | .sourceFirst => do
      let (sw, ws₁) ← takeExt ssel ws
      let (dw, ws₂) ← takeExt dsel ws₁
      return (sw, dw, ws₂)
  | .destinationFirst => do
      let (dw, ws₁) ← takeExt dsel ws
      let (sw, ws₂) ← takeExt ssel ws₁
      return (sw, dw, ws₂)

/-- The selectors that name a register, in three ranges of eight (R82, R83). -/
def registerPlace (e : Config.Encoding) (sel : Nat) (w : Word) : Option Place :=
  if sel ≤ 8 then (e.regOf sel).map .reg
  else if sel ≤ 16 then (e.regOf (sel - 8)).map .ind
  else if sel ≤ 24 then (e.regOf (sel - 16)).map (.idx · w)
  else none

/-- A `mem/reg` operand from its selector and extension word (R82, R86). -/
def placeOf (e : Config.Encoding) (sel : Nat) (w : Word) : Except DecodeError Place :=
  if sel = 0 then .error .missingOperand
  else if sel = 30 then .ok (.abs w)
  else if sel = 31 then .error .immediateNotAllowed
  else
    match registerPlace e sel w with
    | some p => .ok p
    | none => .error (.reservedSelector sel)

/-- A `mem/reg/imm` operand from its selector and extension word (R82, R86). -/
def sourceOf (e : Config.Encoding) (sel : Nat) (w : Word) : Except DecodeError Source :=
  if sel = 31 then .ok (.imm w) else (placeOf e sel w).map .place

/-- An operand that must be `imm` (R86): `INT`, `RET imm`. -/
def immediateOf (sel : Nat) (w : Word) : Except DecodeError Word :=
  if sel = 31 then .ok w else .error (.immediateRequired sel)

/-- A field the instruction's shape does not use must be 00000 (R89). -/
def requireZero (sel : Nat) : Except DecodeError Unit :=
  if sel = 0 then .ok () else .error .unusedFieldNotZero

/-! ## The opcode map (R90) -/

/-- What an opcode's row of R90 makes of its operands; the shapes of R89 with their operand classes. -/
inductive Row where
  /-- `N0`: no operand. -/
  | n0 (i : Instr)
  /-- `DS`: mem/reg, mem/reg/imm. -/
  | ds (mk : Place → Source → Instr)
  /-- `DS` of `XCHG`: mem/reg, mem/reg. -/
  | dd (mk : Place → Place → Instr)
  /-- `S1` with a mem/reg/imm operand. -/
  | s1 (mk : Source → Instr)
  /-- `S1` with a mem/reg operand, which the instruction writes. -/
  | d1 (mk : Place → Instr)
  /-- Opcode 0x16: no operand, or `imm` (R208). -/
  | ret
  /-- Opcode 0x30: `imm`, 0 to 255 (R243). -/
  | int
  /-- Opcode 0x32: the shape `CC` (R100). -/
  | setcc

/-- The complete opcode map (R90); an opcode with no row is unassigned (R92). -/
def opcodeRow : Nat → Option Row
  | 0x00 => some (.n0 .brk)
  | 0x01 => some (.ds .mov)
  | 0x02 => some (.ds .add)
  | 0x03 => some (.ds .sub)
  | 0x04 => some (.ds .and)
  | 0x05 => some (.ds .or)
  | 0x06 => some (.ds .shl)
  | 0x07 => some (.ds .shr)
  | 0x08 => some (.n0 .into)
  | 0x09 => some (.s1 .hwi)
  | 0x0A => some (.s1 .jmp)
  | 0x0B => some (.ds .test)
  | 0x0C => some (.ds .cmp)
  | 0x0D => some (.s1 .jnz)
  | 0x0E => some (.s1 .jz)
  | 0x0F => some (.s1 .jg)
  | 0x10 => some (.s1 .jge)
  | 0x11 => some (.s1 .jl)
  | 0x12 => some (.s1 .jle)
  | 0x13 => some (.s1 .push)
  | 0x14 => some (.d1 .pop)
  | 0x15 => some (.s1 .call)
  | 0x16 => some .ret
  | 0x17 => some (.s1 .mul)
  | 0x18 => some (.s1 .div)
  | 0x19 => some (.d1 .neg)
  | 0x1A => some (.s1 .js)
  | 0x1B => some (.s1 .jns)
  | 0x1C => some (.s1 .hwq)
  | 0x1D => some (.d1 .not)
  | 0x1F => some (.dd .xchg)
  | 0x20 => some (.ds .ror)
  | 0x21 => some (.s1 .jc)
  | 0x22 => some (.s1 .jnc)
  | 0x23 => some (.ds .rol)
  | 0x24 => some (.s1 .jo)
  | 0x25 => some (.s1 .jno)
  | 0x26 => some (.ds .xor)
  | 0x27 => some (.ds .rcl)
  | 0x28 => some (.ds .rcr)
  | 0x29 => some (.ds .sar)
  | 0x2A => some (.d1 .inc)
  | 0x2B => some (.d1 .dec)
  | 0x2C => some (.n0 .popf)
  | 0x2D => some (.n0 .pushf)
  | 0x2E => some (.s1 .ja)
  | 0x2F => some (.s1 .jna)
  | 0x30 => some .int
  | 0x31 => some (.n0 .iret)
  | 0x32 => some .setcc
  | 0x3F => some (.n0 .nop)
  | _ => none

/-- The condition a source field and its extension word name by `SETCC_SELECTOR` (R100). -/
def conditionOf (codes : Config.SetccSelector) (ssel : Nat) (w : Word) : Option Cond := Cond.all[codes.idxOf (ssel, w)]?

/-- What names a condition by `SETCC_SELECTOR` (R100); the default's numbers where it is not supplied, for an instruction
that is known by its mnemonic alone. -/
def Config.Encoding.setccCode (e : Config.Encoding) (c : Cond) : Nat × Word :=
  match e.setccSelector with
  | some codes => codes.getD (Cond.all.idxOf c) (0, 0)
  | none => (31, BitVec.ofNat 16 (Cond.all.idxOf c + 1))

/-- The extension word of a condition, where it has one (R84, R100). -/
def Config.Encoding.setccWords (e : Config.Encoding) (c : Cond) : List Word :=
  if needsWord (e.setccCode c).1 then [(e.setccCode c).2] else []

/-- The first mnemonic of each row of 45_setcc.md R220 (log entry 32). -/
def setccInstr : Cond → Place → Instr
  | .above => .seta
  | .notCarry => .setae
  | .notAbove => .setbe
  | .carry => .setb
  | .zero => .sete
  | .notZero => .setne
  | .greater => .setg
  | .greaterEqual => .setge
  | .lessEqual => .setle
  | .less => .setl
  | .sign => .sets
  | .notSign => .setns
  | .overflow => .seto
  | .notOverflow => .setno

/-- The two fields of a one-operand instruction, the operand's selector first, then the unused one (R89).
The same choice sends the two extension words. -/
def singleOperand {α : Type} (field : Config.OperandField) (source destination : α) : α × α :=
  match field with
  | .source => (source, destination)
  | .destination => (destination, source)

/-- The instruction of a row with the given selectors and extension words (R86, R89, R94). -/
def decodeRow (e : Config.Encoding) (row : Row) (ssel dsel : Nat) (sw dw : Word) :
    Except DecodeError Instr :=
  let (sel, unused) := singleOperand e.singleOperandField ssel dsel
  let (w, _) := singleOperand e.singleOperandField sw dw
  match row with
  | .n0 i => do
      requireZero ssel
      requireZero dsel
      return i
  | .ds mk => do
      let s ← sourceOf e ssel sw
      let d ← placeOf e dsel dw
      return mk d s
  | .dd mk => do
      let s ← placeOf e ssel sw
      let d ← placeOf e dsel dw
      return mk d s
  | .s1 mk => do
      requireZero unused
      let s ← sourceOf e sel w
      return mk s
  | .d1 mk => do
      requireZero unused
      let d ← placeOf e sel w
      return mk d
  | .ret => do
      requireZero unused
      if sel = 0 then return .ret
      let amount ← immediateOf sel w
      return .retImm amount
  | .int => do
      requireZero unused
      let n ← immediateOf sel w
      if vectorInRange n then return .int n else .error (.vectorOutOfRange n)
  | .setcc => do
      match e.setccSelector with
      | none => .error .setccSelectorNotSupplied
      | some codes => do
          let d ← placeOf e dsel dw
          match conditionOf codes ssel sw with
          | some c => return setccInstr c d
          | none => .error (.noSuchCondition ssel sw)

/-- Steps 1 to 3 of the instruction cycle (R88) over a list of words: the instruction that stands at its head,
and the words after it, or why there is none; with any parameters. -/
def decode (e : Config.Encoding) : List Word → Except DecodeError (Instr × List Word)
  | [] => .error .truncated
  | w0 :: ws => do
      let (sw, dw, rest) ← takeExts e.extWordOrder (sourceField w0) (destinationField w0) ws
      match opcodeRow (opcodeField w0) with
      | none => .error (.unassignedOpcode (opcodeField w0))
      | some row => do
          let i ← decodeRow e row (sourceField w0) (destinationField w0) sw dw
          return (i, rest)

/-! ## The encoder (R81 to R90, R100) -/

/-- The selector of a `mem/reg` operand (R82, R83). -/
def Place.selector (e : Config.Encoding) : Place → Nat
  | .reg r => e.regNumber r
  | .ind r => 8 + e.regNumber r
  | .idx r _ => 16 + e.regNumber r
  | .abs _ => 30

/-- The extension words of a `mem/reg` operand: none or one (R84). -/
def Place.ext : Place → List Word
  | .reg _ | .ind _ => []
  | .idx _ w | .abs w => [w]

/-- The selector of a `mem/reg/imm` operand (R82). -/
def Source.selector (e : Config.Encoding) : Source → Nat
  | .place p => p.selector e
  | .imm _ => 31

/-- The extension words of a `mem/reg/imm` operand (R84). -/
def Source.ext : Source → List Word
  | .place p => p.ext
  | .imm w => [w]

/-- An instruction's operands by its shape (R89). -/
inductive Operands where
  | n0
  | s1 (s : Source)
  | ds (d : Place) (s : Source)
  /-- `CC`: the condition and the operand. -/
  | cc (c : Cond) (d : Place)
  deriving DecidableEq, Repr

/-- An instruction's opcode and operands, read off its row of R90; an alias has the row of the instruction
it names (R91). -/
def Instr.parts : Instr → Nat × Operands
  | .brk => (0x00, .n0)
  | .mov d s => (0x01, .ds d s)
  | .add d s => (0x02, .ds d s)
  | .sub d s => (0x03, .ds d s)
  | .and d s => (0x04, .ds d s)
  | .or d s => (0x05, .ds d s)
  | .shl d c => (0x06, .ds d c)
  | .sal d c => (0x06, .ds d c)
  | .shr d c => (0x07, .ds d c)
  | .into => (0x08, .n0)
  | .hwi s => (0x09, .s1 s)
  | .jmp t => (0x0A, .s1 t)
  | .test d s => (0x0B, .ds d s)
  | .cmp d s => (0x0C, .ds d s)
  | .jnz t => (0x0D, .s1 t)
  | .jz t => (0x0E, .s1 t)
  | .jg t => (0x0F, .s1 t)
  | .jge t => (0x10, .s1 t)
  | .jl t => (0x11, .s1 t)
  | .jle t => (0x12, .s1 t)
  | .push s => (0x13, .s1 s)
  | .pop d => (0x14, .s1 (.place d))
  | .call t => (0x15, .s1 t)
  | .ret => (0x16, .n0)
  | .retImm amount => (0x16, .s1 (.imm amount))
  | .mul s => (0x17, .s1 s)
  | .div s => (0x18, .s1 s)
  | .neg d => (0x19, .s1 (.place d))
  | .js t => (0x1A, .s1 t)
  | .jns t => (0x1B, .s1 t)
  | .hwq s => (0x1C, .s1 s)
  | .not d => (0x1D, .s1 (.place d))
  | .xchg d s => (0x1F, .ds d (.place s))
  | .ror d c => (0x20, .ds d c)
  | .jc t => (0x21, .s1 t)
  | .jnc t => (0x22, .s1 t)
  | .jae t => (0x22, .s1 t)
  | .rol d c => (0x23, .ds d c)
  | .jo t => (0x24, .s1 t)
  | .jno t => (0x25, .s1 t)
  | .xor d s => (0x26, .ds d s)
  | .rcl d c => (0x27, .ds d c)
  | .rcr d c => (0x28, .ds d c)
  | .sar d c => (0x29, .ds d c)
  | .inc d => (0x2A, .s1 (.place d))
  | .dec d => (0x2B, .s1 (.place d))
  | .popf => (0x2C, .n0)
  | .pushf => (0x2D, .n0)
  | .ja t => (0x2E, .s1 t)
  | .jna t => (0x2F, .s1 t)
  | .int n => (0x30, .s1 (.imm n))
  | .iret => (0x31, .n0)
  | .seta d | .setnbe d => (0x32, .cc .above d)
  | .setae d | .setnb d | .setnc d => (0x32, .cc .notCarry d)
  | .setbe d | .setna d => (0x32, .cc .notAbove d)
  | .setb d | .setc d | .setnae d => (0x32, .cc .carry d)
  | .sete d | .setz d => (0x32, .cc .zero d)
  | .setne d | .setnz d => (0x32, .cc .notZero d)
  | .setg d | .setnle d => (0x32, .cc .greater d)
  | .setge d | .setnl d => (0x32, .cc .greaterEqual d)
  | .setle d | .setng d => (0x32, .cc .lessEqual d)
  | .setl d | .setnge d => (0x32, .cc .less d)
  | .sets d => (0x32, .cc .sign d)
  | .setns d => (0x32, .cc .notSign d)
  | .seto d => (0x32, .cc .overflow d)
  | .setno d => (0x32, .cc .notOverflow d)
  | .nop => (0x3F, .n0)

/-- The extension words of source and destination in the order of the parameter (R84). -/
def orderExts (order : Config.ExtWordOrder) (source destination : List Word) : List Word :=
  match order with
  | .sourceFirst => source ++ destination
  | .destinationFirst => destination ++ source

/-- The words of an opcode with its operands (R81, R84, R89, R100). -/
def encodeParts (e : Config.Encoding) (opc : Nat) : Operands → List Word
  | .n0 => [firstWord 0 0 opc]
  | .s1 s =>
      let (ssel, dsel) := singleOperand e.singleOperandField (s.selector e) 0
      firstWord ssel dsel opc :: s.ext
  | .ds d s => firstWord (s.selector e) (d.selector e) opc :: orderExts e.extWordOrder s.ext d.ext
  | .cc c d => firstWord (e.setccCode c).1 (d.selector e) opc :: orderExts e.extWordOrder (e.setccWords c) d.ext

/-- The words of an instruction, with any parameters. -/
def encode (e : Config.Encoding) (i : Instr) : List Word := encodeParts e i.parts.1 i.parts.2

/-- How many words an instruction has (R85): one, and one for each operand with an extension word. -/
def Operands.length (e : Config.Encoding) : Operands → Nat
  | .n0 => 1
  | .s1 s => 1 + s.ext.length
  | .ds d s => 1 + d.ext.length + s.ext.length
  | .cc c d => 1 + (e.setccWords c).length + d.ext.length

/-- `length` of R85. -/
def Instr.length (e : Config.Encoding) (i : Instr) : Nat := i.parts.2.length e

/-- The instruction is legal and has words: a `SETcc` has none where `SETCC_SELECTOR` is not supplied (R100). -/
def Instr.encodable (e : Config.Encoding) (i : Instr) : Bool :=
  i.wellFormed && (i.parts.1 != 0x32 || e.setccSelector.isSome)

/-- The constructor the decoder answers for an instruction's words: an aliased mnemonic's words are those of
the instruction it names (R91, R220). -/
def Instr.canonical : Instr → Instr
  | .sal d c => .shl d c
  | .jae t => .jnc t
  | .setnbe d => .seta d
  | .setnb d => .setae d
  | .setnc d => .setae d
  | .setna d => .setbe d
  | .setc d => .setb d
  | .setnae d => .setb d
  | .setz d => .sete d
  | .setnz d => .setne d
  | .setnle d => .setg d
  | .setnl d => .setge d
  | .setng d => .setle d
  | .setnge d => .setl d
  | i => i

/-! ## The host's view of the decoder -/

/-- The three words of an instruction whose bits are `w`, the first word lowest, every bit from `nbits` up being 0. -/
def tableWords (nbits w : Nat) : List Word :=
  let v := w % 2 ^ nbits
  [BitVec.ofNat 16 v, BitVec.ofNat 16 (v / 2 ^ 16), BitVec.ofNat 16 (v / 2 ^ 32)]

/-- The instruction the decoder reads, with the default parameters, from an instruction whose bits are `w`. -/
def decodeTableWord (nbits w : Nat) : Option Instr :=
  match decode defaultEncoding (tableWords nbits w) with
  | .ok (i, _) => some i
  | .error _ => none

end Sys2Proof
end

