-- ==== Sys2Proof/Machine/Memory.lean ====
section
/-! DEFINITION. RAM: 65536 words of 16 bits (10_state.md R33, 20_memory.md R50), held as a list of
(address, byte) cells in one canonical form. The machine has no bytes (R53): that word `a` lies in the cells
`2 a` (bits 7:0) and `2 a + 1` (bits 15:8) is only how the list is written, and nothing in the machine can
observe it (log entry 23). -/

namespace Sys2Proof.Machine

/-- RAM as cells, addresses strictly rising, none equal to what an unlisted cell reads as (`Memory.wf`). -/
abbrev Memory := List Host.Cell

/-- What a cell nothing has written reads as: the spec gives none (R36). DESIGN CHOICE, unsafe: log entry 14. -/
def Memory.unlisted : BitVec 8 := 0

/-- One more than the highest cell address: two cells for each of the 65536 words (R33). -/
def Memory.cells : Nat := 2 * 65536

/-- One cell. -/
def Memory.readCell : Memory → Nat → BitVec 8
  | [], _ => Memory.unlisted
  | (k, v) :: rest, a => if k = a then v else Memory.readCell rest a

/-- The cells but those at one address. -/
def Memory.eraseCell : Memory → Nat → Memory
  | [], _ => []
  | (k, u) :: rest, a => if k = a then Memory.eraseCell rest a else (k, u) :: Memory.eraseCell rest a

/-- A cell put before the first one with a higher address. -/
def Memory.insertCell : Memory → Nat → BitVec 8 → Memory
  | [], a, v => [(a, v)]
  | (k, u) :: rest, a, v => if a < k then (a, v) :: (k, u) :: rest else (k, u) :: Memory.insertCell rest a v

/-- Writes one cell and keeps the canonical form: writing what an unlisted cell reads as removes the entry. -/
def Memory.writeCell (m : Memory) (a : Nat) (v : BitVec 8) : Memory :=
  if v = Memory.unlisted then m.eraseCell a else (m.eraseCell a).insertCell a v

/-- Every cell address from `lo` on, strictly rising, inside the address space, none holding the unlisted value. -/
def Memory.wfFrom : Nat → Memory → Bool
  | _, [] => true
  | lo, (k, v) :: rest =>
    decide (lo ≤ k) && decide (k < Memory.cells) && decide (v ≠ Memory.unlisted) && Memory.wfFrom (k + 1) rest

/-- The canonical form. -/
def Memory.wf (m : Memory) : Bool := Memory.wfFrom 0 m

/-- The cell of a word's bits 7:0. -/
def lowCell (a : Word) : Nat := 2 * a.toNat

/-- The cell of a word's bits 15:8. -/
def highCell (a : Word) : Nat := 2 * a.toNat + 1

/-- `MemRead(a, 1)` (00_scope.md R7, 20_memory.md R52): always succeeds, no side effect. -/
def Memory.read (m : Memory) (a : Word) : Word :=
  m.readCell (highCell a) ++ m.readCell (lowCell a)

/-- `MemWrite(a, 1, v)` (R7, R52): always succeeds. -/
def Memory.write (m : Memory) (a v : Word) : Memory :=
  (m.writeCell (lowCell a) (v.extractLsb' 0 8)).writeCell (highCell a) (v.extractLsb' 8 8)

end Sys2Proof.Machine
end

