-- ==== Sys2Proof/Machine/Parameters.lean ====
section
/-! DEFINITION. The parameters of 00_scope.md R5 at the spec's defaults. A machine has its parameters in its state
(`State.parameters`), and nothing but `State.reset` uses these. -/

namespace Sys2Proof.Machine

/-- `ILLEGAL_POLICY = fault`, `IVT_BASE = 0x0000`, `INT_FRAME = flags+ip`, `TEXT_START = 0x0200`, `SP_RESET = 0x0000`
(R5), a host that keeps what it finds (70_reset_and_hazards.md R291).
DESIGN CHOICE, unsafe: log entries 5, 7, 8, 10, 11 and 20. -/
def defaultParameters : Config.Parameters :=
  { encoding := defaultEncoding
    illegalPolicy := .fault
    ivtBase := 0x0000
    intFrame := .flagsAndIp
    textStart := 0x0200
    spReset := 0x0000
    tickHost := .keeps }

end Sys2Proof.Machine
end

