-- ==== Sys2Proof/Machine/State.lean ====
section
/-! DEFINITION. The state of the machine (10_state.md), as plain data, and the reasons a step can stop. -/

namespace Sys2Proof.Machine

/-- The five one-bit flags (R26, R27). -/
structure Flags where
  /-- Carry. -/
  cf : Bool
  /-- Zero. -/
  zf : Bool
  /-- Sign. -/
  sf : Bool
  /-- Overflow. -/
  of : Bool
  /-- Break: while it is set the CPU executes nothing (R29). -/
  bf : Bool
  deriving DecidableEq, Repr

/-- Everything the spec gives the machine (R20 to R37), and the model's own counter of open values. -/
structure State where
  /-- The general registers (R20). -/
  regs : Regs
  /-- The instruction pointer (R24). -/
  ip : Word
  /-- The flags (R26). -/
  flags : Flags
  /-- RAM (R33). -/
  ram : Memory
  /-- The attached devices (R34), hardware addresses strictly rising, so at most one at an address. -/
  devices : List Device
  /-- The parameters the host supplies (00_scope.md R5, 70_reset_and_hazards.md R301): the arguments of the machine, held
  here so that every step takes them. The MODEL's own field; no step writes it (log entry 35). -/
  parameters : Config.Parameters
  /-- The MODEL's own: how many open values (`any`, 00_scope.md R7) have been drawn (log entry 19). -/
  drawn : Nat
  deriving DecidableEq, Repr

/-- Why a step faults. -/
inductive Fault where
  /-- `IllegalInstruction(w0)` (30_encoding.md R94, 60_exceptions.md R274): the step on an encoding with no meaning,
  and the meaning of `INT` on a number above 255. A model fault, not a trap. Safe: the spec gives no effect, and no
  claim about a final state follows from it. -/
  | illegalInstruction (w0 : Word)
  deriving DecidableEq, Repr

/-- Why a step is refused. -/
inductive Refusal where
  /-- An instruction that has no meaning in the model yet. Raised by an arm of `exec` alone; no arm raises it now.
  Safe: a refused step proves nothing. -/
  | notModelled (mnemonic : String)
  /-- Opcode 0x32 is fetched and the parameter `SETCC_SELECTOR` is not supplied (30_encoding.md R100,
  70_reset_and_hazards.md R292). Raised by the step alone. Safe: the spec asks for it, and no claim about a final state
  follows. -/
  | setccSelectorNotSupplied
  deriving DecidableEq, Repr

/-- What executing an instruction answers. -/
abbrev Result := Host.Outcome State Fault Refusal

/-- The state before the first instruction ever executed, with the given parameters (R36, 70_reset_and_hazards.md R291).
`IP`, `BF` and `SP` as stated; every other value is the model's, since the spec gives none.
DESIGN CHOICE, unsafe: log entries 12 to 14, 16 and 19. -/
def State.start (p : Config.Parameters) : State :=
  { regs :=
      { a := 0, b := 0, c := 0, d := 0, x := 0, y := 0, sp := p.spReset, bp := 0 }
    ip := p.textStart
    flags := { cf := false, zf := false, sf := false, of := false, bf := false }
    ram := []
    devices := []
    parameters := p
    drawn := 0 }

/-- The state after reset, with the parameters at the spec's defaults (R5; log entries 1 to 5, 7, 8, 10, 11 and 20). -/
def State.reset : State := State.start defaultParameters

end Sys2Proof.Machine
end

