-- ==== Sys2Proof/Machine/Flags.lean ====
section
/-! DEFINITION. Every flag computation of the spec: the arithmetic laws (41_arithmetic.md), the logic rule
(42_logic.md), the shifts and rotates (43_shift_rotate.md), the flags word (10_state.md R28) and the conditions of the
jumps and of `SETcc` (44_control_transfer.md, 45_setcc.md). -/

namespace Sys2Proof.Machine

/-! ## The flags word (R28) -/

/-- `FlagsWord()`: bits 15:4 zero, then SF, ZF, CF, OF. -/
def flagsWord (f : Flags) : Word :=
  BitVec.ofNat 16 (f.sf.toNat * 8 + f.zf.toNat * 4 + f.cf.toNat * 2 + f.of.toNat)

/-- `SetFlagsFromWord(w)`: bits 15:4 ignored, `BF` unchanged. -/
def flagsFromWord (f : Flags) (w : Word) : Flags :=
  { f with sf := w.bit 3, zf := w.bit 2, cf := w.bit 1, of := w.bit 0 }

/-! ## Arithmetic (R140, R141) -/

/-- A result and the four flags it gives. -/
structure ArithResult where
  value : Word
  carry : Bool
  zero : Bool
  sign : Bool
  overflow : Bool
  deriving DecidableEq, Repr

/-- `AddFlags(a, b)` (R140). -/
def addFlags (a b : Word) : ArithResult :=
  let full := a.toNat + b.toNat
  let r : Word := BitVec.ofNat 16 full
  { value := r
    carry := decide (0x10000 ≤ full)
    zero := r == 0
    sign := r.sign
    overflow := a.sign == b.sign && r.sign != a.sign }

/-- `SubFlags(a, b)` (R141); the carry is the borrow. -/
def subFlags (a b : Word) : ArithResult :=
  let r : Word := BitVec.ofInt 16 ((a.toNat : Int) - b.toNat)
  { value := r
    carry := decide (a.toNat < b.toNat)
    zero := r == 0
    sign := r.sign
    overflow := a.sign != b.sign && r.sign != a.sign }

/-- `NEG`'s result and flags (R148). -/
def negFlags (v : Word) : ArithResult :=
  let r : Word := BitVec.ofInt 16 (0 - (v.toNat : Int))
  { value := r
    carry := v != 0
    zero := r == 0
    sign := r.sign
    overflow := v == 0x8000 }

/-- `CF <- c; ZF <- z; SF <- s; OF <- o`. -/
def Flags.withArith (f : Flags) (r : ArithResult) : Flags :=
  { f with cf := r.carry, zf := r.zero, sf := r.sign, of := r.overflow }

/-- `ZF <- z; SF <- s; OF <- o`, `CF` unchanged (`INC`, `DEC`: R144, R146). -/
def Flags.withArithKeepCarry (f : Flags) (r : ArithResult) : Flags :=
  { f with zf := r.zero, sf := r.sign, of := r.overflow }

/-- `LogicFlags(r)` (R160). -/
def Flags.withLogic (f : Flags) (r : Word) : Flags :=
  { f with cf := false, of := false, zf := r == 0, sf := r.sign }

/-- `MUL`: `CF` and `OF` tell whether the high word is non-zero (R147). -/
def Flags.withHighWord (f : Flags) (hi : Word) : Flags :=
  { f with cf := hi != 0, of := hi != 0 }

/-! ## Shifts and rotates (R170 to R178) -/

/-- `SignChanged(old, new)` (R170). -/
def signChanged (old new : Word) : Bool := old.sign != new.sign

/-- `rotl_N(v, c)` for `c < N` (00_scope.md R6). -/
def rotl {n : Nat} (v : BitVec n) (c : Nat) : BitVec n := (v <<< c) ||| (v >>> (n - c))

/-- `rotr_N(v, c)` for `c < N` (R6). -/
def rotr {n : Nat} (v : BitVec n) (c : Nat) : BitVec n := rotl v ((n - c) % n)

/-- What a shift or rotate writes. -/
structure ShiftResult where
  value : Word
  flags : Flags
  deriving DecidableEq, Repr

/-- The value of `SHL`, `SAL` by `n` (R177). -/
def shlValue (dv : Word) (n : Nat) : Word := if n ≤ 15 then dv <<< n else 0

/-- The value of `SHR` by `n` (R178). -/
def shrValue (dv : Word) (n : Nat) : Word := if n ≤ 15 then dv >>> n else 0

/-- The value of `SAR` by `n` (R176): counts of 16 and more leave sixteen copies of the sign bit. -/
def sarValue (dv : Word) (n : Nat) : Word := dv.sshiftRight (min n 16)

/-- `SHL`, `SAL` by `n > 0` (R177), with the value of `OF` given. -/
def shlBy (dv : Word) (n : Nat) (f : Flags) (ov : Bool) : ShiftResult :=
  let r := shlValue dv n
  let c := if n ≤ 16 then dv.bit (16 - n) else false
  { value := r, flags := { f with cf := c, zf := r == 0, sf := r.sign, of := ov } }

/-- `SHR` by `n > 0` (R178), with the value of `OF` given. -/
def shrBy (dv : Word) (n : Nat) (f : Flags) (ov : Bool) : ShiftResult :=
  let r := shrValue dv n
  let c := if n ≤ 16 then dv.bit (n - 1) else false
  { value := r, flags := { f with cf := c, of := ov } }

/-- `SAR` by `n > 0` (R176), with the value of `OF` given. -/
def sarBy (dv : Word) (n : Nat) (f : Flags) (ov : Bool) : ShiftResult :=
  let r := sarValue dv n
  let c := if n ≤ 15 then dv.bit (n - 1) else dv.sign
  { value := r, flags := { f with cf := c, zf := r == 0, sf := r.sign, of := ov } }

/-- What `SHL`, `SAL` and `SHR` fix of `OF` (R177, R178): the sign change for count 1, else open. -/
def shiftOverflow (old new : Word) (n : Nat) : Option Bool :=
  if n = 1 then some (signChanged old new) else none

/-- `ROL` (R173). -/
def rolBy (dv count : Word) (f : Flags) : ShiftResult :=
  let c := count.toNat % 16
  let r : Word := rotl dv c
  { value := r
    flags := { f with of := if c = 1 then signChanged dv r else f.of, cf := r.bit 0 } }

/-- `ROR` (R174). -/
def rorBy (dv count : Word) (f : Flags) : ShiftResult :=
  let c := count.toNat % 16
  let r : Word := rotr dv c
  { value := r
    flags := { f with of := if c = 1 then signChanged dv r else f.of, cf := r.bit 15 } }

/-- The 17 bits `RCL` and `RCR` rotate: `(CF << 16) | dv` (R171). -/
def carryWord (f : Flags) (dv : Word) : BitVec 17 := BitVec.ofNat 17 (f.cf.toNat * 65536 + dv.toNat)

/-- What `RCL` and `RCR` write of the rotated 17 bits (R171, R172). -/
def fromCarryWord (v : BitVec 17) (c : Nat) (dv : Word) (f : Flags) : ShiftResult :=
  let r : Word := v.extractLsb' 0 16
  { value := r
    flags := { f with of := if c = 1 then signChanged dv r else f.of, cf := v.getLsbD 16 } }

/-- `RCL` (R171). -/
def rclBy (dv count : Word) (f : Flags) : ShiftResult :=
  let c := count.toNat % 17
  fromCarryWord (rotl (carryWord f dv) c) c dv f

/-- `RCR` (R172). -/
def rcrBy (dv count : Word) (f : Flags) : ShiftResult :=
  let c := count.toNat % 17
  fromCarryWord (rotr (carryWord f dv) c) c dv f

/-! ## Conditions (R192 to R207, R221 to R234) -/

/-- Whether a condition holds on the current flags. -/
def condHolds (c : Cond) (f : Flags) : Bool :=
  match c with
  | .above => !f.cf && !f.zf
  | .notCarry => !f.cf
  | .notAbove => f.cf || f.zf
  | .carry => f.cf
  | .zero => f.zf
  | .notZero => !f.zf
  | .greater => f.sf == f.of && !f.zf
  | .greaterEqual => f.sf == f.of
  | .lessEqual => f.sf != f.of || f.zf
  | .less => f.sf != f.of
  | .sign => f.sf
  | .notSign => !f.sf
  | .overflow => f.of
  | .notOverflow => !f.of

end Sys2Proof.Machine
end

