-- ==== Sys2Proof/Machine/Ops.lean ====
section
/-! DEFINITION. The named operations over the state: registers, RAM, the stack, the instruction pointer, open values,
devices, and interrupt entry and return (00_scope.md R7, 60_exceptions.md R263, R271). -/

namespace Sys2Proof.Machine

/-! ## General registers (10_state.md R20, R23) -/

/-- `x[r]`. -/
def Regs.get (g : Regs) : Reg → Word
  | .a => g.a | .b => g.b | .c => g.c | .d => g.d | .x => g.x | .y => g.y | .sp => g.sp | .bp => g.bp

/-- `x[r] <- v`. -/
def Regs.set (g : Regs) (r : Reg) (v : Word) : Regs :=
  match r with
  | .a => { g with a := v }
  | .b => { g with b := v }
  | .c => { g with c := v }
  | .d => { g with d := v }
  | .x => { g with x := v }
  | .y => { g with y := v }
  | .sp => { g with sp := v }
  | .bp => { g with bp := v }

/-- The value of a register. -/
def readReg (r : Reg) (s : State) : Word := s.regs.get r

/-- Writes a register; no register is hard-wired or read-only (R23). -/
def writeReg (r : Reg) (v : Word) (s : State) : State := { s with regs := s.regs.set r v }

/-! ## RAM (20_memory.md R52) -/

/-- `MemRead(a, 1)`. -/
def readRam (a : Word) (s : State) : Word := s.ram.read a

/-- `MemWrite(a, 1, v)`. -/
def writeRam (a v : Word) (s : State) : State := { s with ram := s.ram.write a v }

/-! ## Flags and the instruction pointer -/

/-- Replaces the flags. -/
def setFlags (f : Flags) (s : State) : State := { s with flags := f }

/-- `IP <- t`. -/
def setIp (t : Word) (s : State) : State := { s with ip := t }

/-- `next` of an instruction of `length` words (R7): modulo 2^16 (R25). -/
def nextIp (length : Nat) (s : State) : Word := s.ip + BitVec.ofNat 16 length

/-! ## The stack (20_memory.md R66) -/

/-- `Push(v)` (R7, 40_data_movement.md R123). -/
def push (v : Word) (s : State) : State :=
  let sp := readReg .sp s - 1
  writeRam sp v (writeReg .sp sp s)

/-- `MemRead(SP, 1)`: the word on top of the stack. -/
def stackTop (s : State) : Word := readRam (readReg .sp s) s

/-- `SP <- SP + n`. -/
def dropWords (n : Word) (s : State) : State := writeReg .sp (readReg .sp s + n) s

/-! ## Open values (R7 `any`) -/

/-- Draws an open one-bit value: an opaque constant applied to the counter, which advances. -/
def drawFlag (s : State) : Bool × State := (Config.freeFlag s.drawn, { s with drawn := s.drawn + 1 })

/-- A value the rule fixes, or an open one. -/
def knownOrDrawn (known : Option Bool) (s : State) : Bool × State :=
  match known with
  | some b => (b, s)
  | none => drawFlag s

/-! ## Interrupts (60_exceptions.md R262, R263, R271) -/

/-- The address of the vector table's entry `n` (R262). -/
def vectorAddress (n : Word) (s : State) : Word := s.parameters.ivtBase + n

/-- `Interrupt(n, ret)` under a given frame (R263): the handler's address is read after the pushes. -/
def enterInterrupt (frame : Config.IntFrame) (n ret : Word) (s : State) : State :=
  let saved :=
    match frame with
    | .flagsAndIp => push ret (push (flagsWord s.flags) s)
    | .ipOnly => push ret s
  setIp (readRam (vectorAddress n s) saved) saved

/-- Taking an interrupt or the divide-by-zero exception, with the machine's frame. -/
def takeInterrupt (n ret : Word) (s : State) : State := enterInterrupt s.parameters.intFrame n ret s

/-- Returning from an interrupt under a given frame (46_system.md R245). -/
def leaveInterrupt (frame : Config.IntFrame) (s : State) : State :=
  match frame with
  | .flagsAndIp =>
      let w := readRam (readReg .sp s + 1) s
      dropWords 2 (setFlags (flagsFromWord s.flags w) (setIp (stackTop s) s))
  | .ipOnly => dropWords 1 (setIp (stackTop s) s)

/-- Returning from an interrupt, with the machine's frame. -/
def returnFromInterrupt (s : State) : State := leaveInterrupt s.parameters.intFrame s

/-! ## Devices (10_state.md R34, 46_system.md R241, R242) -/

/-- `Devices(h)`: the device at a hardware address, if any. -/
def findDevice (h : Word) : List Device → Option Device
  | [] => none
  | dev :: rest => if dev.address = h then some dev else findDevice h rest

/-- Replaces the internal state of the device at a hardware address. -/
def setDeviceState (h : Word) (st : List Word) : List Device → List Device
  | [] => []
  | dev :: rest => if dev.address = h then { dev with state := st } :: rest else dev :: setDeviceState h st rest

/-- At most one device at an address: addresses strictly rising. -/
def devicesWfFrom : Nat → List Device → Bool
  | _, [] => true
  | lo, dev :: rest => decide (lo ≤ dev.address.toNat) && devicesWfFrom (dev.address.toNat + 1) rest

/-- The device map's canonical form (R34: a partial map). -/
def devicesWf (ds : List Device) : Bool := devicesWfFrom 0 ds

/-- Stores words one after another. -/
def storeAll : List (Word × Word) → State → State
  | [], s => s
  | (a, v) :: rest, s => storeAll rest (writeRam a v s)

/-- A device's action on `HWI` (R241): it may change every general register, RAM and its own state, and changes
nothing else; what it does is open (log entry 17). -/
def deviceActs (dev : Device) (s : State) : State :=
  let effect := Config.hwiEffect s.drawn dev s.regs s.ram
  storeAll effect.stores
    { s with
      regs := effect.regs
      devices := setDeviceState dev.address effect.state s.devices
      drawn := s.drawn + 1 }

/-- Replaces the internal states of devices, one after another. -/
def setDeviceStates : List (Word × List Word) → List Device → List Device
  | [], ds => ds
  | (h, st) :: rest, ds => setDeviceStates rest (setDeviceState h st ds)

/-- An unconstrained host's action between two runs (70_reset_and_hazards.md R291): it may change every general register,
RAM and the devices' states; what it does is open (log entry 20). -/
def hostActs (s : State) : State :=
  let effect := Config.hostEffect s.drawn s.regs s.ram s.devices
  storeAll effect.stores
    { s with
      regs := effect.regs
      devices := setDeviceStates effect.states s.devices
      drawn := s.drawn + 1 }

end Sys2Proof.Machine
end

