-- ==== Sys2Proof/Machine/Operands.lean ====
section
/-! DEFINITION. Operand resolution and access (30_encoding.md R87, steps 4 and 5 of R88), every operand form, and the
shapes of meaning the families share. -/

namespace Sys2Proof.Machine

/-- A resolved `mem/reg` operand: `Reg(i)` or `Mem(a)` (R87). -/
inductive Loc where
  | reg (r : Reg)
  | mem (a : Word)
  deriving DecidableEq, Repr

/-- Resolves an operand with the register values of the given state (R82, R87); `[reg + imm]` wraps modulo 2^16. -/
def resolve (p : Place) (s : State) : Loc :=
  match p with
  | .reg r => .reg r
  | .ind r => .mem (readReg r s)
  | .idx r w => .mem (readReg r s + w)
  | .abs w => .mem w

/-- `ReadOp` of a resolved place (R87). -/
def readLoc (l : Loc) (s : State) : Word :=
  match l with
  | .reg r => readReg r s
  | .mem a => readRam a s

/-- `WriteOp` to a resolved place (R87). -/
def writeLoc (l : Loc) (v : Word) (s : State) : State :=
  match l with
  | .reg r => writeReg r v s
  | .mem a => writeRam a v s

/-- The value of a `mem/reg` operand. -/
def placeValue (p : Place) (s : State) : Word := readLoc (resolve p s) s

/-- The value of a `mem/reg/imm` operand (R87). -/
def sourceValue (o : Source) (s : State) : Word :=
  match o with
  | .place p => placeValue p s
  | .imm w => w

/-- `next` after an instruction with no operand. -/
def nextAfterNone (s : State) : Word := nextIp 1 s

/-- `next` after an instruction with one mem/reg operand. -/
def nextAfterPlace (d : Place) (s : State) : Word := nextIp (1 + d.ext.length) s

/-- `next` after an instruction with one mem/reg/imm operand. -/
def nextAfterSource (o : Source) (s : State) : Word := nextIp (1 + o.ext.length) s

/-- `next` after an instruction with a destination and a source. -/
def nextAfterBoth (d : Place) (o : Source) (s : State) : Word := nextIp (1 + d.ext.length + o.ext.length) s

/-- `next` after a `SETcc`: beside the operand's extension word it has that of its condition (R100). -/
def nextAfterSetcc (c : Cond) (d : Place) (s : State) : Word :=
  nextIp (1 + (s.parameters.encoding.setccWords c).length + d.ext.length) s

/-- Reads both operands, computes, writes the destination and the flags (shape `DS`: R142, R149, R161, R163, R165,
R171 to R174). -/
def updateBoth (d : Place) (o : Source) (f : Word → Word → Flags → ShiftResult) (s : State) : State :=
  let l := resolve d s
  let out := f (readLoc l s) (sourceValue o s) s.flags
  setIp (nextAfterBoth d o s) (setFlags out.flags (writeLoc l out.value s))

/-- Reads both operands and writes the flags only (`CMP`, `TEST`: R143, R164). -/
def compareBoth (d : Place) (o : Source) (f : Word → Word → Flags → Flags) (s : State) : State :=
  setIp (nextAfterBoth d o s) (setFlags (f (placeValue d s) (sourceValue o s) s.flags) s)

/-- Reads one place, computes, writes it and the flags (shape `S1`: R144, R146, R148, R162). -/
def updateOne (d : Place) (f : Word → Flags → ShiftResult) (s : State) : State :=
  let l := resolve d s
  let out := f (readLoc l s) s.flags
  setIp (nextAfterPlace d s) (setFlags out.flags (writeLoc l out.value s))

/-- A shift by the full count (R170): count 0 changes nothing but `IP`; otherwise the destination and the flags are
written, `OF` with the value the rule fixes or with an open one (R176 to R178). -/
def shiftBoth (d : Place) (c : Source) (known : Word → Nat → Option Bool)
    (f : Word → Nat → Flags → Bool → ShiftResult) (s : State) : State :=
  let l := resolve d s
  let n := (sourceValue c s).toNat
  let dv := readLoc l s
  if n = 0 then setIp (nextAfterBoth d c s) s
  else
    let (ov, s₁) := knownOrDrawn (known dv n) s
    let out := f dv n s.flags ov
    setIp (nextAfterBoth d c s) (setFlags out.flags (writeLoc l out.value s₁))

/-- What an encoding with no meaning and the first word `w0` does: `ILLEGAL_POLICY` (R94). -/
def illegalEncoding (w0 : Word) (s : State) : Result :=
  match s.parameters.illegalPolicy with
  | .fault => .fault (.illegalInstruction w0)
  | .nop => .next (setIp (nextIp (wordCount w0) s) s)

/-- Jumps to the operand's value when the condition holds, else goes on (R190). -/
def jumpWhen (taken : Bool) (t : Source) (s : State) : State :=
  setIp (if taken then sourceValue t s else nextAfterSource t s) s

/-- Stores the word 1 or 0 by a condition on the current flags (R220). -/
def storeCond (c : Cond) (d : Place) (s : State) : State :=
  setIp (nextAfterSetcc c d s) (writeLoc (resolve d s) (if condHolds c s.flags then 1 else 0) s)

end Sys2Proof.Machine
end

