-- ==== Sys2Proof/Machine/Arithmetic.lean ====
section
/-! DEFINITION. ADD, CMP, DEC, DIV, INC, MUL, NEG, SUB (41_arithmetic.md). -/

namespace Sys2Proof.Machine

/-- `ADD` (R142). -/
def execAdd (d : Place) (o : Source) (s : State) : Result :=
  .next (updateBoth d o (fun dv sv f => let r := addFlags dv sv; ⟨r.value, f.withArith r⟩) s)

/-- `SUB` (R149). -/
def execSub (d : Place) (o : Source) (s : State) : Result :=
  .next (updateBoth d o (fun dv sv f => let r := subFlags dv sv; ⟨r.value, f.withArith r⟩) s)

/-- `CMP` (R143). -/
def execCmp (d : Place) (o : Source) (s : State) : Result :=
  .next (compareBoth d o (fun dv sv f => f.withArith (subFlags dv sv)) s)

/-- `INC` (R146): `CF` unchanged. -/
def execInc (d : Place) (s : State) : Result :=
  .next (updateOne d (fun v f => let r := addFlags v 1; ⟨r.value, f.withArithKeepCarry r⟩) s)

/-- `DEC` (R144): `CF` unchanged. -/
def execDec (d : Place) (s : State) : Result :=
  .next (updateOne d (fun v f => let r := subFlags v 1; ⟨r.value, f.withArithKeepCarry r⟩) s)

/-- `NEG` (R148). -/
def execNeg (d : Place) (s : State) : Result :=
  .next (updateOne d (fun v f => let r := negFlags v; ⟨r.value, f.withArith r⟩) s)

/-- `MUL` (R147): `Y` is written only when the high word of the product is non-zero. -/
def execMul (o : Source) (s : State) : Result :=
  let product := (readReg .a s).toNat * (sourceValue o s).toNat
  let hi : Word := BitVec.ofNat 16 (product / 2 ^ 16)
  let lo : Word := BitVec.ofNat 16 product
  let s₁ := setFlags (s.flags.withHighWord hi) s
  let s₂ := if hi = 0 then s₁ else writeReg .y hi s₁
  .next (setIp (nextAfterSource o s) (writeReg .a lo s₂))

/-- `DIV` (R145, 60_exceptions.md R261): a zero divisor is interrupt 0 with the next instruction's address;
otherwise the quotient's low word goes to `A` and the remainder to `Y`. -/
def execDiv (o : Source) (s : State) : Result :=
  let divisor := (sourceValue o s).toNat
  if divisor = 0 then .next (takeInterrupt 0 (nextAfterSource o s) s)
  else
    let dividend := (readReg .y s).toNat * 2 ^ 16 + (readReg .a s).toNat
    .next (setIp (nextAfterSource o s)
      (writeReg .y (BitVec.ofNat 16 (dividend % divisor))
        (writeReg .a (BitVec.ofNat 16 (dividend / divisor)) s)))

end Sys2Proof.Machine
end

