-- ==== Sys2Proof/Machine/ControlTransfer.lean ====
section
/-! DEFINITION. CALL, JMP, the conditional jumps and RET (44_control_transfer.md). -/

namespace Sys2Proof.Machine

/-- `CALL` (R191): the target is read before `SP` changes; the pushed word is `next`. -/
def execCall (t : Source) (s : State) : Result :=
  .next (setIp (sourceValue t s) (push (nextAfterSource t s) s))

/-- `JMP` (R199). -/
def execJmp (t : Source) (s : State) : Result := .next (jumpWhen true t s)

/-- `JA` (R192). -/
def execJa (t : Source) (s : State) : Result := .next (jumpWhen (condHolds .above s.flags) t s)

/-- `JAE` (R193). -/
def execJae (t : Source) (s : State) : Result := .next (jumpWhen (condHolds .notCarry s.flags) t s)

/-- `JC` (R194). -/
def execJc (t : Source) (s : State) : Result := .next (jumpWhen (condHolds .carry s.flags) t s)

/-- `JG` (R195). -/
def execJg (t : Source) (s : State) : Result := .next (jumpWhen (condHolds .greater s.flags) t s)

/-- `JGE` (R196). -/
def execJge (t : Source) (s : State) : Result := .next (jumpWhen (condHolds .greaterEqual s.flags) t s)

/-- `JL` (R197). -/
def execJl (t : Source) (s : State) : Result := .next (jumpWhen (condHolds .less s.flags) t s)

/-- `JLE` (R198). -/
def execJle (t : Source) (s : State) : Result := .next (jumpWhen (condHolds .lessEqual s.flags) t s)

/-- `JNA` (R200). -/
def execJna (t : Source) (s : State) : Result := .next (jumpWhen (condHolds .notAbove s.flags) t s)

/-- `JNC` (R201). -/
def execJnc (t : Source) (s : State) : Result := .next (jumpWhen (condHolds .notCarry s.flags) t s)

/-- `JNO` (R202). -/
def execJno (t : Source) (s : State) : Result := .next (jumpWhen (condHolds .notOverflow s.flags) t s)

/-- `JNS` (R203). -/
def execJns (t : Source) (s : State) : Result := .next (jumpWhen (condHolds .notSign s.flags) t s)

/-- `JNZ` (R204). -/
def execJnz (t : Source) (s : State) : Result := .next (jumpWhen (condHolds .notZero s.flags) t s)

/-- `JO` (R205). -/
def execJo (t : Source) (s : State) : Result := .next (jumpWhen (condHolds .overflow s.flags) t s)

/-- `JS` (R206). -/
def execJs (t : Source) (s : State) : Result := .next (jumpWhen (condHolds .sign s.flags) t s)

/-- `JZ` (R207). -/
def execJz (t : Source) (s : State) : Result := .next (jumpWhen (condHolds .zero s.flags) t s)

/-- `RET` without an amount (R208). -/
def execRet (s : State) : Result := .next (dropWords 1 (setIp (stackTop s) s))

/-- `RET amount` (R208): drops the return address and `amount` further words. -/
def execRetImm (amount : Word) (s : State) : Result := .next (dropWords (1 + amount) (setIp (stackTop s) s))

end Sys2Proof.Machine
end

