-- ==== Sys2Proof/Machine/DataMovement.lean ====
section
/-! DEFINITION. MOV, POP, POPF, PUSH, PUSHF, XCHG (40_data_movement.md). -/

namespace Sys2Proof.Machine

/-- `MOV` (R120). -/
def execMov (d : Place) (o : Source) (s : State) : Result :=
  .next (setIp (nextAfterBoth d o s) (writeLoc (resolve d s) (sourceValue o s) s))

/-- `POP` (R121): the destination is written first, with its address from the old `SP`, then `SP` is incremented. -/
def execPop (d : Place) (s : State) : Result :=
  .next (setIp (nextAfterPlace d s) (dropWords 1 (writeLoc (resolve d s) (stackTop s) s)))

/-- `POPF` (R122). -/
def execPopf (s : State) : Result :=
  .next (setIp (nextAfterNone s) (dropWords 1 (setFlags (flagsFromWord s.flags (stackTop s)) s)))

/-- `PUSH` (R123): the operand is read before `SP` changes. -/
def execPush (o : Source) (s : State) : Result :=
  .next (setIp (nextAfterSource o s) (push (sourceValue o s) s))

/-- `PUSHF` (R124). -/
def execPushf (s : State) : Result :=
  .next (setIp (nextAfterNone s) (push (flagsWord s.flags) s))

/-- `XCHG` (R125): both addresses and both values are taken before either write. -/
def execXchg (d o : Place) (s : State) : Result :=
  .next (setIp (nextIp (1 + d.ext.length + o.ext.length) s)
    (writeLoc (resolve o s) (placeValue d s) (writeLoc (resolve d s) (placeValue o s) s)))

end Sys2Proof.Machine
end

