-- ==== Sys2Proof/Machine/Logic.lean ====
section
/-! DEFINITION. AND, NOT, OR, TEST, XOR (42_logic.md). -/

namespace Sys2Proof.Machine

/-- `AND` (R161). -/
def execAnd (d : Place) (o : Source) (s : State) : Result :=
  .next (updateBoth d o (fun dv sv f => ⟨dv &&& sv, f.withLogic (dv &&& sv)⟩) s)

/-- `OR` (R163). -/
def execOr (d : Place) (o : Source) (s : State) : Result :=
  .next (updateBoth d o (fun dv sv f => ⟨dv ||| sv, f.withLogic (dv ||| sv)⟩) s)

/-- `XOR` (R165). -/
def execXor (d : Place) (o : Source) (s : State) : Result :=
  .next (updateBoth d o (fun dv sv f => ⟨dv ^^^ sv, f.withLogic (dv ^^^ sv)⟩) s)

/-- `TEST` (R164). -/
def execTest (d : Place) (o : Source) (s : State) : Result :=
  .next (compareBoth d o (fun dv sv f => f.withLogic (dv &&& sv)) s)

/-- `NOT` (R162): no flag is written. -/
def execNot (d : Place) (s : State) : Result :=
  .next (updateOne d (fun v f => ⟨v ^^^ 0xFFFF, f⟩) s)

end Sys2Proof.Machine
end

