-- ==== Sys2Proof/Machine/SetCc.lean ====
section
/-! DEFINITION. The 26 SETcc mnemonics (45_setcc.md R220): the word 1 or 0 by a condition, no flag written. -/

namespace Sys2Proof.Machine

/-- `SETA` (R221). -/
def execSeta (d : Place) (s : State) : Result := .next (storeCond .above d s)

/-- `SETNBE` (R221). -/
def execSetnbe (d : Place) (s : State) : Result := .next (storeCond .above d s)

/-- `SETAE` (R222). -/
def execSetae (d : Place) (s : State) : Result := .next (storeCond .notCarry d s)

/-- `SETNB` (R222). -/
def execSetnb (d : Place) (s : State) : Result := .next (storeCond .notCarry d s)

/-- `SETNC` (R222). -/
def execSetnc (d : Place) (s : State) : Result := .next (storeCond .notCarry d s)

/-- `SETBE` (R223). -/
def execSetbe (d : Place) (s : State) : Result := .next (storeCond .notAbove d s)

/-- `SETNA` (R223). -/
def execSetna (d : Place) (s : State) : Result := .next (storeCond .notAbove d s)

/-- `SETB` (R224). -/
def execSetb (d : Place) (s : State) : Result := .next (storeCond .carry d s)

/-- `SETC` (R224). -/
def execSetc (d : Place) (s : State) : Result := .next (storeCond .carry d s)

/-- `SETNAE` (R224). -/
def execSetnae (d : Place) (s : State) : Result := .next (storeCond .carry d s)

/-- `SETE` (R225). -/
def execSete (d : Place) (s : State) : Result := .next (storeCond .zero d s)

/-- `SETZ` (R225). -/
def execSetz (d : Place) (s : State) : Result := .next (storeCond .zero d s)

/-- `SETNE` (R226). -/
def execSetne (d : Place) (s : State) : Result := .next (storeCond .notZero d s)

/-- `SETNZ` (R226). -/
def execSetnz (d : Place) (s : State) : Result := .next (storeCond .notZero d s)

/-- `SETG` (R227). -/
def execSetg (d : Place) (s : State) : Result := .next (storeCond .greater d s)

/-- `SETNLE` (R227). -/
def execSetnle (d : Place) (s : State) : Result := .next (storeCond .greater d s)

/-- `SETGE` (R228). -/
def execSetge (d : Place) (s : State) : Result := .next (storeCond .greaterEqual d s)

/-- `SETNL` (R228). -/
def execSetnl (d : Place) (s : State) : Result := .next (storeCond .greaterEqual d s)

/-- `SETLE` (R229). -/
def execSetle (d : Place) (s : State) : Result := .next (storeCond .lessEqual d s)

/-- `SETNG` (R229). -/
def execSetng (d : Place) (s : State) : Result := .next (storeCond .lessEqual d s)

/-- `SETL` (R230). -/
def execSetl (d : Place) (s : State) : Result := .next (storeCond .less d s)

/-- `SETNGE` (R230). -/
def execSetnge (d : Place) (s : State) : Result := .next (storeCond .less d s)

/-- `SETS` (R231). -/
def execSets (d : Place) (s : State) : Result := .next (storeCond .sign d s)

/-- `SETNS` (R232). -/
def execSetns (d : Place) (s : State) : Result := .next (storeCond .notSign d s)

/-- `SETO` (R233). -/
def execSeto (d : Place) (s : State) : Result := .next (storeCond .overflow d s)

/-- `SETNO` (R234). -/
def execSetno (d : Place) (s : State) : Result := .next (storeCond .notOverflow d s)

end Sys2Proof.Machine
end

