-- ==== Sys2Proof/Machine/ShiftRotate.lean ====
section
/-! DEFINITION. RCL, RCR, ROL, ROR, SAL, SAR, SHL, SHR (43_shift_rotate.md). -/

namespace Sys2Proof.Machine

/-- `RCL` (R171). -/
def execRcl (d : Place) (c : Source) (s : State) : Result := .next (updateBoth d c rclBy s)

/-- `RCR` (R172). -/
def execRcr (d : Place) (c : Source) (s : State) : Result := .next (updateBoth d c rcrBy s)

/-- `ROL` (R173). -/
def execRol (d : Place) (c : Source) (s : State) : Result := .next (updateBoth d c rolBy s)

/-- `ROR` (R174). -/
def execRor (d : Place) (c : Source) (s : State) : Result := .next (updateBoth d c rorBy s)

/-- `SHL` (R177): `OF` is the sign change for count 1, open for every other non-zero count. -/
def execShl (d : Place) (c : Source) (s : State) : Result :=
  .next (shiftBoth d c (fun dv n => shiftOverflow dv (shlValue dv n) n) shlBy s)

/-- `SAL` (R175): as `SHL` in every respect. -/
def execSal (d : Place) (c : Source) (s : State) : Result :=
  .next (shiftBoth d c (fun dv n => shiftOverflow dv (shlValue dv n) n) shlBy s)

/-- `SHR` (R178): `OF` as for `SHL`. -/
def execShr (d : Place) (c : Source) (s : State) : Result :=
  .next (shiftBoth d c (fun dv n => shiftOverflow dv (shrValue dv n) n) shrBy s)

/-- `SAR` (R176): `OF` is reset when the count operand is the immediate 1, undefined otherwise. -/
def execSar (d : Place) (c : Source) (s : State) : Result :=
  .next (shiftBoth d c (fun _ _ => if c = .imm 1 then some false else none) sarBy s)

end Sys2Proof.Machine
end

