-- ==== Sys2Proof/Machine/System.lean ====
section
/-! DEFINITION. BRK, HWI, HWQ, INT, INTO, IRET, NOP (46_system.md). -/

namespace Sys2Proof.Machine

/-- `BRK` (R240): sets the break flag; the run ends (70_reset_and_hazards.md R292). -/
def execBrk (s : State) : Result :=
  .next (setIp (nextAfterNone s) (setFlags { s.flags with bf := true } s))

/-- `HWI` (R241): the device at the hardware address acts; with none there, nothing happens. No flag changes. -/
def execHwi (o : Source) (s : State) : Result :=
  match findDevice (sourceValue o s) s.devices with
  | some dev => .next (setIp (nextAfterSource o s) (deviceActs dev s))
  | none => .next (setIp (nextAfterSource o s) s)

/-- `HWQ` (R242): the hardware id of the device at the address, or 0. -/
def execHwq (o : Source) (s : State) : Result :=
  match findDevice (sourceValue o s) s.devices with
  | some dev => .next (setIp (nextAfterSource o s) (writeReg .b dev.id s))
  | none => .next (setIp (nextAfterSource o s) (writeReg .b 0 s))

/-- `INT` (R243): interrupt `n`, for `n` up to 255; a larger number is an illegal encoding (R94). -/
def execInt (n : Word) (s : State) : Result :=
  if vectorInRange n then .next (takeInterrupt n (nextIp 2 s) s)
  else illegalEncoding ((encode s.parameters.encoding (.int n)).headD 0) s

/-- `INTO` (R244): interrupt 4 when the overflow flag is set. -/
def execInto (s : State) : Result :=
  if s.flags.of then .next (takeInterrupt 4 (nextAfterNone s) s)
  else .next (setIp (nextAfterNone s) s)

/-- `IRET` (R245). -/
def execIret (s : State) : Result := .next (returnFromInterrupt s)

/-- `NOP` (R246). -/
def execNop (s : State) : Result := .next (setIp (nextAfterNone s) s)

end Sys2Proof.Machine
end

