-- ==== Sys2Proof/Machine/Dispatch.lean ====
section
/-! DEFINITION. One arm per instruction, each one call of its meaning. -/

namespace Sys2Proof.Machine

def exec (i : Instr) (s : State) : Host.Outcome State Fault Refusal :=
  match i with
  -- data movement (40_data_movement.md)
  | .mov dst src => Sys2Proof.Machine.execMov dst src s
  | .pop dst => Sys2Proof.Machine.execPop dst s
  | .popf => Sys2Proof.Machine.execPopf s
  | .push src => Sys2Proof.Machine.execPush src s
  | .pushf => Sys2Proof.Machine.execPushf s
  | .xchg dst src => Sys2Proof.Machine.execXchg dst src s
  -- arithmetic (41_arithmetic.md)
  | .add dst src => Sys2Proof.Machine.execAdd dst src s
  | .cmp dst src => Sys2Proof.Machine.execCmp dst src s
  | .dec dst => Sys2Proof.Machine.execDec dst s
  | .div src => Sys2Proof.Machine.execDiv src s
  | .inc dst => Sys2Proof.Machine.execInc dst s
  | .mul src => Sys2Proof.Machine.execMul src s
  | .neg dst => Sys2Proof.Machine.execNeg dst s
  | .sub dst src => Sys2Proof.Machine.execSub dst src s
  -- logic (42_logic.md)
  | .and dst src => Sys2Proof.Machine.execAnd dst src s
  | .not dst => Sys2Proof.Machine.execNot dst s
  | .or dst src => Sys2Proof.Machine.execOr dst src s
  | .test dst src => Sys2Proof.Machine.execTest dst src s
  | .xor dst src => Sys2Proof.Machine.execXor dst src s
  -- shifts and rotates (43_shift_rotate.md)
  | .rcl dst count => Sys2Proof.Machine.execRcl dst count s
  | .rcr dst count => Sys2Proof.Machine.execRcr dst count s
  | .rol dst count => Sys2Proof.Machine.execRol dst count s
  | .ror dst count => Sys2Proof.Machine.execRor dst count s
  | .sal dst count => Sys2Proof.Machine.execSal dst count s
  | .sar dst count => Sys2Proof.Machine.execSar dst count s
  | .shl dst count => Sys2Proof.Machine.execShl dst count s
  | .shr dst count => Sys2Proof.Machine.execShr dst count s
  -- control transfer (44_control_transfer.md)
  | .call target => Sys2Proof.Machine.execCall target s
  | .ja target => Sys2Proof.Machine.execJa target s
  | .jae target => Sys2Proof.Machine.execJae target s
  | .jc target => Sys2Proof.Machine.execJc target s
  | .jg target => Sys2Proof.Machine.execJg target s
  | .jge target => Sys2Proof.Machine.execJge target s
  | .jl target => Sys2Proof.Machine.execJl target s
  | .jle target => Sys2Proof.Machine.execJle target s
  | .jmp target => Sys2Proof.Machine.execJmp target s
  | .jna target => Sys2Proof.Machine.execJna target s
  | .jnc target => Sys2Proof.Machine.execJnc target s
  | .jno target => Sys2Proof.Machine.execJno target s
  | .jns target => Sys2Proof.Machine.execJns target s
  | .jnz target => Sys2Proof.Machine.execJnz target s
  | .jo target => Sys2Proof.Machine.execJo target s
  | .js target => Sys2Proof.Machine.execJs target s
  | .jz target => Sys2Proof.Machine.execJz target s
  | .ret => Sys2Proof.Machine.execRet s
  | .retImm amount => Sys2Proof.Machine.execRetImm amount s
  -- conditional set (45_setcc.md)
  | .seta dst => Sys2Proof.Machine.execSeta dst s
  | .setnbe dst => Sys2Proof.Machine.execSetnbe dst s
  | .setae dst => Sys2Proof.Machine.execSetae dst s
  | .setnb dst => Sys2Proof.Machine.execSetnb dst s
  | .setnc dst => Sys2Proof.Machine.execSetnc dst s
  | .setbe dst => Sys2Proof.Machine.execSetbe dst s
  | .setna dst => Sys2Proof.Machine.execSetna dst s
  | .setb dst => Sys2Proof.Machine.execSetb dst s
  | .setc dst => Sys2Proof.Machine.execSetc dst s
  | .setnae dst => Sys2Proof.Machine.execSetnae dst s
  | .sete dst => Sys2Proof.Machine.execSete dst s
  | .setz dst => Sys2Proof.Machine.execSetz dst s
  | .setne dst => Sys2Proof.Machine.execSetne dst s
  | .setnz dst => Sys2Proof.Machine.execSetnz dst s
  | .setg dst => Sys2Proof.Machine.execSetg dst s
  | .setnle dst => Sys2Proof.Machine.execSetnle dst s
  | .setge dst => Sys2Proof.Machine.execSetge dst s
  | .setnl dst => Sys2Proof.Machine.execSetnl dst s
  | .setle dst => Sys2Proof.Machine.execSetle dst s
  | .setng dst => Sys2Proof.Machine.execSetng dst s
  | .setl dst => Sys2Proof.Machine.execSetl dst s
  | .setnge dst => Sys2Proof.Machine.execSetnge dst s
  | .sets dst => Sys2Proof.Machine.execSets dst s
  | .setns dst => Sys2Proof.Machine.execSetns dst s
  | .seto dst => Sys2Proof.Machine.execSeto dst s
  | .setno dst => Sys2Proof.Machine.execSetno dst s
  -- system (46_system.md)
  | .brk => Sys2Proof.Machine.execBrk s
  | .hwi src => Sys2Proof.Machine.execHwi src s
  | .hwq src => Sys2Proof.Machine.execHwq src s
  | .int n => Sys2Proof.Machine.execInt n s
  | .into => Sys2Proof.Machine.execInto s
  | .iret => Sys2Proof.Machine.execIret s
  | .nop => Sys2Proof.Machine.execNop s

end Sys2Proof.Machine
end

