-- ==== Sys2Proof/Machine/Fetch.lean ====
section
/-! DEFINITION. Fetching an instruction (30_encoding.md R88 steps 1 to 3), and the game tick
(70_reset_and_hazards.md R290). -/

namespace Sys2Proof.Machine

/-- The words from `IP` on, as many as the longest instruction has (R80), addresses modulo 2^16 (R25).
Reading a word the instruction does not use has no effect (20_memory.md R57). -/
def fetchWords (s : State) : List Word :=
  [readRam s.ip s, readRam (s.ip + 1) s, readRam (s.ip + 2) s]

/-- The instruction at `IP`, or why there is none (R94, R100). -/
def fetch (s : State) : Except DecodeError Instr := (decode s.parameters.encoding (fetchWords s)).map Prod.fst

/-- What the step does where no instruction stands at `IP`: it refuses opcode 0x32 without the parameter that decodes it
(R100), and follows `ILLEGAL_POLICY` for an illegal encoding (R94). -/
def rejectFetched (why : DecodeError) (s : State) : Result :=
  match why with
  | .setccSelectorNotSupplied => .refused .setccSelectorNotSupplied
  | _ => illegalEncoding (readRam s.ip s) s

/-- The flags at the start of a run: `CF`, `ZF`, `SF`, `OF` are open (10_state.md R36, R291; log entry 21). -/
def drawFlags (s : State) : State :=
  { s with
    flags :=
      { s.flags with
        cf := Config.freeFlag s.drawn
        zf := Config.freeFlag (s.drawn + 1)
        sf := Config.freeFlag (s.drawn + 2)
        of := Config.freeFlag (s.drawn + 3) }
    drawn := s.drawn + 4 }

/-- `TickHost`: the four flags are open, and registers, RAM and devices are left as they were, or open too
(log entries 20 and 21). -/
def tickHost (s : State) : State :=
  match s.parameters.tickHost with
  | .keeps => drawFlags s
  | .unconstrained => hostActs (drawFlags s)

/-- The tick with a given host (R293): whatever the host does, then `BF <- 0; IP <- TEXT_START` (R290). -/
def tickWith (host : State → State) (s : State) : State :=
  let s₁ := host s
  { s₁ with flags := { s₁.flags with bf := false }, ip := s.parameters.textStart }

/-- The game tick, with the machine's `TickHost`. -/
def tick (s : State) : State := tickWith tickHost s

/-- Stores an instruction's words at `IP` and lets the machine run: what a loader and a tick have done when the
instruction is the next to be executed (70_reset_and_hazards.md R295; log entry 15). -/
def placeInstruction (ws : List Word) (s : State) : State :=
  let s₁ := storeAll ((List.range ws.length).map (fun k => (s.ip + BitVec.ofNat 16 k, ws.getD k 0))) s
  { s₁ with flags := { s₁.flags with bf := false } }

end Sys2Proof.Machine
end

