-- ==== Sys2Proof/Machine/Step.lean ====
section
/-! DEFINITION. One step of the machine: while `BF` is set the CPU executes nothing and the next event is the tick
(10_state.md R29); otherwise one instruction is fetched, decoded and executed (30_encoding.md R88). -/

namespace Sys2Proof.Machine

/-- One step (R88, R29, R290, R94, R100), with the parameters of the state. -/
def step (s : State) : Host.Outcome State Fault Refusal :=
  if s.flags.bf then .next (tick s)
  else
    match fetch s with
    | .ok i => exec i s
    | .error why => rejectFetched why s

/-- The state with the instruction whose bits are `w` (those from `nbits` up being 0) where the next step fetches. -/
def State.withFetchWord (s : State) (nbits w : Nat) : State := placeInstruction (tableWords nbits w) s

end Sys2Proof.Machine
end

