-- ==== Sys2Proof/Machine/Run.lean ====
section
/-! DEFINITION. A run: from the tick to `BRK` (70_reset_and_hazards.md R292, R293). -/

namespace Sys2Proof.Machine

/-- What the host supplies before the first run (R295, R301): the parameters, the attached devices and the loaded image,
as the words stored. -/
def hostSupplies (p : Config.Parameters) (devices : List Device) (image : List (Word × Word)) : State :=
  storeAll image { State.start p with devices := devices }

/-- The outcomes of a run (R292). -/
inductive RunOutcome where
  /-- `BF = 1`: the final state. -/
  | ended (s : State)
  /-- A model fault: no final state. -/
  | faulted (r : Fault)
  /-- A construct whose parameter is not supplied: no final state. -/
  | refused (r : Refusal)
  /-- The budget was used up before `BF = 1` (`TICK_BUDGET`, R300): no final state. -/
  | outOfBudget
  deriving DecidableEq, Repr

/-- `run` of R293 with a bound on the instructions executed. -/
def runTick : Nat → State → RunOutcome
  | budget, s =>
    if s.flags.bf then .ended s
    else
      match budget with
      | 0 => .outOfBudget
      | k + 1 =>
        match step s with
        | .next t => runTick k t
        | .fault r => .faulted r
        | .refused r => .refused r

end Sys2Proof.Machine
end

