-- ==== Sys2Proof/Safety.lean ====
section
/-! DEFINITION. The terms the claims use: the invariant of a state, what a step may leave changed, what an interrupt
entry leaves, and a safe run. -/

namespace Sys2Proof.Machine

/-- The invariant of the model's data: RAM is in its canonical form, the device map has at most one device at an
address (10_state.md R33, R34), and the encoding parameters are consistent (R21, 30_encoding.md R100). -/
def State.wf (s : State) : Bool := s.ram.wf && devicesWf s.devices && s.parameters.encoding.wf

/-- The register a resolved operand names, if it names one. -/
def Loc.regs : Loc → List Reg
  | .reg r => [r]
  | .mem _ => []

/-- The address of the RAM word a resolved operand names, if it names one. -/
def Loc.addresses : Loc → List Word
  | .reg _ => []
  | .mem a => [a]

/-- `t` holds what `s` holds in every general register but those listed, in every RAM word but those listed, and in
every device. (RAM has no unit smaller than the word: 20_memory.md R53.) Of `IP` and the flags it says nothing. -/
def OnlyChanges (regs : List Reg) (addresses : List Word) (s t : State) : Prop :=
  (∀ r, r ∉ regs → readReg r t = readReg r s) ∧
  (∀ a, a ∉ addresses → readRam a t = readRam a s) ∧
  t.devices = s.devices

/-- `t` is `s` after interrupt `n` was entered with the return address `ret` under the given frame (60_exceptions.md
R263): what was pushed and where, `SP`, `IP` from the vector table as it stands after the pushes, and nothing else. -/
def InterruptEntered (frame : Config.IntFrame) (n ret : Word) (s t : State) : Prop :=
  t.ip = readRam (s.parameters.ivtBase + n) t ∧ t.flags = s.flags ∧
  match frame with
  | .flagsAndIp =>
      readReg .sp t = readReg .sp s - 2 ∧
      readRam (readReg .sp s - 1) t = flagsWord s.flags ∧
      readRam (readReg .sp s - 2) t = ret ∧
      OnlyChanges [.sp] [readReg .sp s - 1, readReg .sp s - 2] s t
  | .ipOnly =>
      readReg .sp t = readReg .sp s - 1 ∧
      readRam (readReg .sp s - 1) t = ret ∧
      OnlyChanges [.sp] [readReg .sp s - 1] s t

/-- The addresses an interrupt entry stores to under the machine's frame (R263). -/
def interruptAddresses (s : State) : List Word :=
  match s.parameters.intFrame with
  | .flagsAndIp => [readReg .sp s - 1, readReg .sp s - 2]
  | .ipOnly => [readReg .sp s - 1]

/-- The address a push stores to (20_memory.md R66). -/
def pushAddress (s : State) : Word := readReg .sp s - 1

/-- The RAM words an instruction stores to, by the table of 20_memory.md R55. `HWI` is not in it: what a device stores
is open (46_system.md R241). -/
def storeAddresses (i : Instr) (s : State) : List Word :=
  match i with
  | .mov d _ | .add d _ | .sub d _ | .and d _ | .or d _ | .xor d _
  | .rcl d _ | .rcr d _ | .rol d _ | .ror d _ | .sal d _ | .sar d _ | .shl d _ | .shr d _
  | .inc d | .dec d | .neg d | .not d | .pop d
  | .seta d | .setnbe d | .setae d | .setnb d | .setnc d | .setbe d | .setna d | .setb d | .setc d | .setnae d
  | .sete d | .setz d | .setne d | .setnz d | .setg d | .setnle d | .setge d | .setnl d | .setle d | .setng d
  | .setl d | .setnge d | .sets d | .setns d | .seto d | .setno d => (resolve d s).addresses
  | .xchg d o => (resolve d s).addresses ++ (resolve o s).addresses
  | .push _ | .pushf | .call _ => [pushAddress s]
  | .div o => if sourceValue o s = 0 then interruptAddresses s else []
  | .int n => if vectorInRange n then interruptAddresses s else []
  | .into => if s.flags.of then interruptAddresses s else []
  | .cmp _ _ | .test _ _ | .mul _ | .hwq _ | .popf | .ret | .retImm _ | .iret | .brk | .nop
  | .jmp _ | .ja _ | .jae _ | .jc _ | .jg _ | .jge _ | .jl _ | .jle _ | .jna _ | .jnc _ | .jno _ | .jns _ | .jnz _
  | .jo _ | .js _ | .jz _ | .hwi _ => []

/-- The general registers an instruction may write: its destination, and those it uses without naming them
(10_state.md R22). `HWI` is not in it: what a device writes is open (R241). -/
def writtenRegs (i : Instr) (s : State) : List Reg :=
  match i with
  | .mov d _ | .add d _ | .sub d _ | .and d _ | .or d _ | .xor d _
  | .rcl d _ | .rcr d _ | .rol d _ | .ror d _ | .sal d _ | .sar d _ | .shl d _ | .shr d _
  | .inc d | .dec d | .neg d | .not d
  | .seta d | .setnbe d | .setae d | .setnb d | .setnc d | .setbe d | .setna d | .setb d | .setc d | .setnae d
  | .sete d | .setz d | .setne d | .setnz d | .setg d | .setnle d | .setge d | .setnl d | .setle d | .setng d
  | .setl d | .setnge d | .sets d | .setns d | .seto d | .setno d => (resolve d s).regs
  | .pop d => .sp :: (resolve d s).regs
  | .xchg d o => (resolve d s).regs ++ (resolve o s).regs
  | .push _ | .pushf | .popf | .call _ | .ret | .retImm _ | .iret => [.sp]
  | .int n => if vectorInRange n then [.sp] else []
  | .into => if s.flags.of then [.sp] else []
  | .mul _ => [.a, .y]
  | .div o => if sourceValue o s = 0 then [.sp] else [.a, .y]
  | .hwq _ => [.b]
  | .cmp _ _ | .test _ _ | .brk | .nop
  | .jmp _ | .ja _ | .jae _ | .jc _ | .jg _ | .jge _ | .jl _ | .jle _ | .jna _ | .jnc _ | .jno _ | .jns _ | .jnz _
  | .jo _ | .js _ | .jz _ | .hwi _ => []

/-- The instructions whose flags column in 30_encoding.md R90 is `- - - - -`. -/
def writesNoFlag : Instr → Bool
  | .brk | .add _ _ | .sub _ _ | .cmp _ _ | .and _ _ | .or _ _ | .xor _ _ | .test _ _
  | .shl _ _ | .sal _ _ | .shr _ _ | .sar _ _ | .rol _ _ | .ror _ _ | .rcl _ _ | .rcr _ _
  | .mul _ | .neg _ | .inc _ | .dec _ | .popf | .iret => false
  | _ => true

/-- A signed result outside -32768 to 32767 (41_arithmetic.md R140, R141). -/
def outsideSigned16 (z : Int) : Bool := decide (z < -32768 ∨ 32767 < z)

/-- One step of `RCL` (43_shift_rotate.md R171): `((dv << 1) | CF) mod 2^16`, and `dv[15]` into `CF`. -/
def rclStep (v : Word × Bool) : Word × Bool := (BitVec.ofNat 16 (v.1.toNat * 2 + v.2.toNat), v.1.bit 15)

/-- One step of `RCR` (R172): `(CF << 15) | (dv >> 1)`, and `dv[0]` into `CF`. -/
def rcrStep (v : Word × Bool) : Word × Bool := (BitVec.ofNat 16 (v.2.toNat * 32768 + v.1.toNat / 2), v.1.bit 0)

/-- `next` of R7: the address of the word after the last word of an instruction. -/
def nextOf (i : Instr) (s : State) : Word := nextIp (i.length s.parameters.encoding) s

/-- Executing `i` jumps to the value of `t` when `p` holds and goes on to the next instruction when it does not, with no
other change (44_control_transfer.md R190). -/
def JumpsIf (p : Bool) (i : Instr) (t : Source) (s : State) : Prop :=
  ∃ u, exec i s = .next u ∧ u.ip = (if p then sourceValue t s else nextOf i s) ∧ u.flags = s.flags ∧
    OnlyChanges [] [] s u

/-- Executing `i` stores the word 1 in `d` when `p` holds and the word 0 when it does not, with no other change but `IP`
(45_setcc.md R220). -/
def StoresIf (p : Bool) (i : Instr) (d : Place) (s : State) : Prop :=
  ∃ t, exec i s = .next t ∧ readLoc (resolve d s) t = (if p then 1 else 0) ∧ t.flags = s.flags ∧
    t.ip = nextOf i s ∧ OnlyChanges (resolve d s).regs (resolve d s).addresses s t

/-- The state with another value of the break flag. -/
def setBreak (b : Bool) (s : State) : State := setFlags { s.flags with bf := b } s

/-- A run within the budget is safe when it does not stop at an illegal encoding (30_encoding.md R94, R292). -/
def SafeRun (budget : Nat) (s : State) : Prop := ∀ r, runTick budget s ≠ .faulted r

end Sys2Proof.Machine
end

