-- ==== Sys2Proof/Certificates/Slice0/Obligations.lean ====
section
/-! DEFINITION. The statements for the provers. `readLoc (resolve d s)` is what an operand place holds, its address taken
with the registers of `s` (30_encoding.md R87, R88); `nextOf i s` is `next` (00_scope.md R7);
`OnlyChanges rs as s t` is the frame. RAM is read by the word, the machine's smallest unit (20_memory.md R53).
A statement about every state is about every value of the parameters of 00_scope.md R5, which `s.parameters` holds (log
entry 35); `e.wf` says that encoding parameters are consistent. -/

open Sys2Proof Sys2Proof.Machine

/-! ## Encoding (30_encoding.md) -/

/-- Under every consistent value of the encoding parameters, the words of an instruction that has words, whatever follows
them, decode to it (to the instruction it names, for an aliased mnemonic), and what follows is left. -/
def Obligations.DecodeOfEncodeIsTheInstruction : Prop :=
  ∀ (e : Config.Encoding) (i : Instr) (rest : List Word), e.wf = true → i.encodable e = true →
    decode e (encode e i ++ rest) = .ok (i.canonical, rest)

/-- Under every consistent value of the encoding parameters, words that decode are the words of the instruction they decode
to, which is well formed and no alias: each word has one meaning, and no bit of an encoding is dropped. -/
def Obligations.EncodeOfDecodeIsTheWords : Prop :=
  ∀ (e : Config.Encoding) (ws : List Word) (i : Instr) (rest : List Word), e.wf = true →
    decode e ws = .ok (i, rest) → i.encodable e = true ∧ i.canonical = i ∧ ws = encode e i ++ rest

/-- The worked encodings of 30_encoding.md section 9, under the default parameters (log entries 1 to 4). -/
def Obligations.WorkedEncodingsDecode : Prop :=
  decode defaultEncoding [0xF841, 0x0020] = .ok (.mov (.reg .a) (.imm 0x20), []) ∧
  decode defaultEncoding [0xF781, 0x0200, 0x0100] = .ok (.mov (.abs 0x0100) (.place (.abs 0x0200)), []) ∧
  decode defaultEncoding [0x5882] = .ok (.add (.reg .b) (.place (.ind .c)), []) ∧
  decode defaultEncoding [0x2E01, 0x0002] = .ok (.mov (.idx .bp 2) (.place (.reg .x)), []) ∧
  decode defaultEncoding [0x082A] = .ok (.inc (.reg .a), []) ∧
  decode defaultEncoding [0xF80A, 0x0200] = .ok (.jmp (.imm 0x0200), []) ∧
  decode defaultEncoding [0xB813, 0x0001] = .ok (.push (.place (.idx .sp 1)), []) ∧
  decode defaultEncoding [0x0016] = .ok (.ret, []) ∧
  decode defaultEncoding [0xF816, 0x0002] = .ok (.retImm 2, []) ∧
  decode defaultEncoding [0xF830, 0x0003] = .ok (.int 3, []) ∧
  decode defaultEncoding [0x0000] = .ok (.brk, []) ∧
  decode defaultEncoding [0x003F] = .ok (.nop, []) ∧
  decode defaultEncoding [0xF8B2, 0x0005] = .ok (.sete (.reg .b), [])

/-- R85: an instruction's length is one, and one more for each selector that needs an extension word; it is 1 to 3,
fixed by the first word, and exactly that many words are taken; under every consistent value of the parameters. -/
def Obligations.LengthIsFixedByTheFirstWord : Prop :=
  ∀ (e : Config.Encoding) (w0 : Word) (ws : List Word) (i : Instr) (rest : List Word), e.wf = true →
    decode e (w0 :: ws) = .ok (i, rest) →
    i.length e =
      1 + (if needsWord (sourceField w0) then 1 else 0) + (if needsWord (destinationField w0) then 1 else 0) ∧
    1 ≤ i.length e ∧ i.length e ≤ 3 ∧ (w0 :: ws).length = i.length e + rest.length

/-- R92: a first word whose opcode is 30 or 51 to 62 encodes no instruction, whatever the parameters; every other opcode
has one. -/
def Obligations.UnassignedOpcodesEncodeNothing : Prop :=
  (∀ (e : Config.Encoding) (w0 : Word) (ws : List Word) (r : Instr × List Word),
    opcodeField w0 = 30 ∨ (51 ≤ opcodeField w0 ∧ opcodeField w0 ≤ 62) → decode e (w0 :: ws) ≠ .ok r) ∧
  (∀ opc : Nat, opc < 64 → opc ≠ 30 → ¬ (51 ≤ opc ∧ opc ≤ 62) → ∃ i : Instr, i.parts.1 = opc)

/-- An alias has the same encoding and the same meaning as the instruction it names (30_encoding.md R91, 45_setcc.md R220).
Which `SETcc` mnemonics name one condition is the spec's own reconstruction (its decisions D19 and D20; log entry 4), and
that the first of a row is the one named is the model's choice (log entry 32). -/
def Obligations.AliasesAreTheInstructionTheyName : Prop :=
  (∀ (e : Config.Encoding) (i : Instr), encode e i.canonical = encode e i) ∧
  (∀ (i : Instr) (s : State), exec i.canonical s = exec i s) ∧
  (∀ t, (Instr.jae t).canonical = .jnc t) ∧ (∀ d c, (Instr.sal d c).canonical = .shl d c) ∧
  (∀ d, (Instr.setnbe d).canonical = .seta d) ∧ (∀ d, (Instr.setnb d).canonical = .setae d) ∧
  (∀ d, (Instr.setnc d).canonical = .setae d) ∧ (∀ d, (Instr.setna d).canonical = .setbe d) ∧
  (∀ d, (Instr.setc d).canonical = .setb d) ∧ (∀ d, (Instr.setnae d).canonical = .setb d) ∧
  (∀ d, (Instr.setz d).canonical = .sete d) ∧ (∀ d, (Instr.setnz d).canonical = .setne d) ∧
  (∀ d, (Instr.setnle d).canonical = .setg d) ∧ (∀ d, (Instr.setnl d).canonical = .setge d) ∧
  (∀ d, (Instr.setng d).canonical = .setle d) ∧ (∀ d, (Instr.setnge d).canonical = .setl d)

/-! ## The step -/

/-- When the words at `IP` decode to an instruction and the break flag is clear, the step is that instruction's meaning,
with nothing added. -/
def Obligations.StepExecutesTheDecodedInstruction : Prop :=
  ∀ (s : State) (i : Instr) (rest : List Word), s.flags.bf = false →
    decode s.parameters.encoding (fetchWords s) = .ok (i, rest) →
    step s = exec i s

/-- When RAM from `IP` on (addresses modulo 2^16) holds the words of an instruction under the machine's own encoding
parameters, and the break flag is clear, the step is that instruction's meaning. -/
def Obligations.StepExecutesTheStoredInstruction : Prop :=
  ∀ (s : State) (i : Instr), s.flags.bf = false → s.parameters.encoding.wf = true →
    i.encodable s.parameters.encoding = true →
    (∀ (k : Nat) (w : Word), (encode s.parameters.encoding i)[k]? = some w → readRam (s.ip + BitVec.ofNat 16 k) s = w) →
    step s = exec i s

/-- With the break flag clear, a step has a next state where an instruction's words stand at `IP`, under every consistent
value of the encoding parameters; where none do, it follows `ILLEGAL_POLICY`: with `fault` the fault that names the first
word, with `nop` nothing but `IP` moves, by the length its selectors give (30_encoding.md R94, 60_exceptions.md R260, R274;
the spec's decision D7; log entry 5), save that opcode 0x32 is refused where `SETCC_SELECTOR` is not supplied (R100).
No step of any state stops for another reason. -/
def Obligations.StepFaultsExactlyOnIllegalWords : Prop :=
  (∀ s : State, s.flags.bf = false → s.parameters.encoding.wf = true →
    (let e := s.parameters.encoding
     let w0 := readRam s.ip s
     let legal := ∃ (i : Instr) (rest : List Word), i.encodable e = true ∧ fetchWords s = encode e i ++ rest
     (legal → ∃ t, step s = .next t) ∧
     (¬ legal →
       if opcodeField w0 = 0x32 ∧ e.setccSelector = none then step s = .refused .setccSelectorNotSupplied
       else
         match s.parameters.illegalPolicy with
         | .fault => step s = .fault (.illegalInstruction w0)
         | .nop => step s = .next (setIp (nextIp (wordCount w0) s) s)))) ∧
  (∀ (s : State) (f : Fault), step s = .fault f →
    f = .illegalInstruction (readRam s.ip s) ∧ s.parameters.illegalPolicy = .fault ∧ s.flags.bf = false) ∧
  (∀ (s : State) (r : Refusal), step s = .refused r →
    r = .setccSelectorNotSupplied ∧ s.parameters.encoding.setccSelector = none ∧ opcodeField (readRam s.ip s) = 0x32 ∧
      s.flags.bf = false)

/-- A state with the break flag set: the step is the tick, which clears the flag and sets `IP` to `TEXT_START`; with the
`TickHost` that keeps what it finds, registers, RAM and devices stay (log entry 20, the model's choice); whatever the host
does between two runs, a tick clears the flag and sets `IP` and leaves the rest as the host left it. -/
def Obligations.TickRestartsTheProgram : Prop :=
  (∀ s : State, s.flags.bf = true →
    ∃ t, step s = .next t ∧ t.flags.bf = false ∧ t.ip = s.parameters.textStart ∧
      (s.parameters.tickHost = .keeps → t.regs = s.regs ∧ t.ram = s.ram ∧ t.devices = s.devices)) ∧
  (∀ (host : State → State) (s : State),
    tickWith host s = { host s with flags := { (host s).flags with bf := false }, ip := s.parameters.textStart })

/-- While `BF` is set the CPU executes nothing (10_state.md R29); that the step is then the tick, which clears it, is the
model's choice (log entry 20). Only `BRK` sets it (the spec's reading of a conflict, 90_conflicts.md C1; log entry 31) and no
instruction clears it; and no instruction but `BRK`, whose own effect is `Obligations.BrkSetsTheBreakFlag`, has an effect
that depends on it. -/
def Obligations.BreakFlagIsSetByBrkAndClearedByTheTick : Prop :=
  (∀ s : State, s.flags.bf = true → step s = .next (tick s) ∧ (tick s).flags.bf = false) ∧
  (∀ (i : Instr) (s t : State), exec i s = .next t → t.flags.bf = (s.flags.bf || decide (i = .brk))) ∧
  (∀ (i : Instr) (b : Bool) (s t : State), i ≠ .brk → exec i s = .next t →
    exec i (setBreak b s) = .next (setBreak b t))

/-- Every step keeps RAM in its canonical form, the device map a partial map, and the encoding parameters consistent. -/
def Obligations.StepKeepsTheCanonicalForm : Prop :=
  ∀ s t : State, s.wf = true → step s = .next t → t.wf = true

/-- A start with consistent encoding parameters has the invariant, and the state after reset has it. -/
def Obligations.ResetIsCanonical : Prop :=
  (∀ p : Config.Parameters, p.encoding.wf = true → (State.start p).wf = true) ∧ State.reset.wf = true

/-- The state before the first instruction, with any parameters: `IP` at `TEXT_START` and `BF` clear, and `SP` at
`SP_RESET`, as 10_state.md R36 says; the other values are the model's choices (log entries 12 to 14 and 16).
The state after reset is that with the defaults of 00_scope.md R5 (log entries 1 to 5, 7, 8, 10, 11 and 20). -/
def Obligations.ResetState : Prop :=
  (∀ p : Config.Parameters,
    (State.start p).ip = p.textStart ∧ (State.start p).flags.bf = false ∧ readReg .sp (State.start p) = p.spReset ∧
    (∀ r : Reg, r ≠ .sp → readReg r (State.start p) = 0) ∧ (∀ a : Word, readRam a (State.start p) = 0) ∧
    (State.start p).devices = [] ∧ (State.start p).parameters = p ∧
    (State.start p).flags.cf = false ∧ (State.start p).flags.zf = false ∧ (State.start p).flags.sf = false ∧
    (State.start p).flags.of = false) ∧
  State.reset = State.start defaultParameters ∧
  Reg.all.map defaultParameters.encoding.regNumber = [1, 2, 3, 4, 5, 6, 7, 8] ∧
  Reg.all = [.a, .b, .c, .d, .x, .y, .sp, .bp] ∧
  defaultParameters.encoding.singleOperandField = .source ∧ defaultParameters.encoding.extWordOrder = .sourceFirst ∧
  (∀ c : Cond, (defaultParameters.encoding.setccCode c).1 = 31) ∧ defaultParameters.illegalPolicy = .fault ∧
  defaultParameters.ivtBase = 0x0000 ∧ defaultParameters.intFrame = .flagsAndIp ∧
  defaultParameters.textStart = 0x0200 ∧ defaultParameters.spReset = 0x0000 ∧ defaultParameters.tickHost = .keeps

/-- RAM in canonical form is the same data exactly when every word reads the same. -/
def Obligations.CanonicalMemoriesWithEqualWordsAreEqual : Prop :=
  ∀ m m' : Memory, m.wf = true → m'.wf = true → (∀ a : Word, m.read a = m'.read a) → m = m'

/-- No step attaches or detaches a device or changes an id, and no instruction but `HWI` changes a device
(10_state.md R34, 20_memory.md R51). That the tick attaches and detaches none is the model's choice: 10_state.md R36 leaves
what the host does between two runs open (log entry 20). -/
def Obligations.AttachedDevicesNeverChange : Prop :=
  (∀ s t : State, step s = .next t →
    t.devices.map (fun d => (d.address, d.id)) = s.devices.map (fun d => (d.address, d.id))) ∧
  (∀ (i : Instr) (s t : State), (∀ o, i ≠ .hwi o) → exec i s = .next t → t.devices = s.devices)

/-- Every instruction but `HWI` changes no register, no RAM word and no device but those its rule names
(10_state.md R22, 20_memory.md R55). -/
def Obligations.EveryInstructionChangesOnlyWhatItsRuleNames : Prop :=
  ∀ (i : Instr) (s t : State), (∀ o, i ≠ .hwi o) → exec i s = .next t →
    OnlyChanges (writtenRegs i s) (storeAddresses i s) s t

/-- An instruction whose flags column in 30_encoding.md R90 is `- - - - -` leaves all five flags as they were. -/
def Obligations.FlaglessInstructionsKeepEveryFlag : Prop :=
  ∀ (i : Instr) (s t : State), writesNoFlag i = true → exec i s = .next t → t.flags = s.flags

/-! ## Data movement (40_data_movement.md) -/

/-- R120: the source's word goes to the destination, whose address is taken with the old registers. -/
def Obligations.MovCopiesTheSource : Prop :=
  ∀ (d : Place) (o : Source) (s : State), (Instr.mov d o).parts = (0x01, .ds d o) ∧
    ∃ t, exec (.mov d o) s = .next t ∧ readLoc (resolve d s) t = sourceValue o s ∧ t.flags = s.flags ∧
      t.ip = nextOf (.mov d o) s ∧ OnlyChanges (resolve d s).regs (resolve d s).addresses s t

/-- R121: the top of the stack goes to the destination, its address taken with the old `SP`, and then `SP` is
incremented, so that `POP SP` leaves the popped word plus one (the spec's decision D46; log entry 25). -/
def Obligations.PopWritesThenIncrements : Prop :=
  ∀ (d : Place) (s : State), (Instr.pop d).parts = (0x14, .s1 (.place d)) ∧
    ∃ t, exec (.pop d) s = .next t ∧ t.flags = s.flags ∧ t.ip = nextOf (.pop d) s ∧
      (if resolve d s = .reg .sp then readReg .sp t = stackTop s + 1
        else readLoc (resolve d s) t = stackTop s ∧ readReg .sp t = readReg .sp s + 1) ∧
      OnlyChanges (.sp :: (resolve d s).regs) (resolve d s).addresses s t

/-- R122: the four low bits of the word on top of the stack become the flags, the upper twelve are ignored and `BF` is kept
(the spec's decision D37; log entry 34). -/
def Obligations.PopfSetsTheFourFlags : Prop :=
  ∀ s : State, Instr.popf.parts = (0x2C, .n0) ∧
    ∃ t, exec .popf s = .next t ∧ t.flags.sf = (stackTop s).bit 3 ∧ t.flags.zf = (stackTop s).bit 2 ∧
      t.flags.cf = (stackTop s).bit 1 ∧ t.flags.of = (stackTop s).bit 0 ∧ t.flags.bf = s.flags.bf ∧
      readReg .sp t = readReg .sp s + 1 ∧ t.ip = nextOf .popf s ∧ OnlyChanges [.sp] [] s t

/-- R123: `SP` is decremented and the operand, read before that, is stored where it points (the spec's decision D11;
log entry 25). -/
def Obligations.PushStoresBelowTheStack : Prop :=
  ∀ (o : Source) (s : State), (Instr.push o).parts = (0x13, .s1 o) ∧
    ∃ t, exec (.push o) s = .next t ∧ readReg .sp t = readReg .sp s - 1 ∧ readRam (pushAddress s) t = sourceValue o s ∧
      t.flags = s.flags ∧ t.ip = nextOf (.push o) s ∧ OnlyChanges [.sp] [pushAddress s] s t

/-- R124: the word `SF ZF CF OF`, upper bits zero, is pushed (the spec's decision D37; log entry 34). -/
def Obligations.PushfStoresTheFlagsWord : Prop :=
  ∀ s : State, Instr.pushf.parts = (0x2D, .n0) ∧
    ∃ t, exec .pushf s = .next t ∧ readReg .sp t = readReg .sp s - 1 ∧
      readRam (pushAddress s) t =
        BitVec.ofNat 16 (8 * s.flags.sf.toNat + 4 * s.flags.zf.toNat + 2 * s.flags.cf.toNat + s.flags.of.toNat) ∧
      t.flags = s.flags ∧ t.ip = nextOf .pushf s ∧ OnlyChanges [.sp] [pushAddress s] s t

/-- R125: each operand ends with what the other held, both addresses taken with the old registers; where the two are the
same place, nothing changes. -/
def Obligations.XchgSwitchesTheOperands : Prop :=
  ∀ (d o : Place) (s : State), (Instr.xchg d o).parts = (0x1F, .ds d (.place o)) ∧
    ∃ t, exec (.xchg d o) s = .next t ∧ readLoc (resolve d s) t = placeValue o s ∧
      readLoc (resolve o s) t = placeValue d s ∧ t.flags = s.flags ∧ t.ip = nextOf (.xchg d o) s ∧
      OnlyChanges ((resolve d s).regs ++ (resolve o s).regs) ((resolve d s).addresses ++ (resolve o s).addresses) s t

/-! ## Arithmetic (41_arithmetic.md) -/

/-- R142 with the flags of R140: the carry is the unsigned one, the overflow says the signed sum does not fit (the spec's
decision D13; log entry 29). -/
def Obligations.AddStoresTheSumAndItsFlags : Prop :=
  ∀ (d : Place) (o : Source) (s : State),
    ∃ t, exec (.add d o) s = .next t ∧ readLoc (resolve d s) t = placeValue d s + sourceValue o s ∧
      t.flags.cf = decide (65536 ≤ (placeValue d s).toNat + (sourceValue o s).toNat) ∧
      t.flags.zf = decide (placeValue d s + sourceValue o s = 0) ∧
      t.flags.sf = decide ((placeValue d s + sourceValue o s).toInt < 0) ∧
      t.flags.of = outsideSigned16 ((placeValue d s).toInt + (sourceValue o s).toInt) ∧
      t.flags.bf = s.flags.bf ∧ t.ip = nextOf (.add d o) s ∧
      OnlyChanges (resolve d s).regs (resolve d s).addresses s t

/-- R149 with the flags of R141: the carry is the borrow, the overflow says the signed difference does not fit (D13; log
entry 29). -/
def Obligations.SubStoresTheDifferenceAndItsFlags : Prop :=
  ∀ (d : Place) (o : Source) (s : State),
    ∃ t, exec (.sub d o) s = .next t ∧ readLoc (resolve d s) t = placeValue d s - sourceValue o s ∧
      t.flags.cf = decide ((placeValue d s).toNat < (sourceValue o s).toNat) ∧
      t.flags.zf = decide (placeValue d s = sourceValue o s) ∧
      t.flags.sf = decide ((placeValue d s - sourceValue o s).toInt < 0) ∧
      t.flags.of = outsideSigned16 ((placeValue d s).toInt - (sourceValue o s).toInt) ∧
      t.flags.bf = s.flags.bf ∧ t.ip = nextOf (.sub d o) s ∧
      OnlyChanges (resolve d s).regs (resolve d s).addresses s t

/-- R143 with the flags of R141: as `SUB`, with no operand written (D13; log entry 29); `SF != OF` exactly when the
destination is less, signed. -/
def Obligations.CmpSetsTheFlagsOfTheDifference : Prop :=
  ∀ (d : Place) (o : Source) (s : State),
    ∃ t, exec (.cmp d o) s = .next t ∧
      t.flags.cf = decide ((placeValue d s).toNat < (sourceValue o s).toNat) ∧
      t.flags.zf = decide (placeValue d s = sourceValue o s) ∧
      t.flags.sf = decide ((placeValue d s - sourceValue o s).toInt < 0) ∧
      t.flags.of = outsideSigned16 ((placeValue d s).toInt - (sourceValue o s).toInt) ∧
      (t.flags.sf != t.flags.of) = decide ((placeValue d s).toInt < (sourceValue o s).toInt) ∧
      t.flags.bf = s.flags.bf ∧ t.ip = nextOf (.cmp d o) s ∧ OnlyChanges [] [] s t

/-- R146 and R144: one is added or subtracted, `ZF`, `SF` and `OF` follow, `CF` is unchanged (D13; log entry 29). -/
def Obligations.IncAndDecKeepTheCarry : Prop :=
  (∀ (d : Place) (s : State), ∃ t, exec (.inc d) s = .next t ∧ readLoc (resolve d s) t = placeValue d s + 1 ∧
    t.flags.cf = s.flags.cf ∧ t.flags.zf = decide (placeValue d s + 1 = 0) ∧
    t.flags.sf = decide ((placeValue d s + 1).toInt < 0) ∧ t.flags.of = outsideSigned16 ((placeValue d s).toInt + 1) ∧
    t.flags.bf = s.flags.bf ∧ t.ip = nextOf (.inc d) s ∧
    OnlyChanges (resolve d s).regs (resolve d s).addresses s t) ∧
  (∀ (d : Place) (s : State), ∃ t, exec (.dec d) s = .next t ∧ readLoc (resolve d s) t = placeValue d s - 1 ∧
    t.flags.cf = s.flags.cf ∧ t.flags.zf = decide (placeValue d s = 1) ∧
    t.flags.sf = decide ((placeValue d s - 1).toInt < 0) ∧ t.flags.of = outsideSigned16 ((placeValue d s).toInt - 1) ∧
    t.flags.bf = s.flags.bf ∧ t.ip = nextOf (.dec d) s ∧
    OnlyChanges (resolve d s).regs (resolve d s).addresses s t)

/-- R148: the two's complement; `CF` is set unless the operand is 0, `OF` for 0x8000 alone (D14; log entry 29). -/
def Obligations.NegStoresTheTwosComplement : Prop :=
  ∀ (d : Place) (s : State),
    ∃ t, exec (.neg d) s = .next t ∧ readLoc (resolve d s) t = 0 - placeValue d s ∧
      t.flags.cf = decide (placeValue d s ≠ 0) ∧ t.flags.zf = decide (placeValue d s = 0) ∧
      t.flags.sf = decide ((0 - placeValue d s).toInt < 0) ∧ t.flags.of = decide (placeValue d s = 0x8000) ∧
      t.flags.bf = s.flags.bf ∧ t.ip = nextOf (.neg d) s ∧
      OnlyChanges (resolve d s).regs (resolve d s).addresses s t

/-- R147: the low word of the product to `A`; the high word to `Y` when it is not 0, `Y` unchanged when it is
(90_conflicts.md C3; log entry 28); `CF` and `OF` tell which; `ZF`, `SF` unchanged. The operand is read first (D27). -/
def Obligations.MulWritesTheProductToYA : Prop :=
  ∀ (o : Source) (s : State),
    ∃ t, exec (.mul o) s = .next t ∧
      (let product := (readReg .a s).toNat * (sourceValue o s).toNat
       (readReg .a t).toNat = product % 65536 ∧
       (if product / 65536 = 0 then
          readReg .y t = readReg .y s ∧ t.flags = { s.flags with cf := false, of := false }
        else (readReg .y t).toNat = product / 65536 ∧ t.flags = { s.flags with cf := true, of := true })) ∧
      t.ip = nextOf (.mul o) s ∧ OnlyChanges [.a, .y] [] s t

/-- R145 and R261: a zero divisor enters interrupt 0 with the address of the next instruction and changes neither `A` nor
`Y` nor a flag (D25; log entry 9); otherwise the quotient's low 16 bits go to `A` (D26; log entry 28) and the remainder,
which is less than the divisor, to `Y`. -/
def Obligations.DivDividesYAOrEntersInterruptZero : Prop :=
  ∀ (o : Source) (s : State),
    ∃ t, exec (.div o) s = .next t ∧ t.flags = s.flags ∧
      (if sourceValue o s = 0 then InterruptEntered s.parameters.intFrame 0 (nextOf (.div o) s) s t
       else
        (let dividend := (readReg .y s).toNat * 65536 + (readReg .a s).toNat
         let divisor := (sourceValue o s).toNat
         (readReg .a t).toNat = dividend / divisor % 65536 ∧ (readReg .y t).toNat = dividend % divisor) ∧
        t.ip = nextOf (.div o) s ∧ OnlyChanges [.a, .y] [] s t)

/-! ## Logic (42_logic.md) -/

/-- R161, R163 and R165 with the flags of R160. -/
def Obligations.AndOrXorStoreTheBitwiseResult : Prop :=
  ∀ (d : Place) (o : Source) (s : State),
    (Instr.and d o).parts = (0x04, .ds d o) ∧ (Instr.or d o).parts = (0x05, .ds d o) ∧
    (Instr.xor d o).parts = (0x26, .ds d o) ∧
    ∀ (i : Instr) (r : Word),
      (i = .and d o ∧ r = placeValue d s &&& sourceValue o s) ∨ (i = .or d o ∧ r = placeValue d s ||| sourceValue o s) ∨
        (i = .xor d o ∧ r = placeValue d s ^^^ sourceValue o s) →
      ∃ t, exec i s = .next t ∧ readLoc (resolve d s) t = r ∧
        t.flags = { cf := false, zf := decide (r = 0), sf := r.bit 15, of := false, bf := s.flags.bf } ∧
        t.ip = nextOf i s ∧ OnlyChanges (resolve d s).regs (resolve d s).addresses s t

/-- R164 with the flags of R160: as `AND`, with no operand written. -/
def Obligations.TestSetsTheFlagsOfTheAnd : Prop :=
  ∀ (d : Place) (o : Source) (s : State), (Instr.test d o).parts = (0x0B, .ds d o) ∧
    ∃ t, exec (.test d o) s = .next t ∧
      (let r := placeValue d s &&& sourceValue o s
       t.flags = { cf := false, zf := decide (r = 0), sf := r.bit 15, of := false, bf := s.flags.bf }) ∧
      t.ip = nextOf (.test d o) s ∧ OnlyChanges [] [] s t

/-- R162: every bit is inverted, and no flag is written. -/
def Obligations.NotInvertsEachBit : Prop :=
  ∀ (d : Place) (s : State), (Instr.not d).parts = (0x1D, .s1 (.place d)) ∧
    ∃ t, exec (.not d) s = .next t ∧
      (∀ k, k < 16 → (readLoc (resolve d s) t).bit k = !(placeValue d s).bit k) ∧ t.flags = s.flags ∧
      t.ip = nextOf (.not d) s ∧ OnlyChanges (resolve d s).regs (resolve d s).addresses s t

/-! ## Shifts and rotates (43_shift_rotate.md) -/

/-- R173: bit `k` goes to bit `k + c` modulo 16, with `c` the count modulo 16; `CF` is bit 0 of the result; `OF` is
written, with the sign change, when `c` is 1 (the spec's decision D17; log entry 27). -/
def Obligations.RolRotatesLeft : Prop :=
  ∀ (d : Place) (c : Source) (s : State),
    ∃ t, exec (.rol d c) s = .next t ∧
      (let n := (sourceValue c s).toNat % 16
       let r := readLoc (resolve d s) t
       (∀ k, k < 16 → r.bit ((k + n) % 16) = (placeValue d s).bit k) ∧
       t.flags = { s.flags with cf := r.bit 0, of := if n = 1 then signChanged (placeValue d s) r else s.flags.of }) ∧
      t.ip = nextOf (.rol d c) s ∧ OnlyChanges (resolve d s).regs (resolve d s).addresses s t

/-- R174: bit `k + c` modulo 16 goes to bit `k`, with `c` the count modulo 16; `CF` is bit 15 of the result; `OF` as for
`ROL` (D17; log entry 27). -/
def Obligations.RorRotatesRight : Prop :=
  ∀ (d : Place) (c : Source) (s : State),
    ∃ t, exec (.ror d c) s = .next t ∧
      (let n := (sourceValue c s).toNat % 16
       let r := readLoc (resolve d s) t
       (∀ k, k < 16 → r.bit k = (placeValue d s).bit ((k + n) % 16)) ∧
       t.flags = { s.flags with cf := r.bit 15, of := if n = 1 then signChanged (placeValue d s) r else s.flags.of }) ∧
      t.ip = nextOf (.ror d c) s ∧ OnlyChanges (resolve d s).regs (resolve d s).addresses s t

/-- R171: the destination and `CF` are what the one-bit rotation through carry gives when repeated as many times as the
whole count says (the reduction modulo 17 loses nothing, 90_conflicts.md C16); `OF` is written, with the sign change, when
the count modulo 17 is 1; `ZF`, `SF` unchanged (D17; log entry 27). -/
def Obligations.RclRepeatsTheOneBitRotation : Prop :=
  ∀ (d : Place) (c : Source) (s : State),
    ∃ t, exec (.rcl d c) s = .next t ∧
      (readLoc (resolve d s) t, t.flags.cf) = rclStep^[(sourceValue c s).toNat] (placeValue d s, s.flags.cf) ∧
      t.flags = { s.flags with
        cf := t.flags.cf
        of := if (sourceValue c s).toNat % 17 = 1 then signChanged (placeValue d s) (readLoc (resolve d s) t)
          else s.flags.of } ∧
      t.ip = nextOf (.rcl d c) s ∧ OnlyChanges (resolve d s).regs (resolve d s).addresses s t

/-- R172: as `RCL`, to the right (D17; log entry 27). -/
def Obligations.RcrRepeatsTheOneBitRotation : Prop :=
  ∀ (d : Place) (c : Source) (s : State),
    ∃ t, exec (.rcr d c) s = .next t ∧
      (readLoc (resolve d s) t, t.flags.cf) = rcrStep^[(sourceValue c s).toNat] (placeValue d s, s.flags.cf) ∧
      t.flags = { s.flags with
        cf := t.flags.cf
        of := if (sourceValue c s).toNat % 17 = 1 then signChanged (placeValue d s) (readLoc (resolve d s) t)
          else s.flags.of } ∧
      t.ip = nextOf (.rcr d c) s ∧ OnlyChanges (resolve d s).regs (resolve d s).addresses s t

/-- R177 and R175: by the full count `n`; `n = 0` changes nothing but `IP`; otherwise the value is the destination times
2^n modulo 2^16, `CF` the last bit shifted out, `ZF` and `SF` from the result (90_conflicts.md C4), `OF` the sign change for
`n = 1`, and for other counts open, so nothing is said of it (D15; log entries 19 and 26). -/
def Obligations.ShlAndSalShiftLeft : Prop :=
  ∀ (d : Place) (c : Source) (s : State) (i : Instr), i = .shl d c ∨ i = .sal d c →
    ∃ t, exec i s = .next t ∧ t.ip = nextOf i s ∧
      OnlyChanges (resolve d s).regs (resolve d s).addresses s t ∧
      (let n := (sourceValue c s).toNat
       let old := placeValue d s
       let r := readLoc (resolve d s) t
       r = BitVec.ofNat 16 (old.toNat * 2 ^ n) ∧
       (if n = 0 then t.flags = s.flags
        else t.flags.cf = (decide (n ≤ 16) && old.bit (16 - n)) ∧ t.flags.zf = decide (r = 0) ∧ t.flags.sf = r.bit 15 ∧
          t.flags.bf = s.flags.bf ∧ (n = 1 → t.flags.of = signChanged old r)))

/-- R178: by the full count `n`; `n = 0` changes nothing but `IP`; otherwise the value is the destination divided by 2^n,
`CF` the last bit shifted out (D16), `ZF` and `SF` unchanged, `OF` the sign change for `n = 1`, and for other counts open,
so nothing is said of it (D15; log entries 19 and 26). -/
def Obligations.ShrShiftsRight : Prop :=
  ∀ (d : Place) (c : Source) (s : State),
    ∃ t, exec (.shr d c) s = .next t ∧ t.ip = nextOf (.shr d c) s ∧
      OnlyChanges (resolve d s).regs (resolve d s).addresses s t ∧
      (let n := (sourceValue c s).toNat
       let old := placeValue d s
       let r := readLoc (resolve d s) t
       r = BitVec.ofNat 16 (old.toNat / 2 ^ n) ∧
       (if n = 0 then t.flags = s.flags
        else t.flags.cf = (decide (n ≤ 16) && old.bit (n - 1)) ∧ t.flags.zf = s.flags.zf ∧ t.flags.sf = s.flags.sf ∧
          t.flags.bf = s.flags.bf ∧ (n = 1 → t.flags.of = signChanged old r)))

/-- R176: by the full count `n`; `n = 0` changes nothing but `IP`; otherwise the value is the signed destination divided by
2^n, rounded down, `CF` the last bit shifted out, `ZF` and `SF` from the result (90_conflicts.md C5), `OF` 0 when the count
operand is the immediate 1, and undefined otherwise, so nothing is said of it (D15; log entries 19 and 26). -/
def Obligations.SarShiftsRightKeepingTheSign : Prop :=
  ∀ (d : Place) (c : Source) (s : State),
    ∃ t, exec (.sar d c) s = .next t ∧ t.ip = nextOf (.sar d c) s ∧
      OnlyChanges (resolve d s).regs (resolve d s).addresses s t ∧
      (let n := (sourceValue c s).toNat
       let old := placeValue d s
       let r := readLoc (resolve d s) t
       r.toInt = old.toInt / 2 ^ n ∧
       (if n = 0 then t.flags = s.flags
        else t.flags.cf = (if n ≤ 15 then old.bit (n - 1) else old.bit 15) ∧ t.flags.zf = decide (r = 0) ∧
          t.flags.sf = r.bit 15 ∧ t.flags.bf = s.flags.bf ∧ (c = .imm 1 → t.flags.of = false)))

/-! ## Control transfer (44_control_transfer.md) -/

/-- R191: `next` is pushed and `IP` becomes the operand's value, read before `SP` changes (the spec's decision D12; log
entry 30). -/
def Obligations.CallPushesTheReturnAddress : Prop :=
  ∀ (o : Source) (s : State), (Instr.call o).parts = (0x15, .s1 o) ∧
    ∃ t, exec (.call o) s = .next t ∧ t.ip = sourceValue o s ∧ readReg .sp t = readReg .sp s - 1 ∧
      readRam (pushAddress s) t = nextOf (.call o) s ∧ t.flags = s.flags ∧
      OnlyChanges [.sp] [pushAddress s] s t

/-- R199: `IP` becomes the operand's value. -/
def Obligations.JmpGoesToItsTarget : Prop :=
  ∀ (o : Source) (s : State), (Instr.jmp o).parts = (0x0A, .s1 o) ∧ JumpsIf true (.jmp o) o s

/-- R192, R193, R194, R201, R204, R207: the jumps on `CF` and `ZF`. -/
def Obligations.JumpsOnCarryAndZero : Prop :=
  ∀ (o : Source) (s : State),
    (Instr.ja o).parts = (0x2E, .s1 o) ∧ JumpsIf (s.flags.cf == false && s.flags.zf == false) (.ja o) o s ∧
    (Instr.jae o).parts = (0x22, .s1 o) ∧ JumpsIf (s.flags.cf == false) (.jae o) o s ∧
    (Instr.jc o).parts = (0x21, .s1 o) ∧ JumpsIf (s.flags.cf == true) (.jc o) o s ∧
    (Instr.jnc o).parts = (0x22, .s1 o) ∧ JumpsIf (s.flags.cf == false) (.jnc o) o s ∧
    (Instr.jnz o).parts = (0x0D, .s1 o) ∧ JumpsIf (s.flags.zf == false) (.jnz o) o s ∧
    (Instr.jz o).parts = (0x0E, .s1 o) ∧ JumpsIf (s.flags.zf == true) (.jz o) o s

/-- R195 to R198, R202, R203, R205, R206: the jumps on `SF` and `OF`. -/
def Obligations.JumpsOnSignAndOverflow : Prop :=
  ∀ (o : Source) (s : State),
    (Instr.jg o).parts = (0x0F, .s1 o) ∧ JumpsIf (s.flags.sf == s.flags.of && s.flags.zf == false) (.jg o) o s ∧
    (Instr.jge o).parts = (0x10, .s1 o) ∧ JumpsIf (s.flags.sf == s.flags.of) (.jge o) o s ∧
    (Instr.jl o).parts = (0x11, .s1 o) ∧ JumpsIf (s.flags.sf != s.flags.of) (.jl o) o s ∧
    (Instr.jle o).parts = (0x12, .s1 o) ∧ JumpsIf (s.flags.sf != s.flags.of || s.flags.zf == true) (.jle o) o s ∧
    (Instr.jno o).parts = (0x25, .s1 o) ∧ JumpsIf (s.flags.of == false) (.jno o) o s ∧
    (Instr.jns o).parts = (0x1B, .s1 o) ∧ JumpsIf (s.flags.sf == false) (.jns o) o s ∧
    (Instr.jo o).parts = (0x24, .s1 o) ∧ JumpsIf (s.flags.of == true) (.jo o) o s ∧
    (Instr.js o).parts = (0x1A, .s1 o) ∧ JumpsIf (s.flags.sf == true) (.js o) o s

/-- R200: `JNA` jumps exactly when `JA` does not, when `CF` or `ZF` is set (the spec's decision D18; log entry 30). -/
def Obligations.JnaJumpsWhenJaDoesNot : Prop :=
  ∀ (o : Source) (s : State),
    (Instr.jna o).parts = (0x2F, .s1 o) ∧ JumpsIf (s.flags.cf || s.flags.zf) (.jna o) o s ∧
    JumpsIf (!(s.flags.cf || s.flags.zf)) (.ja o) o s

/-- R208: `IP` becomes the word on top of the stack, and `SP` moves past it and past `amount` further words (which operand
forms there are: the spec's decision D43; log entry 5). -/
def Obligations.RetPopsTheReturnAddress : Prop :=
  (Instr.ret.parts = (0x16, .n0) ∧ ∀ amount : Word, (Instr.retImm amount).parts = (0x16, .s1 (.imm amount))) ∧
  ∀ (s : State) (i : Instr) (amount : Word), (i = .ret ∧ amount = 0) ∨ i = .retImm amount →
    ∃ t, exec i s = .next t ∧ t.ip = stackTop s ∧ readReg .sp t = readReg .sp s + 1 + amount ∧ t.flags = s.flags ∧
      OnlyChanges [.sp] [] s t

/-- After `CALL`, `RET` goes on at the instruction after it, with every register, flag and device as before the `CALL`,
and every RAM word but the one the `CALL` stored to (44_control_transfer.md section 3; D12). -/
def Obligations.RetUndoesCall : Prop :=
  ∀ (o : Source) (s : State),
    ∃ t, exec (.call o) s = .next t ∧ ∃ u, exec .ret t = .next u ∧ u.ip = nextOf (.call o) s ∧
      u.regs = s.regs ∧ u.flags = s.flags ∧ OnlyChanges [] [pushAddress s] s u

/-- After `CMP a, b` each conditional jump is taken exactly when `a` and `b` compare as its name says, unsigned for above
and below, signed for greater and less (44_control_transfer.md section 2; D13, D18; log entries 29 and 30). -/
def Obligations.JumpsAfterCmpCompareTheOperands : Prop :=
  ∀ (d : Place) (o : Source) (s : State), ∃ t, exec (.cmp d o) s = .next t ∧
    ∀ target : Source,
      (let a := placeValue d s
       let b := sourceValue o s
       JumpsIf (decide (b.toNat < a.toNat)) (.ja target) target t ∧
       JumpsIf (decide (b.toNat ≤ a.toNat)) (.jae target) target t ∧
       JumpsIf (decide (b.toNat ≤ a.toNat)) (.jnc target) target t ∧
       JumpsIf (decide (a.toNat < b.toNat)) (.jc target) target t ∧
       JumpsIf (decide (a.toNat ≤ b.toNat)) (.jna target) target t ∧
       JumpsIf (decide (a = b)) (.jz target) target t ∧
       JumpsIf (decide (a ≠ b)) (.jnz target) target t ∧
       JumpsIf (decide (b.toInt < a.toInt)) (.jg target) target t ∧
       JumpsIf (decide (b.toInt ≤ a.toInt)) (.jge target) target t ∧
       JumpsIf (decide (a.toInt < b.toInt)) (.jl target) target t ∧
       JumpsIf (decide (a.toInt ≤ b.toInt)) (.jle target) target t)

/-! ## SETcc (45_setcc.md) -/

/-- R220 to R226: the conditions on `CF` and `ZF` (the spec's decision D19; log entry 4). -/
def Obligations.SetccOnCarryAndZero : Prop :=
  ∀ (d : Place) (s : State),
    (∀ i, i = .seta d ∨ i = .setnbe d → StoresIf (s.flags.cf == false && s.flags.zf == false) i d s) ∧
    (∀ i, i = .setae d ∨ i = .setnb d ∨ i = .setnc d → StoresIf (s.flags.cf == false) i d s) ∧
    (∀ i, i = .setbe d ∨ i = .setna d → StoresIf (s.flags.cf == true || s.flags.zf == true) i d s) ∧
    (∀ i, i = .setb d ∨ i = .setc d ∨ i = .setnae d → StoresIf (s.flags.cf == true) i d s) ∧
    (∀ i, i = .sete d ∨ i = .setz d → StoresIf (s.flags.zf == true) i d s) ∧
    (∀ i, i = .setne d ∨ i = .setnz d → StoresIf (s.flags.zf == false) i d s)

/-- R220, R227 to R234: the conditions on `SF` and `OF` (the spec's decision D19; log entry 4). -/
def Obligations.SetccOnSignAndOverflow : Prop :=
  ∀ (d : Place) (s : State),
    (∀ i, i = .setg d ∨ i = .setnle d → StoresIf (s.flags.sf == s.flags.of && s.flags.zf == false) i d s) ∧
    (∀ i, i = .setge d ∨ i = .setnl d → StoresIf (s.flags.sf == s.flags.of) i d s) ∧
    (∀ i, i = .setle d ∨ i = .setng d → StoresIf (s.flags.sf != s.flags.of || s.flags.zf == true) i d s) ∧
    (∀ i, i = .setl d ∨ i = .setnge d → StoresIf (s.flags.sf != s.flags.of) i d s) ∧
    StoresIf (s.flags.sf == true) (.sets d) d s ∧ StoresIf (s.flags.sf == false) (.setns d) d s ∧
    StoresIf (s.flags.of == true) (.seto d) d s ∧ StoresIf (s.flags.of == false) (.setno d) d s

/-! ## System instructions and interrupts (46_system.md, 60_exceptions.md) -/

/-- `BRK` sets the break flag and leaves every other flag, every register and every RAM word (46_system.md R240); `IP` moves
on, and the next step executes nothing: it is the tick, as the model chose (log entry 20). -/
def Obligations.BrkSetsTheBreakFlag : Prop :=
  ∀ s : State, Instr.brk.parts = (0x00, .n0) ∧
    ∃ t, exec .brk s = .next t ∧ t.flags = { s.flags with bf := true } ∧ t.ip = nextOf .brk s ∧
      OnlyChanges [] [] s t ∧ t.ram = s.ram ∧ step t = .next (tick t) ∧ (tick t).flags.bf = false ∧
      (tick t).ip = s.parameters.textStart

/-- R241: with no device at the hardware address `HWI` has no effect but `IP` (D31; log entry 18); with one it completes
too, every flag, `IP` and every other device as the rule says, whatever the device does (log entry 17). -/
def Obligations.HwiCompletesWithAndWithoutADevice : Prop :=
  ∀ (o : Source) (s : State),
    ∃ t, exec (.hwi o) s = .next t ∧ t.flags = s.flags ∧ t.ip = nextOf (.hwi o) s ∧
      (findDevice (sourceValue o s) s.devices = none → OnlyChanges [] [] s t ∧ t.ram = s.ram) ∧
      (∀ h, h ≠ sourceValue o s → findDevice h t.devices = findDevice h s.devices)

/-- R242: `B` becomes the device's id, or 0 where there is none. -/
def Obligations.HwqAnswersTheHardwareId : Prop :=
  ∀ (o : Source) (s : State), (Instr.hwq o).parts = (0x1C, .s1 o) ∧
    ∃ t, exec (.hwq o) s = .next t ∧
      readReg .b t = (match findDevice (sourceValue o s) s.devices with | some dev => dev.id | none => 0) ∧
      t.flags = s.flags ∧ t.ip = nextOf (.hwq o) s ∧ OnlyChanges [.b] [] s t

/-- R243 and R263: `INT n` up to 255 enters interrupt `n` with the address of the next instruction; above 255 it is an
illegal encoding, and `ILLEGAL_POLICY` says what that does (the spec's decisions D7, D21 and D22; log entries 5 and 7 to
9). -/
def Obligations.IntEntersItsInterrupt : Prop :=
  ∀ (n : Word) (s : State),
    if n.toNat ≤ 255 then
      ∃ t, exec (.int n) s = .next t ∧ InterruptEntered s.parameters.intFrame n (nextOf (.int n) s) s t
    else
      match s.parameters.illegalPolicy with
      | .fault =>
        exec (.int n) s =
          .fault (.illegalInstruction
            (match s.parameters.encoding.singleOperandField with | .source => 0xF830 | .destination => 0x07F0))
      | .nop => exec (.int n) s = .next (setIp (nextOf (.int n) s) s)

/-- R244 and R265: `INTO` enters interrupt 4 when `OF` is set and is a no-op when it is not (D23; log entry 9). -/
def Obligations.IntoEntersInterruptFourOnOverflow : Prop :=
  ∀ s : State, ∃ t, exec .into s = .next t ∧
    if s.flags.of = true then InterruptEntered s.parameters.intFrame 4 (nextOf .into s) s t
    else t.ip = nextOf .into s ∧ t.flags = s.flags ∧ OnlyChanges [] [] s t

/-- R245: `IRET` pops the return address and, with the frame `flags+ip`, the flags word; with `ip-only`, the address alone
(the spec's decision D24, 90_conflicts.md C12; log entry 8). -/
def Obligations.IretPopsTheFrame : Prop :=
  ∀ s : State, ∃ t, exec .iret s = .next t ∧ t.ip = stackTop s ∧ OnlyChanges [.sp] [] s t ∧
    match s.parameters.intFrame with
    | .flagsAndIp =>
        (let w := readRam (readReg .sp s + 1) s
         t.flags = { cf := w.bit 1, zf := w.bit 2, sf := w.bit 3, of := w.bit 0, bf := s.flags.bf }) ∧
        readReg .sp t = readReg .sp s + 2
    | .ipOnly => t.flags = s.flags ∧ readReg .sp t = readReg .sp s + 1

/-- R271: under either frame, a return right after an entry restores every register, every flag and the return address, and
every RAM word but those the entry pushed to (D21, D24; log entry 8). -/
def Obligations.ReturnUndoesInterruptEntry : Prop :=
  ∀ (frame : Config.IntFrame) (n ret : Word) (s : State),
    (let u := leaveInterrupt frame (enterInterrupt frame n ret s)
     u.ip = ret ∧ u.regs = s.regs ∧ u.flags = s.flags ∧
     OnlyChanges [] [readReg .sp s - 1, readReg .sp s - 2] s u)

/-- R246: `IP` moves on and nothing else changes. -/
def Obligations.NopOnlyMovesOn : Prop :=
  ∀ s : State, Instr.nop.parts = (0x3F, .n0) ∧ exec .nop s = .next { s with ip := s.ip + 1 }

/-! ## The parameters (00_scope.md R5) -/

/-- The parameters are the host's (00_scope.md R5, 70_reset_and_hazards.md R301): a start with any of them has them, with
`IP` and `SP` where they say, and no instruction and no step changes one (where the model holds them: log entry 35). -/
def Obligations.ParametersAreTheHostsAndNeverChange : Prop :=
  (∀ (p : Config.Parameters) (devices : List Device) (image : List (Word × Word)),
    (hostSupplies p devices image).parameters = p ∧ (hostSupplies p devices image).devices = devices ∧
    (hostSupplies p devices image).ip = p.textStart ∧ readReg .sp (hostSupplies p devices image) = p.spReset ∧
    (hostSupplies p devices image).flags.bf = false) ∧
  (∀ (i : Instr) (s t : State), exec i s = .next t → t.parameters = s.parameters) ∧
  (∀ s t : State, step s = .next t → t.parameters = s.parameters)
end

