-- ==== Sys2Proof/Laws/Decode.lean ====
section
/-! SUPPORT. The pieces of the encoding: registers, selectors, extension words and the first word's fields. -/

namespace Sys2Proof

/-! ## `REG_INDEX` (10_state.md R21) -/

theorem Reg.mem_all (r : Reg) : r ∈ Reg.all := by cases r <;> decide

/-- What consistent parameters say of `REG_INDEX`: its eight entries are the registers, each once. -/
theorem regIndex_perm {e : Config.Encoding} (h : e.wf = true) : e.regIndex.Perm Reg.all := by
  simp only [Config.Encoding.wf, Bool.and_eq_true] at h
  exact List.isPerm_iff.1 h.1

theorem regIndex_length {e : Config.Encoding} (h : e.wf = true) : e.regIndex.length = 8 := (regIndex_perm h).length_eq

theorem regIndex_nodup {e : Config.Encoding} (h : e.wf = true) : e.regIndex.Nodup :=
  (regIndex_perm h).nodup_iff.2 (by decide)

theorem regNumber_bounds {e : Config.Encoding} (h : e.wf = true) (r : Reg) : 1 ≤ e.regNumber r ∧ e.regNumber r ≤ 8 := by
  have hr : e.regIndex.idxOf r < e.regIndex.length := List.idxOf_lt_length_of_mem ((regIndex_perm h).mem_iff.2 r.mem_all)
  rw [regIndex_length h] at hr
  simp only [Config.Encoding.regNumber]; omega

theorem regOf_regNumber {e : Config.Encoding} (h : e.wf = true) (r : Reg) : e.regOf (e.regNumber r) = some r := by
  have hr : e.regIndex.idxOf r < e.regIndex.length := List.idxOf_lt_length_of_mem ((regIndex_perm h).mem_iff.2 r.mem_all)
  simp [Config.Encoding.regOf, Config.Encoding.regNumber, List.getElem?_eq_getElem hr]

theorem regOf_eq_some {e : Config.Encoding} (h : e.wf = true) {n : Nat} {r : Reg} (hr : e.regOf n = some r) :
    e.regNumber r = n := by
  cases n with
  | zero => cases hr
  | succ k =>
    obtain ⟨hk, rfl⟩ := List.getElem?_eq_some_iff.1 hr
    simp only [Config.Encoding.regNumber, (regIndex_nodup h).idxOf_getElem k hk]

/-! ## `SETCC_SELECTOR` (30_encoding.md R100) -/

theorem Cond.mem_all (c : Cond) : c ∈ Cond.all := by cases c <;> decide

theorem Cond.idxOf_lt (c : Cond) : Cond.all.idxOf c < 14 := by cases c <;> decide

theorem Cond.getElem?_idxOf (c : Cond) : Cond.all[Cond.all.idxOf c]? = some c := by cases c <;> decide

/-- What consistent parameters say of `SETCC_SELECTOR` where it is supplied. -/
theorem setccSelector_ok {e : Config.Encoding} (h : e.wf = true) {codes : Config.SetccSelector}
    (hc : e.setccSelector = some codes) :
    codes.length = 14 ∧ codes.Nodup ∧ ∀ code ∈ codes, conditionCodeOk code = true := by
  simp only [Config.Encoding.wf, hc, Option.all_some, Bool.and_eq_true, setccSelectorOk, beq_iff_eq, decide_eq_true_eq,
    List.all_eq_true] at h
  exact ⟨h.2.1.1, h.2.1.2, h.2.2⟩

theorem setccCode_eq {e : Config.Encoding} (h : e.wf = true) {codes : Config.SetccSelector}
    (hc : e.setccSelector = some codes) (c : Cond) :
    ∃ hlt : Cond.all.idxOf c < codes.length, e.setccCode c = codes[Cond.all.idxOf c] := by
  have hlt : Cond.all.idxOf c < codes.length := by rw [(setccSelector_ok h hc).1]; exact c.idxOf_lt
  refine ⟨hlt, ?_⟩
  simp [Config.Encoding.setccCode, hc, List.getD_eq_getElem?_getD, List.getElem?_eq_getElem hlt]

theorem setccCode_ok {e : Config.Encoding} (h : e.wf = true) (c : Cond) : conditionCodeOk (e.setccCode c) = true := by
  cases hc : e.setccSelector with
  | none => cases c <;> simp only [Config.Encoding.setccCode, hc] <;> decide
  | some codes =>
    obtain ⟨hlt, he⟩ := setccCode_eq h hc c
    exact he ▸ (setccSelector_ok h hc).2.2 _ (List.getElem_mem hlt)

theorem conditionOf_setccCode {e : Config.Encoding} (h : e.wf = true) {codes : Config.SetccSelector}
    (hc : e.setccSelector = some codes) (c : Cond) :
    conditionOf codes (e.setccCode c).1 (e.setccCode c).2 = some c := by
  obtain ⟨hlt, he⟩ := setccCode_eq h hc c
  rw [conditionOf, he, (setccSelector_ok h hc).2.1.idxOf_getElem _ hlt]
  exact c.getElem?_idxOf

theorem conditionOf_eq_some {e : Config.Encoding} (h : e.wf = true) {codes : Config.SetccSelector}
    (hc : e.setccSelector = some codes) {ssel : Nat} {w : Word} {c : Cond} (hco : conditionOf codes ssel w = some c) :
    e.setccCode c = (ssel, w) := by
  obtain ⟨hlt, hcl⟩ := List.getElem?_eq_some_iff.1 hco
  have hk : Cond.all.idxOf c = codes.idxOf (ssel, w) := by
    rw [← hcl]; exact List.Nodup.idxOf_getElem (by decide) _ hlt
  obtain ⟨hlt', he⟩ := setccCode_eq h hc c
  rw [he]
  simp only [hk]
  exact List.getElem_idxOf (hk ▸ hlt')

theorem setccSelector_lt {e : Config.Encoding} (h : e.wf = true) (c : Cond) : (e.setccCode c).1 < 32 := by
  have := setccCode_ok h c
  simp only [conditionCodeOk, Bool.and_eq_true, Bool.or_eq_true, decide_eq_true_eq, beq_iff_eq] at this
  omega

/-! ## Extension words -/

/-- The word an extension list carries, or 0 where it carries none. -/
def extWord (ws : List Word) : Word := ws.headD 0

/-! ## The first word's fields (R81) -/

theorem firstWord_toNat {ssel dsel opc : Nat} (hs : ssel < 32) (hd : dsel < 32) (ho : opc < 64) :
    (firstWord ssel dsel opc).toNat = ssel * 2048 + dsel * 64 + opc := by
  simp only [firstWord, BitVec.toNat_ofNat]; omega

theorem opcodeField_firstWord {ssel dsel opc : Nat} (hs : ssel < 32) (hd : dsel < 32) (ho : opc < 64) :
    opcodeField (firstWord ssel dsel opc) = opc := by
  rw [opcodeField, firstWord_toNat hs hd ho]; omega

theorem destinationField_firstWord {ssel dsel opc : Nat} (hs : ssel < 32) (hd : dsel < 32) (ho : opc < 64) :
    destinationField (firstWord ssel dsel opc) = dsel := by
  rw [destinationField, firstWord_toNat hs hd ho]; omega

theorem sourceField_firstWord {ssel dsel opc : Nat} (hs : ssel < 32) (hd : dsel < 32) (ho : opc < 64) :
    sourceField (firstWord ssel dsel opc) = ssel := by
  rw [sourceField, firstWord_toNat hs hd ho]; omega

/-- A first word is put together again from its fields. -/
theorem firstWord_fields (w0 : Word) : firstWord (sourceField w0) (destinationField w0) (opcodeField w0) = w0 := by
  apply BitVec.eq_of_toNat_eq
  have := w0.isLt
  simp only [firstWord, sourceField, destinationField, opcodeField, BitVec.toNat_ofNat]; omega

/-! ## Selectors (R82 to R86) -/

theorem Place.selector_bounds {e : Config.Encoding} (h : e.wf = true) (p : Place) :
    1 ≤ p.selector e ∧ p.selector e ≤ 30 := by
  cases p with
  | reg r => have := regNumber_bounds h r; simp only [Place.selector]; omega
  | ind r => have := regNumber_bounds h r; simp only [Place.selector]; omega
  | idx r w => have := regNumber_bounds h r; simp only [Place.selector]; omega
  | abs w => simp only [Place.selector]; omega

theorem Source.selector_lt {e : Config.Encoding} (h : e.wf = true) (o : Source) : o.selector e < 32 := by
  cases o with
  | place p => have := p.selector_bounds h; simp only [Source.selector]; omega
  | imm w => simp only [Source.selector]; omega

theorem needsWord_low {sel : Nat} (h : sel ≤ 16) : needsWord sel = false := by
  simp only [needsWord, Bool.or_eq_false_iff, Bool.and_eq_false_iff, decide_eq_false_iff_not, beq_eq_false_iff_ne]
  omega

theorem needsWord_idx {sel : Nat} (h1 : 17 ≤ sel) (h2 : sel ≤ 24) : needsWord sel = true := by
  simp [needsWord, h1, h2]

/-- A place has an extension word exactly where its selector calls for one (R84). -/
theorem Place.ext_eq {e : Config.Encoding} (h : e.wf = true) (p : Place) :
    p.ext = if needsWord (p.selector e) then [extWord p.ext] else [] := by
  cases p with
  | reg r =>
    have := regNumber_bounds h r
    rw [Place.selector, needsWord_low (by omega)]; rfl
  | ind r =>
    have := regNumber_bounds h r
    rw [Place.selector, needsWord_low (by omega)]; rfl
  | idx r w =>
    have := regNumber_bounds h r
    rw [Place.selector, needsWord_idx (by omega) (by omega)]; rfl
  | abs w => rfl

theorem Source.ext_eq {e : Config.Encoding} (h : e.wf = true) (o : Source) :
    o.ext = if needsWord (o.selector e) then [extWord o.ext] else [] := by
  cases o with
  | place p => exact p.ext_eq h
  | imm w => rfl

/-- Taking the extension words a selector calls for. -/
theorem takeExt_words {sel : Nat} {ext : List Word} (h : ext = if needsWord sel then [extWord ext] else [])
    (rest : List Word) : takeExt sel (ext ++ rest) = .ok (extWord ext, rest) := by
  unfold takeExt
  cases hn : needsWord sel
  · obtain rfl : ext = [] := by simpa [hn] using h
    rfl
  · obtain ⟨w, rfl⟩ : ∃ w, ext = [w] := ⟨_, by simpa only [hn, if_true] using h⟩
    rfl

theorem takeExt_place {e : Config.Encoding} (h : e.wf = true) (p : Place) (rest : List Word) :
    takeExt (p.selector e) (p.ext ++ rest) = .ok (extWord p.ext, rest) := takeExt_words (p.ext_eq h) rest

theorem takeExt_source {e : Config.Encoding} (h : e.wf = true) (o : Source) (rest : List Word) :
    takeExt (o.selector e) (o.ext ++ rest) = .ok (extWord o.ext, rest) := takeExt_words (o.ext_eq h) rest

/-- The condition's extension word, and 0 where it has none. -/
theorem takeExt_condition {e : Config.Encoding} (h : e.wf = true) (c : Cond) (rest : List Word) :
    takeExt (e.setccCode c).1 (e.setccWords c ++ rest) = .ok ((e.setccCode c).2, rest) := by
  have hok := setccCode_ok h c
  simp only [conditionCodeOk, Bool.and_eq_true, Bool.or_eq_true, beq_iff_eq] at hok
  unfold takeExt Config.Encoding.setccWords
  rcases hok.2 with hw | hw <;> by_cases hn : needsWord (e.setccCode c).1 = true <;> simp_all

theorem takeExt_none (rest : List Word) : takeExt 0 rest = .ok (0, rest) := rfl

theorem takeExt_immediate (w : Word) (rest : List Word) : takeExt 31 (w :: rest) = .ok (w, rest) := rfl

theorem registerPlace_selector {e : Config.Encoding} (h : e.wf = true) (p : Place) (hp : p.selector e ≠ 30) :
    registerPlace e (p.selector e) (extWord p.ext) = some p := by
  cases p with
  | reg r =>
    have := regNumber_bounds h r
    simp only [registerPlace, Place.selector, this, if_true, regOf_regNumber h, Option.map_some]
  | ind r =>
    have := regNumber_bounds h r
    simp only [registerPlace, Place.selector, show ¬ 8 + e.regNumber r ≤ 8 by omega, show 8 + e.regNumber r ≤ 16 by omega,
      if_true, if_false, show 8 + e.regNumber r - 8 = e.regNumber r by omega, regOf_regNumber h, Option.map_some]
  | idx r w =>
    have := regNumber_bounds h r
    simp only [registerPlace, Place.selector, show ¬ 16 + e.regNumber r ≤ 8 by omega,
      show ¬ 16 + e.regNumber r ≤ 16 by omega, show 16 + e.regNumber r ≤ 24 by omega, if_true, if_false,
      show 16 + e.regNumber r - 16 = e.regNumber r by omega, regOf_regNumber h, Option.map_some]
    rfl
  | abs w => exact absurd rfl hp

theorem placeOf_selector {e : Config.Encoding} (h : e.wf = true) (p : Place) :
    placeOf e (p.selector e) (extWord p.ext) = .ok p := by
  have hb := p.selector_bounds h
  by_cases h30 : p.selector e = 30
  · cases p with
    | abs w => rfl
    | reg r => have := regNumber_bounds h r; simp only [Place.selector] at h30; omega
    | ind r => have := regNumber_bounds h r; simp only [Place.selector] at h30; omega
    | idx r w => have := regNumber_bounds h r; simp only [Place.selector] at h30; omega
  · simp only [placeOf, show p.selector e ≠ 0 by omega, h30, show p.selector e ≠ 31 by omega, if_false,
      registerPlace_selector h p h30]

theorem sourceOf_selector {e : Config.Encoding} (h : e.wf = true) (o : Source) :
    sourceOf e (o.selector e) (extWord o.ext) = .ok o := by
  cases o with
  | place p =>
    have hb := p.selector_bounds h
    simp only [sourceOf, Source.selector, Source.ext, show ¬ p.selector e = 31 by omega, if_false, placeOf_selector h]
    rfl
  | imm w => rfl

/-! ## Lengths (R80, R85) -/

theorem Place.ext_length_le (p : Place) : p.ext.length ≤ 1 := by cases p <;> simp [Place.ext]

theorem Source.ext_length_le (o : Source) : o.ext.length ≤ 1 := by
  cases o with
  | place p => exact p.ext_length_le
  | imm w => simp [Source.ext]

theorem setccWords_length_le (e : Config.Encoding) (c : Cond) : (e.setccWords c).length ≤ 1 := by
  unfold Config.Encoding.setccWords; split <;> simp

theorem orderExts_length (order : Config.ExtWordOrder) (ws vs : List Word) :
    (orderExts order ws vs).length = ws.length + vs.length := by
  cases order <;> simp [orderExts]; omega

theorem encodeParts_length (e : Config.Encoding) (opc : Nat) (ops : Operands) :
    (encodeParts e opc ops).length = ops.length e := by
  cases ops <;> simp only [encodeParts, Operands.length, List.length_cons, orderExts_length, List.length_nil] <;> omega

theorem Operands.length_bounds (e : Config.Encoding) (ops : Operands) : 1 ≤ ops.length e ∧ ops.length e ≤ 3 := by
  cases ops with
  | n0 => simp [Operands.length]
  | s1 s => have := s.ext_length_le; simp only [Operands.length]; omega
  | ds d s => have := s.ext_length_le; have := d.ext_length_le; simp only [Operands.length]; omega
  | cc c d => have := setccWords_length_le e c; have := d.ext_length_le; simp only [Operands.length]; omega

end Sys2Proof
end

