-- ==== Sys2Proof/Laws/Memory.lean ====
section
/-! SUPPORT. The laws of RAM: what is read after a write, and that a write keeps the canonical form. -/

namespace Sys2Proof.Machine

/-! ## Cells -/

@[simp] theorem Memory.readCell_eraseCell_same (m : Memory) (a : Nat) :
    (m.eraseCell a).readCell a = Memory.unlisted := by
  induction m with
  | nil => rfl
  | cons c rest ih =>
    obtain ⟨k, u⟩ := c
    by_cases h : k = a <;> simp [Memory.eraseCell, Memory.readCell, h, ih]

theorem Memory.readCell_eraseCell_ne (m : Memory) {a b : Nat} (h : b ≠ a) :
    (m.eraseCell a).readCell b = m.readCell b := by
  induction m with
  | nil => rfl
  | cons c rest ih =>
    obtain ⟨k, u⟩ := c
    by_cases hk : k = a
    · have : ¬ k = b := by omega
      simp [Memory.eraseCell, Memory.readCell, hk ▸ this, hk, ih]
    · by_cases hb : k = b <;> simp [Memory.eraseCell, Memory.readCell, hk, hb, ih]
      simp [hb ▸ hk, Memory.readCell]

theorem Memory.readCell_insertCell_same (m : Memory) (a : Nat) (v : BitVec 8)
    (h : m.readCell a = Memory.unlisted) (hm : ∀ c ∈ m, c.1 ≠ a) :
    (m.insertCell a v).readCell a = v := by
  induction m with
  | nil => simp [Memory.insertCell, Memory.readCell]
  | cons c rest ih =>
    obtain ⟨k, u⟩ := c
    have hk : k ≠ a := hm (k, u) (by simp)
    by_cases hlt : a < k
    · simp [Memory.insertCell, Memory.readCell, hlt]
    · simp only [Memory.insertCell, Memory.readCell, hlt, hk, if_false] at h ⊢
      exact ih h fun c hc => hm c (by simp [hc])

theorem Memory.readCell_insertCell_ne (m : Memory) {a b : Nat} (v : BitVec 8) (h : b ≠ a) :
    (m.insertCell a v).readCell b = m.readCell b := by
  have h' : a ≠ b := Ne.symm h
  induction m with
  | nil => simp [Memory.insertCell, Memory.readCell, h']
  | cons c rest ih =>
    obtain ⟨k, u⟩ := c
    by_cases hlt : a < k
    · simp [Memory.insertCell, Memory.readCell, hlt, h']
    · simp [Memory.insertCell, Memory.readCell, hlt, ih]

theorem Memory.eraseCell_addresses (m : Memory) (a : Nat) : ∀ c ∈ m.eraseCell a, c.1 ≠ a := by
  induction m with
  | nil => simp [Memory.eraseCell]
  | cons c rest ih =>
    obtain ⟨k, u⟩ := c
    by_cases h : k = a
    · simpa [Memory.eraseCell, h] using ih
    · intro c hc
      simp only [Memory.eraseCell, h, if_false, List.mem_cons] at hc
      rcases hc with rfl | hc
      · exact h
      · exact ih c hc

@[simp] theorem Memory.readCell_writeCell_same (m : Memory) (a : Nat) (v : BitVec 8) :
    (m.writeCell a v).readCell a = v := by
  by_cases hv : v = Memory.unlisted
  · simp [Memory.writeCell, hv]
  · simp only [Memory.writeCell, hv, if_false]
    exact Memory.readCell_insertCell_same _ a v (by simp) (Memory.eraseCell_addresses m a)

theorem Memory.readCell_writeCell_ne (m : Memory) {a b : Nat} (v : BitVec 8) (h : b ≠ a) :
    (m.writeCell a v).readCell b = m.readCell b := by
  by_cases hv : v = Memory.unlisted
  · simp [Memory.writeCell, hv, Memory.readCell_eraseCell_ne m h]
  · simp [Memory.writeCell, hv, Memory.readCell_insertCell_ne _ v h, Memory.readCell_eraseCell_ne m h]

/-! ## The canonical form of cells -/

theorem Memory.wfFrom_weaken {lo lo' : Nat} {m : Memory} (h : Memory.wfFrom lo m) (hle : lo' ≤ lo) :
    Memory.wfFrom lo' m := by
  cases m with
  | nil => rfl
  | cons c rest =>
    obtain ⟨k, u⟩ := c
    simp only [Memory.wfFrom, Bool.and_eq_true, decide_eq_true_eq] at h ⊢
    exact ⟨⟨⟨by omega, h.1.1.2⟩, h.1.2⟩, h.2⟩

theorem Memory.wfFrom_eraseCell {lo : Nat} {m : Memory} (a : Nat) (h : Memory.wfFrom lo m) :
    Memory.wfFrom lo (m.eraseCell a) := by
  induction m generalizing lo with
  | nil => rfl
  | cons c rest ih =>
    obtain ⟨k, u⟩ := c
    simp only [Memory.wfFrom, Bool.and_eq_true, decide_eq_true_eq] at h
    have ih' := ih h.2
    by_cases hk : k = a
    · simpa [Memory.eraseCell, hk] using
        Memory.wfFrom_weaken (hk ▸ ih') (by omega)
    · simp [Memory.eraseCell, hk, Memory.wfFrom, h.1.1.1, h.1.1.2, h.1.2, ih']

theorem Memory.wfFrom_insertCell {lo a : Nat} {m : Memory} {v : BitVec 8} (h : Memory.wfFrom lo m)
    (ha : lo ≤ a) (ha' : a < Memory.cells) (hv : v ≠ Memory.unlisted) (hm : ∀ c ∈ m, c.1 ≠ a) :
    Memory.wfFrom lo (m.insertCell a v) := by
  induction m generalizing lo with
  | nil => simp [Memory.insertCell, Memory.wfFrom, ha, ha', hv]
  | cons c rest ih =>
    obtain ⟨k, u⟩ := c
    have hk : k ≠ a := hm (k, u) (by simp)
    simp only [Memory.wfFrom, Bool.and_eq_true, decide_eq_true_eq] at h
    by_cases hlt : a < k
    · simp only [Memory.insertCell, hlt, if_true, Memory.wfFrom, Bool.and_eq_true, decide_eq_true_eq]
      exact ⟨⟨⟨ha, ha'⟩, hv⟩, ⟨⟨by omega, h.1.1.2⟩, h.1.2⟩, h.2⟩
    · simp only [Memory.insertCell, hlt, if_false, Memory.wfFrom, Bool.and_eq_true, decide_eq_true_eq]
      exact ⟨h.1, ih h.2 (by omega) fun c hc => hm c (by simp [hc])⟩

theorem Memory.wf_writeCell {m : Memory} {a : Nat} (v : BitVec 8) (h : m.wf) (ha : a < Memory.cells) :
    (m.writeCell a v).wf := by
  by_cases hv : v = Memory.unlisted
  · simp only [Memory.writeCell, hv, if_true]
    exact Memory.wfFrom_eraseCell a h
  · simp only [Memory.writeCell, hv, if_false]
    exact Memory.wfFrom_insertCell (Memory.wfFrom_eraseCell a h) (Nat.zero_le a) ha hv
      (Memory.eraseCell_addresses m a)

/-! ## Words -/

theorem lowCell_lt (a : Word) : lowCell a < Memory.cells := by
  have := a.isLt
  simp only [lowCell, Memory.cells]; omega

theorem highCell_lt (a : Word) : highCell a < Memory.cells := by
  have := a.isLt
  simp only [highCell, Memory.cells]; omega

theorem lowCell_ne_highCell (a b : Word) : lowCell a ≠ highCell b := by
  simp only [lowCell, highCell]; omega

theorem lowCell_ne {a b : Word} (h : b ≠ a) : lowCell b ≠ lowCell a := fun e =>
  h (BitVec.eq_of_toNat_eq (by simp only [lowCell] at e; omega))

theorem highCell_ne {a b : Word} (h : b ≠ a) : highCell b ≠ highCell a := fun e =>
  h (BitVec.eq_of_toNat_eq (by simp only [highCell] at e; omega))

theorem halves_append (v : Word) : v.extractLsb' 8 8 ++ v.extractLsb' 0 8 = v := by
  apply BitVec.eq_of_getLsbD_eq
  intro i hi
  simp only [BitVec.getLsbD_append, BitVec.getLsbD_extractLsb']
  by_cases h : i < 8
  · simp [h]
  · have : 8 + (i - 8) = i := by omega
    have h8 : i - 8 < 8 := by omega
    simp [h, this, h8]

/-- A word reads back as it was written (20_memory.md R52). -/
@[simp] theorem Memory.read_write_same (m : Memory) (a v : Word) : (m.write a v).read a = v := by
  simp only [Memory.read, Memory.write, Memory.readCell_writeCell_same,
    Memory.readCell_writeCell_ne _ _ (lowCell_ne_highCell a a)]
  exact halves_append v

/-- A write leaves every other word alone (R52). -/
theorem Memory.read_write_ne (m : Memory) {a b : Word} (v : Word) (h : b ≠ a) :
    (m.write a v).read b = m.read b := by
  simp only [Memory.read, Memory.write]
  rw [Memory.readCell_writeCell_ne _ _ (highCell_ne h), Memory.readCell_writeCell_ne _ _ (lowCell_ne_highCell b a),
    Memory.readCell_writeCell_ne _ _ (Ne.symm (lowCell_ne_highCell a b)),
    Memory.readCell_writeCell_ne _ _ (lowCell_ne h)]

/-- A write keeps the canonical form. -/
theorem Memory.wf_write {m : Memory} (a v : Word) (h : m.wf) : (m.write a v).wf :=
  Memory.wf_writeCell _ (Memory.wf_writeCell _ h (lowCell_lt a)) (highCell_lt a)

/-- RAM with nothing listed is in its canonical form. -/
theorem Memory.wf_empty : Memory.wf [] := rfl

end Sys2Proof.Machine
end

