-- ==== Sys2Proof/Laws/State.lean ====
section
/-! SUPPORT. One lemma per field per update of the state. -/

namespace Sys2Proof.Machine

@[simp] theorem setFlags_regs (f : Flags) (s : State) :
    (setFlags f s).regs = s.regs := rfl
@[simp] theorem setFlags_ip (f : Flags) (s : State) :
    (setFlags f s).ip = s.ip := rfl
@[simp] theorem setFlags_flags (f : Flags) (s : State) :
    (setFlags f s).flags = f := rfl
@[simp] theorem setFlags_ram (f : Flags) (s : State) :
    (setFlags f s).ram = s.ram := rfl
@[simp] theorem setFlags_devices (f : Flags) (s : State) :
    (setFlags f s).devices = s.devices := rfl
@[simp] theorem setFlags_parameters (f : Flags) (s : State) :
    (setFlags f s).parameters = s.parameters := rfl
@[simp] theorem setFlags_drawn (f : Flags) (s : State) :
    (setFlags f s).drawn = s.drawn := rfl

@[simp] theorem setIp_regs (t : Word) (s : State) :
    (setIp t s).regs = s.regs := rfl
@[simp] theorem setIp_ip (t : Word) (s : State) :
    (setIp t s).ip = t := rfl
@[simp] theorem setIp_flags (t : Word) (s : State) :
    (setIp t s).flags = s.flags := rfl
@[simp] theorem setIp_ram (t : Word) (s : State) :
    (setIp t s).ram = s.ram := rfl
@[simp] theorem setIp_devices (t : Word) (s : State) :
    (setIp t s).devices = s.devices := rfl
@[simp] theorem setIp_parameters (t : Word) (s : State) :
    (setIp t s).parameters = s.parameters := rfl
@[simp] theorem setIp_drawn (t : Word) (s : State) :
    (setIp t s).drawn = s.drawn := rfl

@[simp] theorem writeReg_regs (r : Reg) (v : Word) (s : State) :
    (writeReg r v s).regs = s.regs.set r v := rfl
@[simp] theorem writeReg_ip (r : Reg) (v : Word) (s : State) :
    (writeReg r v s).ip = s.ip := rfl
@[simp] theorem writeReg_flags (r : Reg) (v : Word) (s : State) :
    (writeReg r v s).flags = s.flags := rfl
@[simp] theorem writeReg_ram (r : Reg) (v : Word) (s : State) :
    (writeReg r v s).ram = s.ram := rfl
@[simp] theorem writeReg_devices (r : Reg) (v : Word) (s : State) :
    (writeReg r v s).devices = s.devices := rfl
@[simp] theorem writeReg_parameters (r : Reg) (v : Word) (s : State) :
    (writeReg r v s).parameters = s.parameters := rfl
@[simp] theorem writeReg_drawn (r : Reg) (v : Word) (s : State) :
    (writeReg r v s).drawn = s.drawn := rfl

@[simp] theorem writeRam_regs (a v : Word) (s : State) :
    (writeRam a v s).regs = s.regs := rfl
@[simp] theorem writeRam_ip (a v : Word) (s : State) :
    (writeRam a v s).ip = s.ip := rfl
@[simp] theorem writeRam_flags (a v : Word) (s : State) :
    (writeRam a v s).flags = s.flags := rfl
@[simp] theorem writeRam_ram (a v : Word) (s : State) :
    (writeRam a v s).ram = s.ram.write a v := rfl
@[simp] theorem writeRam_devices (a v : Word) (s : State) :
    (writeRam a v s).devices = s.devices := rfl
@[simp] theorem writeRam_parameters (a v : Word) (s : State) :
    (writeRam a v s).parameters = s.parameters := rfl
@[simp] theorem writeRam_drawn (a v : Word) (s : State) :
    (writeRam a v s).drawn = s.drawn := rfl

@[simp] theorem push_regs (v : Word) (s : State) :
    (push v s).regs = s.regs.set .sp (readReg .sp s - 1) := rfl
@[simp] theorem push_ip (v : Word) (s : State) :
    (push v s).ip = s.ip := rfl
@[simp] theorem push_flags (v : Word) (s : State) :
    (push v s).flags = s.flags := rfl
@[simp] theorem push_ram (v : Word) (s : State) :
    (push v s).ram = s.ram.write (readReg .sp s - 1) v := rfl
@[simp] theorem push_devices (v : Word) (s : State) :
    (push v s).devices = s.devices := rfl
@[simp] theorem push_parameters (v : Word) (s : State) :
    (push v s).parameters = s.parameters := rfl
@[simp] theorem push_drawn (v : Word) (s : State) :
    (push v s).drawn = s.drawn := rfl

@[simp] theorem dropWords_regs (n : Word) (s : State) :
    (dropWords n s).regs = s.regs.set .sp (readReg .sp s + n) := rfl
@[simp] theorem dropWords_ip (n : Word) (s : State) :
    (dropWords n s).ip = s.ip := rfl
@[simp] theorem dropWords_flags (n : Word) (s : State) :
    (dropWords n s).flags = s.flags := rfl
@[simp] theorem dropWords_ram (n : Word) (s : State) :
    (dropWords n s).ram = s.ram := rfl
@[simp] theorem dropWords_devices (n : Word) (s : State) :
    (dropWords n s).devices = s.devices := rfl
@[simp] theorem dropWords_parameters (n : Word) (s : State) :
    (dropWords n s).parameters = s.parameters := rfl
@[simp] theorem dropWords_drawn (n : Word) (s : State) :
    (dropWords n s).drawn = s.drawn := rfl

@[simp] theorem drawFlag_regs (s : State) :
    (drawFlag s).2.regs = s.regs := rfl
@[simp] theorem drawFlag_ip (s : State) :
    (drawFlag s).2.ip = s.ip := rfl
@[simp] theorem drawFlag_flags (s : State) :
    (drawFlag s).2.flags = s.flags := rfl
@[simp] theorem drawFlag_ram (s : State) :
    (drawFlag s).2.ram = s.ram := rfl
@[simp] theorem drawFlag_devices (s : State) :
    (drawFlag s).2.devices = s.devices := rfl
@[simp] theorem drawFlag_parameters (s : State) :
    (drawFlag s).2.parameters = s.parameters := rfl
@[simp] theorem drawFlag_drawn (s : State) :
    (drawFlag s).2.drawn = s.drawn + 1 := rfl

@[simp] theorem drawFlags_regs (s : State) :
    (drawFlags s).regs = s.regs := rfl
@[simp] theorem drawFlags_ip (s : State) :
    (drawFlags s).ip = s.ip := rfl
@[simp] theorem drawFlags_ram (s : State) :
    (drawFlags s).ram = s.ram := rfl
@[simp] theorem drawFlags_devices (s : State) :
    (drawFlags s).devices = s.devices := rfl
@[simp] theorem drawFlags_parameters (s : State) :
    (drawFlags s).parameters = s.parameters := rfl
@[simp] theorem drawFlags_drawn (s : State) :
    (drawFlags s).drawn = s.drawn + 4 := rfl

/-- A state that starts with some parameters has them (70_reset_and_hazards.md R301). -/
@[simp] theorem start_parameters (p : Config.Parameters) : (State.start p).parameters = p := rfl
@[simp] theorem start_ip (p : Config.Parameters) : (State.start p).ip = p.textStart := rfl
@[simp] theorem start_ram (p : Config.Parameters) : (State.start p).ram = [] := rfl
@[simp] theorem start_devices (p : Config.Parameters) : (State.start p).devices = [] := rfl

end Sys2Proof.Machine
end

