-- ==== Sys2Proof/Laws/Ops.lean ====
section
/-! SUPPORT. One lemma for each shared operation that says what it does, and that it keeps the invariant `State.wf`. -/

namespace Sys2Proof.Machine

/-! ## Registers and RAM -/

theorem Regs.get_set (g : Regs) (r q : Reg) (v : Word) :
    (g.set r v).get q = if q = r then v else g.get q := by
  cases r <;> cases q <;> rfl

@[simp] theorem readReg_writeReg_same (r : Reg) (v : Word) (s : State) : readReg r (writeReg r v s) = v := by
  simp [readReg, Regs.get_set]

theorem readReg_writeReg (r q : Reg) (v : Word) (s : State) :
    readReg q (writeReg r v s) = if q = r then v else readReg q s := by
  simp [readReg, Regs.get_set]

@[simp] theorem readReg_writeRam (a v : Word) (r : Reg) (s : State) : readReg r (writeRam a v s) = readReg r s := rfl
@[simp] theorem readReg_setFlags (f : Flags) (r : Reg) (s : State) : readReg r (setFlags f s) = readReg r s := rfl
@[simp] theorem readReg_setIp (t : Word) (r : Reg) (s : State) : readReg r (setIp t s) = readReg r s := rfl
@[simp] theorem readRam_writeReg (r : Reg) (v a : Word) (s : State) : readRam a (writeReg r v s) = readRam a s := rfl
@[simp] theorem readRam_setFlags (f : Flags) (a : Word) (s : State) : readRam a (setFlags f s) = readRam a s := rfl
@[simp] theorem readRam_setIp (t a : Word) (s : State) : readRam a (setIp t s) = readRam a s := rfl
@[simp] theorem readRam_dropWords (n a : Word) (s : State) : readRam a (dropWords n s) = readRam a s := rfl

@[simp] theorem readRam_writeRam_same (a v : Word) (s : State) : readRam a (writeRam a v s) = v :=
  Memory.read_write_same s.ram a v

theorem readRam_writeRam (a b v : Word) (s : State) :
    readRam b (writeRam a v s) = if b = a then v else readRam b s := by
  by_cases h : b = a
  · subst h; simp
  · simp only [h, if_false]; exact Memory.read_write_ne s.ram v h

/-! ## The stack -/

/-- A push moves `SP` down by one and stores one word there; nothing else changes (20_memory.md R66). -/
theorem push_spec (v : Word) (s : State) :
    readReg .sp (push v s) = readReg .sp s - 1 ∧ readRam (readReg .sp s - 1) (push v s) = v ∧
    OnlyChanges [.sp] [readReg .sp s - 1] s (push v s) ∧ (push v s).flags = s.flags ∧ (push v s).ip = s.ip := by
  refine ⟨by simp [push], by simp [push], ⟨fun r hr => ?_, fun a ha => ?_, rfl⟩, rfl, rfl⟩
  · have hr' : r ≠ .sp := by simpa using hr
    simp [push, readReg_writeReg, hr']
  · have ha' : a ≠ readReg .sp s - 1 := by simpa using ha
    simp only [push, readRam_writeRam, if_neg ha', readRam_writeReg]

/-- Dropping words moves `SP` up and changes nothing else. -/
theorem dropWords_spec (n : Word) (s : State) :
    readReg .sp (dropWords n s) = readReg .sp s + n ∧ OnlyChanges [.sp] [] s (dropWords n s) ∧
    (dropWords n s).flags = s.flags ∧ (dropWords n s).ip = s.ip := by
  refine ⟨by simp [dropWords], ⟨fun r hr => ?_, fun a _ => rfl, rfl⟩, rfl, rfl⟩
  have hr' : r ≠ .sp := by simpa using hr
  simp [dropWords, readReg_writeReg, hr']

/-! ## Devices -/

theorem setDeviceState_wfFrom (h : Word) (st : List Word) (ds : List Device) (lo : Nat)
    (hd : devicesWfFrom lo ds) : devicesWfFrom lo (setDeviceState h st ds) := by
  induction ds generalizing lo with
  | nil => rfl
  | cons dev rest ih =>
    simp only [devicesWfFrom, Bool.and_eq_true, decide_eq_true_eq] at hd
    by_cases hh : dev.address = h
    · simp only [setDeviceState, hh, if_true, devicesWfFrom, Bool.and_eq_true, decide_eq_true_eq]
      exact ⟨hh ▸ hd.1, hh ▸ hd.2⟩
    · simp only [setDeviceState, hh, if_false, devicesWfFrom, Bool.and_eq_true, decide_eq_true_eq]
      exact ⟨hd.1, ih _ hd.2⟩

/-- The device found at an address is at that address. -/
theorem findDevice_address {h : Word} {ds : List Device} {dev : Device} (hd : findDevice h ds = some dev) :
    dev.address = h := by
  induction ds with
  | nil => simp [findDevice] at hd
  | cons e rest ih =>
    by_cases he : e.address = h
    · simp [findDevice, he] at hd; exact hd ▸ he
    · simp [findDevice, he] at hd; exact ih hd

/-- A device's action changes no device's address or id, so no device is attached or detached (R34). -/
theorem setDeviceState_attached (h : Word) (st : List Word) (ds : List Device) :
    (setDeviceState h st ds).map (fun d => (d.address, d.id)) = ds.map (fun d => (d.address, d.id)) := by
  induction ds with
  | nil => rfl
  | cons dev rest ih => by_cases hh : dev.address = h <;> simp [setDeviceState, hh, ih]

@[simp] theorem storeAll_flags (l : List (Word × Word)) (s : State) : (storeAll l s).flags = s.flags := by
  induction l generalizing s with
  | nil => rfl
  | cons p rest ih => simp [storeAll, ih]

@[simp] theorem storeAll_regs (l : List (Word × Word)) (s : State) : (storeAll l s).regs = s.regs := by
  induction l generalizing s with
  | nil => rfl
  | cons p rest ih => simp [storeAll, ih]

@[simp] theorem storeAll_ip (l : List (Word × Word)) (s : State) : (storeAll l s).ip = s.ip := by
  induction l generalizing s with
  | nil => rfl
  | cons p rest ih => simp [storeAll, ih]

@[simp] theorem storeAll_devices (l : List (Word × Word)) (s : State) : (storeAll l s).devices = s.devices := by
  induction l generalizing s with
  | nil => rfl
  | cons p rest ih => simp [storeAll, ih]

@[simp] theorem storeAll_parameters (l : List (Word × Word)) (s : State) : (storeAll l s).parameters = s.parameters := by
  induction l generalizing s with
  | nil => rfl
  | cons p rest ih => simp [storeAll, ih]

@[simp] theorem deviceActs_flags (dev : Device) (s : State) : (deviceActs dev s).flags = s.flags := by
  simp [deviceActs]

@[simp] theorem deviceActs_ip (dev : Device) (s : State) : (deviceActs dev s).ip = s.ip := by
  simp [deviceActs]

@[simp] theorem deviceActs_parameters (dev : Device) (s : State) : (deviceActs dev s).parameters = s.parameters := by
  simp [deviceActs]

/-- Replacing the states of devices changes no address or id. -/
theorem setDeviceStates_attached (l : List (Word × List Word)) (ds : List Device) :
    (setDeviceStates l ds).map (fun d => (d.address, d.id)) = ds.map (fun d => (d.address, d.id)) := by
  induction l generalizing ds with
  | nil => rfl
  | cons p rest ih => exact (ih _).trans (setDeviceState_attached _ _ _)

theorem setDeviceStates_wf (l : List (Word × List Word)) {ds : List Device} (hd : devicesWf ds) :
    devicesWf (setDeviceStates l ds) := by
  induction l generalizing ds with
  | nil => exact hd
  | cons p rest ih => exact ih (setDeviceState_wfFrom _ _ _ _ hd)

/-! ## The host and the tick -/

@[simp] theorem hostActs_flags (s : State) : (hostActs s).flags = s.flags := by simp [hostActs]
@[simp] theorem hostActs_parameters (s : State) : (hostActs s).parameters = s.parameters := by simp [hostActs]

@[simp] theorem tickHost_parameters (s : State) : (tickHost s).parameters = s.parameters := by
  unfold tickHost; split <;> simp

/-- What a tick does (70_reset_and_hazards.md R290, R291): `BF` and `IP`, for every host; and, where the host keeps what it
finds, no register, RAM word or device. -/
theorem tick_spec (s : State) :
    (tick s).flags.bf = false ∧ (tick s).ip = s.parameters.textStart ∧ (tick s).parameters = s.parameters ∧
    (s.parameters.tickHost = .keeps → (tick s).regs = s.regs ∧ (tick s).ram = s.ram ∧ (tick s).devices = s.devices) := by
  refine ⟨rfl, rfl, tickHost_parameters s, fun h => ?_⟩
  simp [tick, tickWith, tickHost, h]

/-! ## The invariant -/

theorem State.wf_iff (s : State) : s.wf ↔ s.ram.wf ∧ devicesWf s.devices ∧ s.parameters.encoding.wf := by
  simp [State.wf, and_assoc]

/-- The invariant depends on RAM, the devices and the parameters alone. -/
theorem State.wf_of_eq {s t : State} (h : s.wf) (hr : t.ram = s.ram) (hd : t.devices = s.devices)
    (hp : t.parameters = s.parameters) : t.wf := by
  simpa [State.wf, hr, hd, hp] using h

theorem wf_writeRam (a v : Word) {s : State} (h : s.wf) : (writeRam a v s).wf := by
  rw [State.wf_iff] at *
  exact ⟨Memory.wf_write a v h.1, h.2⟩

theorem wf_writeReg (r : Reg) (v : Word) {s : State} (h : s.wf) : (writeReg r v s).wf := State.wf_of_eq h rfl rfl rfl
theorem wf_setFlags (f : Flags) {s : State} (h : s.wf) : (setFlags f s).wf := State.wf_of_eq h rfl rfl rfl
theorem wf_setIp (t : Word) {s : State} (h : s.wf) : (setIp t s).wf := State.wf_of_eq h rfl rfl rfl
theorem wf_dropWords (n : Word) {s : State} (h : s.wf) : (dropWords n s).wf := State.wf_of_eq h rfl rfl rfl
theorem wf_push (v : Word) {s : State} (h : s.wf) : (push v s).wf := wf_writeRam _ _ (wf_writeReg _ _ h)

theorem wf_storeAll (l : List (Word × Word)) {s : State} (h : s.wf) : (storeAll l s).wf := by
  induction l generalizing s with
  | nil => exact h
  | cons p rest ih => exact ih (wf_writeRam _ _ h)

theorem wf_knownOrDrawn (known : Option Bool) {s : State} (h : s.wf) : (knownOrDrawn known s).2.wf := by
  cases known with
  | some b => exact h
  | none => exact State.wf_of_eq h rfl rfl rfl

theorem wf_enterInterrupt (frame : Config.IntFrame) (n ret : Word) {s : State} (h : s.wf) :
    (enterInterrupt frame n ret s).wf := by
  cases frame with
  | flagsAndIp => exact wf_setIp _ (wf_push _ (wf_push _ h))
  | ipOnly => exact wf_setIp _ (wf_push _ h)

theorem wf_leaveInterrupt (frame : Config.IntFrame) {s : State} (h : s.wf) : (leaveInterrupt frame s).wf := by
  cases frame with
  | flagsAndIp => exact wf_dropWords _ (wf_setFlags _ (wf_setIp _ h))
  | ipOnly => exact wf_dropWords _ (wf_setIp _ h)

theorem wf_deviceActs (dev : Device) {s : State} (h : s.wf) : (deviceActs dev s).wf := by
  rw [State.wf_iff] at h
  refine wf_storeAll _ ?_
  rw [State.wf_iff]
  exact ⟨h.1, setDeviceState_wfFrom _ _ _ _ h.2.1, h.2.2⟩

theorem wf_hostActs {s : State} (h : s.wf) : (hostActs s).wf := by
  rw [State.wf_iff] at h
  refine wf_storeAll _ ?_
  rw [State.wf_iff]
  exact ⟨h.1, setDeviceStates_wf _ h.2.1, h.2.2⟩

theorem wf_tick {s : State} (h : s.wf) : (tick s).wf := by
  have hd : (drawFlags s).wf := State.wf_of_eq h rfl rfl rfl
  have hh : (tickHost s).wf := by
    unfold tickHost; split
    · exact hd
    · exact wf_hostActs hd
  exact State.wf_of_eq hh rfl rfl rfl

end Sys2Proof.Machine
end

