-- ==== Sys2Proof/Laws/Interrupts.lean ====
section
/-! SUPPORT. Interrupt entry and return: what each does, once, under either frame. -/

namespace Sys2Proof.Machine

theorem sub_two (w : Word) : w - 2 = w - 1 - 1 := by
  apply BitVec.eq_of_toNat_eq
  simp only [BitVec.toNat_sub]
  have := w.isLt
  simp only [show (2 : Word).toNat = 2 from rfl, show (1 : Word).toNat = 1 from rfl]
  omega

theorem sub_one_ne (w : Word) : w ≠ w - 1 := by
  intro h
  have h' := congrArg BitVec.toNat h
  have := w.isLt
  simp only [BitVec.toNat_sub, show (1 : Word).toNat = 1 from rfl] at h'
  omega

/-- The whole effect of an interrupt entry (60_exceptions.md R263). -/
theorem enterInterrupt_spec (frame : Config.IntFrame) (n ret : Word) (s : State) :
    InterruptEntered frame n ret s (enterInterrupt frame n ret s) := by
  refine ⟨by cases frame <;> rfl, by cases frame <;> rfl, ?_⟩
  cases frame with
  | ipOnly =>
    obtain ⟨h1, h2, h3, -, -⟩ := push_spec ret s
    exact ⟨h1, h2, h3.1, h3.2.1, h3.2.2⟩
  | flagsAndIp =>
    obtain ⟨h1, h2, h3, -, -⟩ := push_spec (flagsWord s.flags) s
    obtain ⟨k1, k2, k3, -, -⟩ := push_spec ret (push (flagsWord s.flags) s)
    rw [h1] at k1 k2 k3
    simp only [sub_two]
    refine ⟨k1, ?_, k2, fun r hr => ?_, fun a ha => ?_, rfl⟩
    · exact (k3.2.1 _ (by simpa using sub_one_ne (readReg .sp s - 1))).trans h2
    · exact (k3.1 r hr).trans (h3.1 r hr)
    · rw [List.mem_cons, not_or] at ha
      exact (k3.2.1 a ha.2).trans (h3.2.1 a (by simpa using ha.1))

/-- The whole effect of a return from interrupt (46_system.md R245, R271). -/
theorem leaveInterrupt_spec (frame : Config.IntFrame) (s : State) :
    let t := leaveInterrupt frame s
    t.ip = stackTop s ∧ OnlyChanges [.sp] [] s t ∧
    match frame with
    | .flagsAndIp =>
        readReg .sp t = readReg .sp s + 2 ∧ t.flags = flagsFromWord s.flags (readRam (readReg .sp s + 1) s)
    | .ipOnly => readReg .sp t = readReg .sp s + 1 ∧ t.flags = s.flags := by
  cases frame with
  | flagsAndIp =>
    obtain ⟨h1, h2, h3, h4⟩ := dropWords_spec 2
      (setFlags (flagsFromWord s.flags (readRam (readReg .sp s + 1) s)) (setIp (stackTop s) s))
    exact ⟨h4, ⟨h2.1, h2.2.1, h2.2.2⟩, h1, h3⟩
  | ipOnly =>
    obtain ⟨h1, h2, h3, h4⟩ := dropWords_spec 1 (setIp (stackTop s) s)
    exact ⟨h4, ⟨h2.1, h2.2.1, h2.2.2⟩, h1, h3⟩

@[simp] theorem enterInterrupt_parameters (frame : Config.IntFrame) (n ret : Word) (s : State) :
    (enterInterrupt frame n ret s).parameters = s.parameters := by cases frame <;> rfl

@[simp] theorem leaveInterrupt_parameters (frame : Config.IntFrame) (s : State) :
    (leaveInterrupt frame s).parameters = s.parameters := by cases frame <;> rfl

/-- The bits of the flags word (10_state.md R28). -/
theorem flagsWord_bits (f : Flags) :
    (flagsWord f).bit 3 = f.sf ∧ (flagsWord f).bit 2 = f.zf ∧ (flagsWord f).bit 1 = f.cf ∧ (flagsWord f).bit 0 = f.of := by
  obtain ⟨c, z, n, o, b⟩ := f
  revert c z n o
  simp only [flagsWord, Word.bit]
  decide

/-- A flags word read back gives the flags it was made from; `BF` is not in it (R28). -/
theorem flagsFromWord_flagsWord (f g : Flags) : flagsFromWord g (flagsWord f) = { f with bf := g.bf } := by
  obtain ⟨h3, h2, h1, h0⟩ := flagsWord_bits f
  simp only [flagsFromWord, h3, h2, h1, h0]

end Sys2Proof.Machine
end

