-- ==== Sys2Proof/Laws/Operands.lean ====
section
/-! SUPPORT. Operands and the shapes of meaning the families share: what each does, once. -/

namespace Sys2Proof.Machine

/-! ## Places -/

@[simp] theorem readLoc_writeLoc_same (l : Loc) (v : Word) (s : State) : readLoc l (writeLoc l v s) = v := by
  cases l <;> simp [readLoc, writeLoc]

@[simp] theorem readLoc_setIp (l : Loc) (t : Word) (s : State) : readLoc l (setIp t s) = readLoc l s := by
  cases l <;> rfl

@[simp] theorem readLoc_setFlags (l : Loc) (f : Flags) (s : State) : readLoc l (setFlags f s) = readLoc l s := by
  cases l <;> rfl

@[simp] theorem writeLoc_flags (l : Loc) (v : Word) (s : State) : (writeLoc l v s).flags = s.flags := by
  cases l <;> rfl

@[simp] theorem writeLoc_ip (l : Loc) (v : Word) (s : State) : (writeLoc l v s).ip = s.ip := by cases l <;> rfl

@[simp] theorem writeLoc_devices (l : Loc) (v : Word) (s : State) : (writeLoc l v s).devices = s.devices := by
  cases l <;> rfl

@[simp] theorem writeLoc_parameters (l : Loc) (v : Word) (s : State) : (writeLoc l v s).parameters = s.parameters := by
  cases l <;> rfl

@[simp] theorem writeLoc_drawn (l : Loc) (v : Word) (s : State) : (writeLoc l v s).drawn = s.drawn := by
  cases l <;> rfl

theorem readReg_writeLoc_ne {l : Loc} {r : Reg} (v : Word) (s : State) (h : r ∉ l.regs) :
    readReg r (writeLoc l v s) = readReg r s := by
  cases l with
  | reg q => simp [Loc.regs] at h; simp [writeLoc, readReg_writeReg, h]
  | mem a => rfl

theorem readRam_writeLoc_ne {l : Loc} {a : Word} (v : Word) (s : State) (h : a ∉ l.addresses) :
    readRam a (writeLoc l v s) = readRam a s := by
  cases l with
  | reg q => rfl
  | mem b => simp [Loc.addresses] at h; simp [writeLoc, readRam_writeRam, h]

/-- A write to a place changes that place and nothing else (30_encoding.md R87). -/
theorem writeLoc_only (l : Loc) (v : Word) (s : State) : OnlyChanges l.regs l.addresses s (writeLoc l v s) :=
  ⟨fun _ h => readReg_writeLoc_ne v s h, fun _ h => readRam_writeLoc_ne v s h, writeLoc_devices l v s⟩

theorem wf_writeLoc (l : Loc) (v : Word) {s : State} (h : s.wf) : (writeLoc l v s).wf := by
  cases l with
  | reg r => exact wf_writeReg r v h
  | mem a => exact wf_writeRam a v h

/-! ## What may change -/

theorem OnlyChanges.refl (rs : List Reg) (as : List Word) (s : State) : OnlyChanges rs as s s :=
  ⟨fun _ _ => rfl, fun _ _ => rfl, rfl⟩

/-- `OnlyChanges` looks at registers, RAM and devices alone. -/
theorem OnlyChanges.congr {rs : List Reg} {as : List Word} {s t u : State} (h : OnlyChanges rs as s t)
    (hr : u.regs = t.regs) (hm : u.ram = t.ram) (hd : u.devices = t.devices) : OnlyChanges rs as s u :=
  ⟨fun r hn => by simpa [readReg, hr] using h.1 r hn, fun a hn => by simpa [readRam, hm] using h.2.1 a hn,
    hd.trans h.2.2⟩

theorem OnlyChanges.trans {rs rs' : List Reg} {as as' : List Word} {s t u : State} (h : OnlyChanges rs as s t)
    (h' : OnlyChanges rs' as' t u) : OnlyChanges (rs ++ rs') (as ++ as') s u :=
  ⟨fun r hn => (h'.1 r fun c => hn (by simp [c])).trans (h.1 r fun c => hn (by simp [c])),
    fun a hn => (h'.2.1 a fun c => hn (by simp [c])).trans (h.2.1 a fun c => hn (by simp [c])),
    h'.2.2.trans h.2.2⟩

/-! ## Shapes of meaning -/

/-- What a two-operand update does. -/
theorem updateBoth_spec (d : Place) (o : Source) (f : Word → Word → Flags → ShiftResult) (s : State) :
    let out := f (placeValue d s) (sourceValue o s) s.flags
    let t := updateBoth d o f s
    readLoc (resolve d s) t = out.value ∧ t.flags = out.flags ∧ t.ip = nextAfterBoth d o s ∧
    OnlyChanges (resolve d s).regs (resolve d s).addresses s t := by
  refine ⟨by simp [updateBoth, placeValue], rfl, rfl, ?_⟩
  exact (writeLoc_only (resolve d s) _ s).congr rfl rfl rfl

/-- What a one-operand update does. -/
theorem updateOne_spec (d : Place) (f : Word → Flags → ShiftResult) (s : State) :
    let out := f (placeValue d s) s.flags
    let t := updateOne d f s
    readLoc (resolve d s) t = out.value ∧ t.flags = out.flags ∧ t.ip = nextAfterPlace d s ∧
    OnlyChanges (resolve d s).regs (resolve d s).addresses s t := by
  refine ⟨by simp [updateOne, placeValue], rfl, rfl, ?_⟩
  exact (writeLoc_only (resolve d s) _ s).congr rfl rfl rfl

/-- What a comparison does: the flags and `IP`, nothing else. -/
theorem compareBoth_spec (d : Place) (o : Source) (f : Word → Word → Flags → Flags) (s : State) :
    let t := compareBoth d o f s
    t.flags = f (placeValue d s) (sourceValue o s) s.flags ∧ t.ip = nextAfterBoth d o s ∧
    OnlyChanges [] [] s t ∧ t.ram = s.ram :=
  ⟨rfl, rfl, ⟨fun _ _ => rfl, fun _ _ => rfl, rfl⟩, rfl⟩

/-- Drawing an open value changes the model's counter alone. -/
theorem knownOrDrawn_spec (known : Option Bool) (s : State) :
    (∀ b, known = some b → (knownOrDrawn known s).1 = b) ∧ (knownOrDrawn known s).2.regs = s.regs ∧
    (knownOrDrawn known s).2.ram = s.ram ∧ (knownOrDrawn known s).2.flags = s.flags ∧
    (knownOrDrawn known s).2.ip = s.ip ∧ (knownOrDrawn known s).2.devices = s.devices ∧
    (knownOrDrawn known s).2.parameters = s.parameters := by
  cases known <;> simp [knownOrDrawn]

/-- What a shift by the count 0 does: `IP` moves on and nothing else changes. -/
theorem shiftBoth_zero (d : Place) (c : Source) (known : Word → Nat → Option Bool)
    (f : Word → Nat → Flags → Bool → ShiftResult) (s : State) (h : sourceValue c s = 0) :
    shiftBoth d c known f s = setIp (nextAfterBoth d c s) s := by
  simp [shiftBoth, h]

/-- What a shift by another count does, for some value of `OF` that the rule fixes or leaves open. -/
theorem shiftBoth_spec (d : Place) (c : Source) (known : Word → Nat → Option Bool)
    (f : Word → Nat → Flags → Bool → ShiftResult) (s : State) (h : sourceValue c s ≠ 0) :
    let dv := placeValue d s
    let n := (sourceValue c s).toNat
    let t := shiftBoth d c known f s
    ∃ ov, (∀ b, known dv n = some b → ov = b) ∧
      readLoc (resolve d s) t = (f dv n s.flags ov).value ∧ t.flags = (f dv n s.flags ov).flags ∧
      t.ip = nextAfterBoth d c s ∧ OnlyChanges (resolve d s).regs (resolve d s).addresses s t := by
  have hn : (sourceValue c s).toNat ≠ 0 := fun e => h (BitVec.eq_of_toNat_eq (by simpa using e))
  obtain ⟨hb, hr, hm, hf, hi, hd, hp⟩ := knownOrDrawn_spec (known (placeValue d s) (sourceValue c s).toNat) s
  refine ⟨(knownOrDrawn (known (placeValue d s) (sourceValue c s).toNat) s).1, hb, ?_, ?_, ?_, ?_⟩
  · simp [shiftBoth, hn, placeValue]
  · simp [shiftBoth, hn, placeValue]
  · simp [shiftBoth, hn]
  · have h1 : OnlyChanges [] [] s (knownOrDrawn (known (placeValue d s) (sourceValue c s).toNat) s).2 :=
      (OnlyChanges.refl [] [] s).congr hr hm hd
    have h2 := h1.trans (writeLoc_only (resolve d s)
      (f (placeValue d s) (sourceValue c s).toNat s.flags
        (knownOrDrawn (known (placeValue d s) (sourceValue c s).toNat) s).1).value _)
    simp only [List.nil_append] at h2
    refine h2.congr ?_ ?_ ?_ <;> simp [shiftBoth, hn, placeValue]

/-- What an encoding with no meaning does (30_encoding.md R94): it faults, or only `IP` moves on. -/
theorem illegalEncoding_spec (w0 : Word) (s : State) :
    (s.parameters.illegalPolicy = .fault ∧ illegalEncoding w0 s = .fault (.illegalInstruction w0)) ∨
    (s.parameters.illegalPolicy = .nop ∧ illegalEncoding w0 s = .next (setIp (nextIp (wordCount w0) s) s)) := by
  unfold illegalEncoding
  split <;> simp [*]

/-- What a jump does: `IP`, nothing else (44_control_transfer.md R190). -/
theorem jumpWhen_spec (taken : Bool) (t : Source) (s : State) :
    (jumpWhen taken t s).ip = (if taken then sourceValue t s else nextAfterSource t s) ∧
    (jumpWhen taken t s).flags = s.flags ∧ OnlyChanges [] [] s (jumpWhen taken t s) :=
  ⟨rfl, rfl, fun _ _ => rfl, fun _ _ => rfl, rfl⟩

/-- What a `SETcc` does (45_setcc.md R220). -/
theorem storeCond_spec (c : Cond) (d : Place) (s : State) :
    let t := storeCond c d s
    readLoc (resolve d s) t = (if condHolds c s.flags then 1 else 0) ∧ t.flags = s.flags ∧
    t.ip = nextAfterSetcc c d s ∧ OnlyChanges (resolve d s).regs (resolve d s).addresses s t :=
  ⟨by simp [storeCond], by simp [storeCond], rfl, (writeLoc_only (resolve d s) _ s).congr rfl rfl rfl⟩

theorem wf_updateBoth (d : Place) (o : Source) (f : Word → Word → Flags → ShiftResult) {s : State} (h : s.wf) :
    (updateBoth d o f s).wf := wf_setIp _ (wf_setFlags _ (wf_writeLoc _ _ h))

theorem wf_updateOne (d : Place) (f : Word → Flags → ShiftResult) {s : State} (h : s.wf) :
    (updateOne d f s).wf := wf_setIp _ (wf_setFlags _ (wf_writeLoc _ _ h))

theorem wf_shiftBoth (d : Place) (c : Source) (known : Word → Nat → Option Bool)
    (f : Word → Nat → Flags → Bool → ShiftResult) {s : State} (h : s.wf) : (shiftBoth d c known f s).wf := by
  unfold shiftBoth
  dsimp only
  split
  · exact wf_setIp _ h
  · exact wf_setIp _ (wf_setFlags _ (wf_writeLoc _ _ (wf_knownOrDrawn _ h)))

/-! ## No shape of meaning writes the parameters -/

@[simp] theorem updateBoth_parameters (d : Place) (o : Source) (f : Word → Word → Flags → ShiftResult) (s : State) :
    (updateBoth d o f s).parameters = s.parameters := by simp [updateBoth]

@[simp] theorem updateOne_parameters (d : Place) (f : Word → Flags → ShiftResult) (s : State) :
    (updateOne d f s).parameters = s.parameters := by simp [updateOne]

@[simp] theorem compareBoth_parameters (d : Place) (o : Source) (f : Word → Word → Flags → Flags) (s : State) :
    (compareBoth d o f s).parameters = s.parameters := rfl

@[simp] theorem shiftBoth_parameters (d : Place) (c : Source) (known : Word → Nat → Option Bool)
    (f : Word → Nat → Flags → Bool → ShiftResult) (s : State) : (shiftBoth d c known f s).parameters = s.parameters := by
  simp only [shiftBoth]
  split
  · rfl
  · simp [(knownOrDrawn_spec _ s).2.2.2.2.2.2]

@[simp] theorem jumpWhen_parameters (taken : Bool) (t : Source) (s : State) :
    (jumpWhen taken t s).parameters = s.parameters := rfl

@[simp] theorem storeCond_parameters (c : Cond) (d : Place) (s : State) :
    (storeCond c d s).parameters = s.parameters := by simp [storeCond]

end Sys2Proof.Machine
end

