-- ==== Sys2Proof/Laws/PerInstr.lean ====
section
/-! SUPPORT. The per-instruction family `EncodedLength`: an instruction's words are as many as its length, one to three
(30_encoding.md R80, R85). -/

namespace Sys2Proof.Laws

/-- With any parameters, the encoder writes `length` words, and that is one, two or three. -/
def EncodedLength.Statement (i : Instr) : Prop :=
  ∀ e : Config.Encoding, (encode e i).length = i.length e ∧ 1 ≤ i.length e ∧ i.length e ≤ 3

theorem encodedLength_of_parts (i : Instr) : EncodedLength.Statement i :=
  fun e => ⟨encodeParts_length e i.parts.1 i.parts.2, i.parts.2.length_bounds e⟩

theorem EncodedLength.mov (d : Place) (s : Source) : EncodedLength.Statement (.mov d s) := encodedLength_of_parts _
theorem EncodedLength.pop (d : Place) : EncodedLength.Statement (.pop d) := encodedLength_of_parts _
theorem EncodedLength.popf : EncodedLength.Statement .popf := encodedLength_of_parts _
theorem EncodedLength.push (s : Source) : EncodedLength.Statement (.push s) := encodedLength_of_parts _
theorem EncodedLength.pushf : EncodedLength.Statement .pushf := encodedLength_of_parts _
theorem EncodedLength.xchg (d s : Place) : EncodedLength.Statement (.xchg d s) := encodedLength_of_parts _
theorem EncodedLength.add (d : Place) (s : Source) : EncodedLength.Statement (.add d s) := encodedLength_of_parts _
theorem EncodedLength.cmp (d : Place) (s : Source) : EncodedLength.Statement (.cmp d s) := encodedLength_of_parts _
theorem EncodedLength.dec (d : Place) : EncodedLength.Statement (.dec d) := encodedLength_of_parts _
theorem EncodedLength.div (s : Source) : EncodedLength.Statement (.div s) := encodedLength_of_parts _
theorem EncodedLength.inc (d : Place) : EncodedLength.Statement (.inc d) := encodedLength_of_parts _
theorem EncodedLength.mul (s : Source) : EncodedLength.Statement (.mul s) := encodedLength_of_parts _
theorem EncodedLength.neg (d : Place) : EncodedLength.Statement (.neg d) := encodedLength_of_parts _
theorem EncodedLength.sub (d : Place) (s : Source) : EncodedLength.Statement (.sub d s) := encodedLength_of_parts _
theorem EncodedLength.and (d : Place) (s : Source) : EncodedLength.Statement (.and d s) := encodedLength_of_parts _
theorem EncodedLength.not (d : Place) : EncodedLength.Statement (.not d) := encodedLength_of_parts _
theorem EncodedLength.or (d : Place) (s : Source) : EncodedLength.Statement (.or d s) := encodedLength_of_parts _
theorem EncodedLength.test (d : Place) (s : Source) : EncodedLength.Statement (.test d s) := encodedLength_of_parts _
theorem EncodedLength.xor (d : Place) (s : Source) : EncodedLength.Statement (.xor d s) := encodedLength_of_parts _
theorem EncodedLength.rcl (d : Place) (c : Source) : EncodedLength.Statement (.rcl d c) := encodedLength_of_parts _
theorem EncodedLength.rcr (d : Place) (c : Source) : EncodedLength.Statement (.rcr d c) := encodedLength_of_parts _
theorem EncodedLength.rol (d : Place) (c : Source) : EncodedLength.Statement (.rol d c) := encodedLength_of_parts _
theorem EncodedLength.ror (d : Place) (c : Source) : EncodedLength.Statement (.ror d c) := encodedLength_of_parts _
theorem EncodedLength.sal (d : Place) (c : Source) : EncodedLength.Statement (.sal d c) := encodedLength_of_parts _
theorem EncodedLength.sar (d : Place) (c : Source) : EncodedLength.Statement (.sar d c) := encodedLength_of_parts _
theorem EncodedLength.shl (d : Place) (c : Source) : EncodedLength.Statement (.shl d c) := encodedLength_of_parts _
theorem EncodedLength.shr (d : Place) (c : Source) : EncodedLength.Statement (.shr d c) := encodedLength_of_parts _
theorem EncodedLength.call (t : Source) : EncodedLength.Statement (.call t) := encodedLength_of_parts _
theorem EncodedLength.ja (t : Source) : EncodedLength.Statement (.ja t) := encodedLength_of_parts _
theorem EncodedLength.jae (t : Source) : EncodedLength.Statement (.jae t) := encodedLength_of_parts _
theorem EncodedLength.jc (t : Source) : EncodedLength.Statement (.jc t) := encodedLength_of_parts _
theorem EncodedLength.jg (t : Source) : EncodedLength.Statement (.jg t) := encodedLength_of_parts _
theorem EncodedLength.jge (t : Source) : EncodedLength.Statement (.jge t) := encodedLength_of_parts _
theorem EncodedLength.jl (t : Source) : EncodedLength.Statement (.jl t) := encodedLength_of_parts _
theorem EncodedLength.jle (t : Source) : EncodedLength.Statement (.jle t) := encodedLength_of_parts _
theorem EncodedLength.jmp (t : Source) : EncodedLength.Statement (.jmp t) := encodedLength_of_parts _
theorem EncodedLength.jna (t : Source) : EncodedLength.Statement (.jna t) := encodedLength_of_parts _
theorem EncodedLength.jnc (t : Source) : EncodedLength.Statement (.jnc t) := encodedLength_of_parts _
theorem EncodedLength.jno (t : Source) : EncodedLength.Statement (.jno t) := encodedLength_of_parts _
theorem EncodedLength.jns (t : Source) : EncodedLength.Statement (.jns t) := encodedLength_of_parts _
theorem EncodedLength.jnz (t : Source) : EncodedLength.Statement (.jnz t) := encodedLength_of_parts _
theorem EncodedLength.jo (t : Source) : EncodedLength.Statement (.jo t) := encodedLength_of_parts _
theorem EncodedLength.js (t : Source) : EncodedLength.Statement (.js t) := encodedLength_of_parts _
theorem EncodedLength.jz (t : Source) : EncodedLength.Statement (.jz t) := encodedLength_of_parts _
theorem EncodedLength.ret : EncodedLength.Statement .ret := encodedLength_of_parts _
theorem EncodedLength.retImm (amount : Word) : EncodedLength.Statement (.retImm amount) := encodedLength_of_parts _
theorem EncodedLength.seta (d : Place) : EncodedLength.Statement (.seta d) := encodedLength_of_parts _
theorem EncodedLength.setnbe (d : Place) : EncodedLength.Statement (.setnbe d) := encodedLength_of_parts _
theorem EncodedLength.setae (d : Place) : EncodedLength.Statement (.setae d) := encodedLength_of_parts _
theorem EncodedLength.setnb (d : Place) : EncodedLength.Statement (.setnb d) := encodedLength_of_parts _
theorem EncodedLength.setnc (d : Place) : EncodedLength.Statement (.setnc d) := encodedLength_of_parts _
theorem EncodedLength.setbe (d : Place) : EncodedLength.Statement (.setbe d) := encodedLength_of_parts _
theorem EncodedLength.setna (d : Place) : EncodedLength.Statement (.setna d) := encodedLength_of_parts _
theorem EncodedLength.setb (d : Place) : EncodedLength.Statement (.setb d) := encodedLength_of_parts _
theorem EncodedLength.setc (d : Place) : EncodedLength.Statement (.setc d) := encodedLength_of_parts _
theorem EncodedLength.setnae (d : Place) : EncodedLength.Statement (.setnae d) := encodedLength_of_parts _
theorem EncodedLength.sete (d : Place) : EncodedLength.Statement (.sete d) := encodedLength_of_parts _
theorem EncodedLength.setz (d : Place) : EncodedLength.Statement (.setz d) := encodedLength_of_parts _
theorem EncodedLength.setne (d : Place) : EncodedLength.Statement (.setne d) := encodedLength_of_parts _
theorem EncodedLength.setnz (d : Place) : EncodedLength.Statement (.setnz d) := encodedLength_of_parts _
theorem EncodedLength.setg (d : Place) : EncodedLength.Statement (.setg d) := encodedLength_of_parts _
theorem EncodedLength.setnle (d : Place) : EncodedLength.Statement (.setnle d) := encodedLength_of_parts _
theorem EncodedLength.setge (d : Place) : EncodedLength.Statement (.setge d) := encodedLength_of_parts _
theorem EncodedLength.setnl (d : Place) : EncodedLength.Statement (.setnl d) := encodedLength_of_parts _
theorem EncodedLength.setle (d : Place) : EncodedLength.Statement (.setle d) := encodedLength_of_parts _
theorem EncodedLength.setng (d : Place) : EncodedLength.Statement (.setng d) := encodedLength_of_parts _
theorem EncodedLength.setl (d : Place) : EncodedLength.Statement (.setl d) := encodedLength_of_parts _
theorem EncodedLength.setnge (d : Place) : EncodedLength.Statement (.setnge d) := encodedLength_of_parts _
theorem EncodedLength.sets (d : Place) : EncodedLength.Statement (.sets d) := encodedLength_of_parts _
theorem EncodedLength.setns (d : Place) : EncodedLength.Statement (.setns d) := encodedLength_of_parts _
theorem EncodedLength.seto (d : Place) : EncodedLength.Statement (.seto d) := encodedLength_of_parts _
theorem EncodedLength.setno (d : Place) : EncodedLength.Statement (.setno d) := encodedLength_of_parts _
theorem EncodedLength.brk : EncodedLength.Statement .brk := encodedLength_of_parts _
theorem EncodedLength.hwi (s : Source) : EncodedLength.Statement (.hwi s) := encodedLength_of_parts _
theorem EncodedLength.hwq (s : Source) : EncodedLength.Statement (.hwq s) := encodedLength_of_parts _
theorem EncodedLength.int (n : Word) : EncodedLength.Statement (.int n) := encodedLength_of_parts _
theorem EncodedLength.into : EncodedLength.Statement .into := encodedLength_of_parts _
theorem EncodedLength.iret : EncodedLength.Statement .iret := encodedLength_of_parts _
theorem EncodedLength.nop : EncodedLength.Statement .nop := encodedLength_of_parts _

end Sys2Proof.Laws
end

