-- ==== Sys2Proof/Tests/Slice0.lean ====
section
/-! SUPPORT. The model's own tests: the well-formedness check, one decoding for every constructor, single steps with the
results 95_test_vectors.md states, and for every statement with hypotheses or clauses a state that meets them. -/

namespace Sys2Proof.Tests

open Sys2Proof.Machine

/-! ## Helpers -/

/-- The decoder's answer, without the reason of a rejection. -/
def decodedBy (e : Config.Encoding) (ws : List Word) : Option (Instr × List Word) :=
  match decode e ws with
  | .ok r => some r
  | .error _ => none

/-- The same with the default parameters. -/
def decoded (ws : List Word) : Option (Instr × List Word) := decodedBy defaultEncoding ws

/-- The next state, where there is one. -/
def next (r : Result) : Option State :=
  match r with
  | .next t => some t
  | _ => none

/-- The fault, where there is one. -/
def faultOf (r : Result) : Option Fault :=
  match r with
  | .fault f => some f
  | _ => none

/-- The refusal, where there is one. -/
def refusalOf (r : Result) : Option Refusal :=
  match r with
  | .refused f => some f
  | _ => none

/-- Encoding parameters none of which is the default: `A` and `B` exchanged, a single operand in the destination field, the
destination's extension word first, and the conditions of `SETcc` in the source field itself. -/
def otherEncoding : Config.Encoding :=
  { regIndex := [.b, .a, .c, .d, .x, .y, .sp, .bp]
    singleOperandField := .destination
    extWordOrder := .destinationFirst
    setccSelector := some ((List.range 14).map fun n => (n + 1, 0)) }

/-- The default encoding without `SETCC_SELECTOR`. -/
def noSetcc : Config.Encoding := { defaultEncoding with setccSelector := none }

/-- Parameters none of which is the default. -/
def otherParameters : Config.Parameters :=
  { encoding := otherEncoding, illegalPolicy := .nop, ivtBase := 0x1000, intFrame := .ipOnly, textStart := 0x0400,
    spReset := 0x8000, tickHost := .unconstrained }

/-- A machine with those parameters and the words at `IP`. -/
def other (ws : List Word) : State := hostSupplies otherParameters [] (ws.mapIdx fun k w => (0x0400 + BitVec.ofNat 16 k, w))

/-- A machine without `SETCC_SELECTOR` and the words at `IP`. -/
def withoutSetcc (ws : List Word) : State :=
  hostSupplies { defaultParameters with encoding := noSetcc } [] (ws.mapIdx fun k w => (0x0200 + BitVec.ofNat 16 k, w))

def clear : Flags := ⟨false, false, false, false, false⟩

/-- The flags whose bits CF, ZF, SF, OF are those of a number below 16, CF the highest. -/
def flagsNumber (n : Nat) : Flags := ⟨n.testBit 3, n.testBit 2, n.testBit 1, n.testBit 0, false⟩

def setRegs (rs : List (Reg × Word)) (s : State) : State := rs.foldl (fun s p => writeReg p.1 p.2 s) s

/-- The start state of a vector: the words at `IP` = 0x0200, registers and RAM 0 but those listed. -/
def start (ws : List Word) (rs : List (Reg × Word)) (ram : List (Word × Word)) (f : Flags) : State :=
  storeAll ram (setRegs rs (State.withFetchWord { State.reset with ip := 0x0200, flags := f } (16 * ws.length)
    (ws.foldr (fun w n => w.toNat + 65536 * n) 0)))

/-- One step ends in the state that differs from the start in the registers, RAM words, flags and `IP` given; `none` for
an `OF` the spec leaves open. -/
def endsIn (s : State) (rs : List (Reg × Word)) (ram : List (Word × Word)) (c z n : Bool) (o : Option Bool) (ip : Word) :
    Bool :=
  match step s with
  | .next t =>
    let want := storeAll ram (setRegs rs s)
    decide (t.regs = want.regs) && decide (t.ram = want.ram) && t.flags.cf == c && t.flags.zf == z && t.flags.sf == n &&
      t.flags.bf == false && (match o with | some b => t.flags.of == b | none => true) && decide (t.ip = ip)
  | _ => false

/-- The fault of one step. -/
def faultsAt (s : State) : Option Fault := faultOf (step s)

/-- The flag values under which a jump to 0x0300 is taken; under the others it must go on at 0x0202. -/
def taken (ws : List Word) : List Nat :=
  (List.range 16).filter (fun n => !endsIn (start ws [] [] (flagsNumber n)) [] []
    (n.testBit 3) (n.testBit 2) (n.testBit 1) (some (n.testBit 0)) 0x0202)

/-- The flag values under which a `SETcc A` stores 1; under the others it must store 0. -/
def setTo (ws : List Word) : List Nat :=
  (List.range 16).filter (fun n => !endsIn (start ws [(.a, 0xFFFF)] [] (flagsNumber n)) [(.a, 0)] []
    (n.testBit 3) (n.testBit 2) (n.testBit 1) (some (n.testBit 0)) 0x0202)

/-! ## Well-formedness (46_system.md R243) -/

theorem test_wellFormed_int_255 : (Instr.int 255).wellFormed = true := by decide
theorem test_wellFormed_refuses_int_256 : (Instr.int 256).wellFormed = false := by decide

/-! ## Consistent parameters (10_state.md R20, R21; 30_encoding.md R93, R100) -/

theorem test_wf_encodings : defaultEncoding.wf = true ∧ otherEncoding.wf = true ∧ noSetcc.wf = true := by decide

/-- A register named twice, and one missing. -/
theorem test_wf_refuses_registers :
    Config.Encoding.wf { defaultEncoding with regIndex := [.a, .a, .c, .d, .x, .y, .sp, .bp] } = false ∧
    Config.Encoding.wf { defaultEncoding with regIndex := [.a, .b, .c, .d, .x, .y, .sp] } = false := by decide

/-- Two conditions named alike, one condition missing, a reserved selector, and a word beside a selector that has none. -/
theorem test_wf_refuses_conditions :
    Config.Encoding.wf { defaultEncoding with setccSelector := some (List.replicate 14 (31, 1)) } = false ∧
    Config.Encoding.wf { defaultEncoding with setccSelector := some ((List.range 13).map fun n => (n + 1, 0)) } = false ∧
    Config.Encoding.wf { defaultEncoding with setccSelector := some ((List.range 14).map fun n => (n + 12, 0)) } = false ∧
    Config.Encoding.wf { defaultEncoding with setccSelector := some ((List.range 14).map fun n => (n + 1, 1)) } = false := by
  decide

/-! ## Decoding: one word list for every constructor, written out from 30_encoding.md R81 to R90 and R100 -/

theorem test_decode_brk : decoded [0x0000] =
    some (.brk, []) := by decide

theorem test_decode_mov : decoded [0xF781, 0x0200, 0x0100] =
    some (.mov (.abs 0x0100) (.place (.abs 0x0200)), []) := by decide

theorem test_decode_add : decoded [0x5882] =
    some (.add (.reg .b) (.place (.ind .c)), []) := by decide

theorem test_decode_sub : decoded [0xFE03, 0x0007, 0x0003] =
    some (.sub (.idx .bp 0x0003) (.imm 0x0007), []) := by decide

theorem test_decode_and : decoded [0xF844, 0x000F] =
    some (.and (.reg .a) (.imm 0x000F), []) := by decide

theorem test_decode_or : decoded [0x3305] =
    some (.or (.ind .d) (.place (.reg .y)), []) := by decide

theorem test_decode_shl : decoded [0xF946, 0x0004] =
    some (.shl (.reg .x) (.imm 0x0004), []) := by decide

theorem test_decode_shr : decoded [0x1987] =
    some (.shr (.reg .y) (.place (.reg .c)), []) := by decide

theorem test_decode_into : decoded [0x0008] =
    some (.into, []) := by decide

theorem test_decode_hwi : decoded [0xF809, 0x0007] =
    some (.hwi (.imm 0x0007), []) := by decide

theorem test_decode_jmp : decoded [0x880A, 0x0010] =
    some (.jmp (.place (.idx .a 0x0010)), []) := by decide

theorem test_decode_test : decoded [0xF84B, 0x8000] =
    some (.test (.reg .a) (.imm 0x8000), []) := by decide

theorem test_decode_cmp : decoded [0xFF8C, 0x0003, 0x0300] =
    some (.cmp (.abs 0x0300) (.imm 0x0003), []) := by decide

theorem test_decode_jnz : decoded [0xF80D, 0x0300] =
    some (.jnz (.imm 0x0300), []) := by decide

theorem test_decode_jz : decoded [0xF00E, 0x0300] =
    some (.jz (.place (.abs 0x0300)), []) := by decide

theorem test_decode_jg : decoded [0xF80F, 0x0300] =
    some (.jg (.imm 0x0300), []) := by decide

theorem test_decode_jge : decoded [0x1010] =
    some (.jge (.place (.reg .b)), []) := by decide

theorem test_decode_jl : decoded [0xF811, 0x0300] =
    some (.jl (.imm 0x0300), []) := by decide

theorem test_decode_jle : decoded [0x8012] =
    some (.jle (.place (.ind .bp)), []) := by decide

theorem test_decode_push : decoded [0xB813, 0x0001] =
    some (.push (.place (.idx .sp 0x0001)), []) := by decide

theorem test_decode_pop : decoded [0xB814, 0x0001] =
    some (.pop (.idx .sp 0x0001), []) := by decide

theorem test_decode_call : decoded [0x7815] =
    some (.call (.place (.ind .sp)), []) := by decide

theorem test_decode_ret : decoded [0x0016] =
    some (.ret, []) := by decide

theorem test_decode_retImm : decoded [0xF816, 0x0002] =
    some (.retImm 0x0002, []) := by decide

theorem test_decode_mul : decoded [0x3017] =
    some (.mul (.place (.reg .y)), []) := by decide

theorem test_decode_div : decoded [0xF818, 0x0010] =
    some (.div (.imm 0x0010), []) := by decide

theorem test_decode_neg : decoded [0x0819] =
    some (.neg (.reg .a), []) := by decide

theorem test_decode_js : decoded [0xF81A, 0x0300] =
    some (.js (.imm 0x0300), []) := by decide

theorem test_decode_jns : decoded [0xF81B, 0x0300] =
    some (.jns (.imm 0x0300), []) := by decide

theorem test_decode_hwq : decoded [0x101C] =
    some (.hwq (.place (.reg .b)), []) := by decide

theorem test_decode_not : decoded [0xF01D, 0x0300] =
    some (.not (.abs 0x0300), []) := by decide

theorem test_decode_xchg : decoded [0x4A9F] =
    some (.xchg (.ind .b) (.ind .a), []) := by decide

theorem test_decode_ror : decoded [0xF860, 0x0021] =
    some (.ror (.reg .a) (.imm 0x0021), []) := by decide

theorem test_decode_jc : decoded [0xF821, 0x0300] =
    some (.jc (.imm 0x0300), []) := by decide

theorem test_decode_jnc : decoded [0xB022, 0xFFFF] =
    some (.jnc (.place (.idx .y 0xFFFF)), []) := by decide

theorem test_decode_rol : decoded [0xA4E3, 0x0002, 0x0001] =
    some (.rol (.idx .c 0x0001) (.place (.idx .d 0x0002)), []) := by decide

theorem test_decode_jo : decoded [0xF824, 0x0300] =
    some (.jo (.imm 0x0300), []) := by decide

theorem test_decode_jno : decoded [0xF825, 0x0300] =
    some (.jno (.imm 0x0300), []) := by decide

theorem test_decode_xor : decoded [0x0866] =
    some (.xor (.reg .a) (.place (.reg .a)), []) := by decide

theorem test_decode_rcl : decoded [0xF867, 0x0012] =
    some (.rcl (.reg .a) (.imm 0x0012), []) := by decide

theorem test_decode_rcr : decoded [0x6868] =
    some (.rcr (.reg .a) (.place (.ind .x)), []) := by decide

theorem test_decode_sar : decoded [0xF869, 0x0001] =
    some (.sar (.reg .a) (.imm 0x0001), []) := by decide

theorem test_decode_inc : decoded [0x682A] =
    some (.inc (.ind .x), []) := by decide

theorem test_decode_dec : decoded [0x202B] =
    some (.dec (.reg .d), []) := by decide

theorem test_decode_popf : decoded [0x002C] =
    some (.popf, []) := by decide

theorem test_decode_pushf : decoded [0x002D] =
    some (.pushf, []) := by decide

theorem test_decode_ja : decoded [0xF82E, 0x0300] =
    some (.ja (.imm 0x0300), []) := by decide

theorem test_decode_jna : decoded [0xF82F, 0x0300] =
    some (.jna (.imm 0x0300), []) := by decide

theorem test_decode_int : decoded [0xF830, 0x00FF] =
    some (.int 0x00FF, []) := by decide

theorem test_decode_iret : decoded [0x0031] =
    some (.iret, []) := by decide

theorem test_decode_nop : decoded [0x003F] =
    some (.nop, []) := by decide

/-- `JAE` has the words of `JNC` (R91). -/
theorem test_decode_jae :
    encode defaultEncoding (.jae (.imm 0x0300)) = [0xF822, 0x0300] ∧ decoded [0xF822, 0x0300] = some (.jnc (.imm 0x0300), []) := by decide

/-- `SAL` has the words of `SHL` (R91). -/
theorem test_decode_sal :
    encode defaultEncoding (.sal (.reg .a) (.imm 1)) = [0xF846, 0x0001] ∧
    decoded [0xF846, 0x0001] = some (.shl (.reg .a) (.imm 1), []) := by decide

theorem test_decode_seta : decoded [0xF872, 0x0001] = some (.seta (.reg .a), []) := by decide

theorem test_decode_setnbe : encode defaultEncoding (.setnbe (.reg .a)) = [0xF872, 0x0001] ∧ 
    decoded (encode defaultEncoding (.setnbe (.reg .a))) = some (.seta (.reg .a), []) := by
  decide

theorem test_decode_setae : decoded [0xFA72, 0x0002] = some (.setae (.ind .a), []) := by decide

theorem test_decode_setnb : encode defaultEncoding (.setnb (.ind .a)) = [0xFA72, 0x0002] ∧ 
    decoded (encode defaultEncoding (.setnb (.ind .a))) = some (.setae (.ind .a), []) := by
  decide

theorem test_decode_setnc : encode defaultEncoding (.setnc (.ind .a)) = [0xFA72, 0x0002] ∧ 
    decoded (encode defaultEncoding (.setnc (.ind .a))) = some (.setae (.ind .a), []) := by
  decide

theorem test_decode_setbe : decoded [0xFD72, 0x0003, 0x0001] = some (.setbe (.idx .x 0x0001), []) := by decide

theorem test_decode_setna : encode defaultEncoding (.setna (.idx .x 0x0001)) = [0xFD72, 0x0003, 0x0001] ∧ 
    decoded (encode defaultEncoding (.setna (.idx .x 0x0001))) = some (.setbe (.idx .x 0x0001), []) := by
  decide

theorem test_decode_setb : decoded [0xFFB2, 0x0004, 0x0300] = some (.setb (.abs 0x0300), []) := by decide

theorem test_decode_setc : encode defaultEncoding (.setc (.abs 0x0300)) = [0xFFB2, 0x0004, 0x0300] ∧ 
    decoded (encode defaultEncoding (.setc (.abs 0x0300))) = some (.setb (.abs 0x0300), []) := by
  decide

theorem test_decode_setnae : encode defaultEncoding (.setnae (.abs 0x0300)) = [0xFFB2, 0x0004, 0x0300] ∧ 
    decoded (encode defaultEncoding (.setnae (.abs 0x0300))) = some (.setb (.abs 0x0300), []) := by
  decide

theorem test_decode_sete : decoded [0xF872, 0x0005] = some (.sete (.reg .a), []) := by decide

theorem test_decode_setz : encode defaultEncoding (.setz (.reg .a)) = [0xF872, 0x0005] ∧ 
    decoded (encode defaultEncoding (.setz (.reg .a))) = some (.sete (.reg .a), []) := by
  decide

theorem test_decode_setne : decoded [0xFA72, 0x0006] = some (.setne (.ind .a), []) := by decide

theorem test_decode_setnz : encode defaultEncoding (.setnz (.ind .a)) = [0xFA72, 0x0006] ∧ 
    decoded (encode defaultEncoding (.setnz (.ind .a))) = some (.setne (.ind .a), []) := by
  decide

theorem test_decode_setg : decoded [0xFD72, 0x0007, 0x0001] = some (.setg (.idx .x 0x0001), []) := by decide

theorem test_decode_setnle : encode defaultEncoding (.setnle (.idx .x 0x0001)) = [0xFD72, 0x0007, 0x0001] ∧ 
    decoded (encode defaultEncoding (.setnle (.idx .x 0x0001))) = some (.setg (.idx .x 0x0001), []) := by
  decide

theorem test_decode_setge : decoded [0xFFB2, 0x0008, 0x0300] = some (.setge (.abs 0x0300), []) := by decide

theorem test_decode_setnl : encode defaultEncoding (.setnl (.abs 0x0300)) = [0xFFB2, 0x0008, 0x0300] ∧ 
    decoded (encode defaultEncoding (.setnl (.abs 0x0300))) = some (.setge (.abs 0x0300), []) := by
  decide

theorem test_decode_setle : decoded [0xF872, 0x0009] = some (.setle (.reg .a), []) := by decide

theorem test_decode_setng : encode defaultEncoding (.setng (.reg .a)) = [0xF872, 0x0009] ∧ 
    decoded (encode defaultEncoding (.setng (.reg .a))) = some (.setle (.reg .a), []) := by
  decide

theorem test_decode_setl : decoded [0xFA72, 0x000A] = some (.setl (.ind .a), []) := by decide

theorem test_decode_setnge : encode defaultEncoding (.setnge (.ind .a)) = [0xFA72, 0x000A] ∧ 
    decoded (encode defaultEncoding (.setnge (.ind .a))) = some (.setl (.ind .a), []) := by
  decide

theorem test_decode_sets : decoded [0xFD72, 0x000B, 0x0001] = some (.sets (.idx .x 0x0001), []) := by decide

theorem test_decode_setns : decoded [0xFFB2, 0x000C, 0x0300] = some (.setns (.abs 0x0300), []) := by decide

theorem test_decode_seto : decoded [0xF872, 0x000D] = some (.seto (.reg .a), []) := by decide

theorem test_decode_setno : decoded [0xFA72, 0x000E] = some (.setno (.ind .a), []) := by decide

/-! ## Encodings that must fault (95_test_vectors.md section 2.9, X1 to X16) -/

theorem test_illegal_X1 : faultsAt (start [0x001E] [] [] clear) = some (.illegalInstruction 0x001E) := by
  decide

theorem test_illegal_X2 : faultsAt (start [0x0033] [] [] clear) = some (.illegalInstruction 0x0033) := by
  decide

theorem test_illegal_X3 : faultsAt (start [0x003E] [] [] clear) = some (.illegalInstruction 0x003E) := by
  decide

theorem test_illegal_X4 : faultsAt (start [0xC841] [] [] clear) = some (.illegalInstruction 0xC841) := by
  decide

theorem test_illegal_X5 : faultsAt (start [0x0FC1] [] [] clear) = some (.illegalInstruction 0x0FC1) := by
  decide

theorem test_illegal_X6 : faultsAt (start [0x0801] [] [] clear) = some (.illegalInstruction 0x0801) := by
  decide

theorem test_illegal_X7 : faultsAt (start [0x0840] [] [] clear) = some (.illegalInstruction 0x0840) := by
  decide

theorem test_illegal_X8 : faultsAt (start [0xF814, 0x0005] [] [] clear) = some (.illegalInstruction 0xF814) := by
  decide

theorem test_illegal_X9 : faultsAt (start [0xF830, 0x0100] [] [] clear) = some (.illegalInstruction 0xF830) := by
  decide

theorem test_illegal_X10 : faultsAt (start [0x0830] [] [] clear) = some (.illegalInstruction 0x0830) := by
  decide

theorem test_illegal_X11 : faultsAt (start [0x0816] [] [] clear) = some (.illegalInstruction 0x0816) := by
  decide

theorem test_illegal_X12 : faultsAt (start [0xF872, 0x0000] [] [] clear) = some (.illegalInstruction 0xF872) := by
  decide

theorem test_illegal_X13 : faultsAt (start [0xF872, 0x000F] [] [] clear) = some (.illegalInstruction 0xF872) := by
  decide

theorem test_illegal_X14 : faultsAt (start [0x0872] [] [] clear) = some (.illegalInstruction 0x0872) := by
  decide

theorem test_illegal_X15 : faultsAt (start [0xF85F, 0x0001] [] [] clear) = some (.illegalInstruction 0xF85F) := by
  decide

theorem test_illegal_X16 : faultsAt (start [0xF82A, 0x0001] [] [] clear) = some (.illegalInstruction 0xF82A) := by
  decide

/-! ## One step (the vectors of 95_test_vectors.md) -/

/-- 95_test_vectors.md V4, `MOV [B], [A]`. -/
theorem test_step_mov :
    endsIn (start [0x4A81] [(.a, 0x0300), (.b, 0x0301)] [(0x0300, 0xABCD)] ⟨true, true, true, true, false⟩)
      [] [(0x0301, 0xABCD)] true true true (some true) 0x0201 = true := by
  decide

/-- 95_test_vectors.md V12, `POP SP`. -/
theorem test_step_pop_sp :
    endsIn (start [0x3814] [(.sp, 0xFFF0)] [(0xFFF0, 0x1234)] ⟨false, false, false, false, false⟩)
      [(.sp, 0x1235)] [] false false false (some false) 0x0201 = true := by
  decide

/-- 95_test_vectors.md V13, `POP [SP + 1]`. -/
theorem test_step_pop :
    endsIn (start [0xB814, 0x0001] [(.sp, 0xFFF0)] [(0xFFF0, 0x00AA)] ⟨false, false, false, false, false⟩)
      [(.sp, 0xFFF1)] [(0xFFF1, 0x00AA)] false false false (some false) 0x0202 = true := by
  decide

/-- 95_test_vectors.md V16, `POPF`. -/
theorem test_step_popf :
    endsIn (start [0x002C] [(.sp, 0xFFFF)] [(0xFFFF, 0xFFF5)] ⟨false, false, false, false, false⟩)
      [(.sp, 0x0000)] [] false true false (some true) 0x0201 = true := by
  decide

/-- 95_test_vectors.md V8, `PUSH SP`. -/
theorem test_step_push :
    endsIn (start [0x3813] [(.sp, 0x8000)] [] ⟨false, false, false, false, false⟩)
      [(.sp, 0x7FFF)] [(0x7FFF, 0x8000)] false false false (some false) 0x0201 = true := by
  decide

/-- 95_test_vectors.md V14, `PUSHF`. -/
theorem test_step_pushf :
    endsIn (start [0x002D] [(.sp, 0x0000)] [] ⟨true, false, true, false, false⟩)
      [(.sp, 0xFFFF)] [(0xFFFF, 0x000A)] true false true (some false) 0x0201 = true := by
  decide

/-- 95_test_vectors.md V21, `XCHG [A], [B]`. -/
theorem test_step_xchg :
    endsIn (start [0x525F] [(.a, 0x0400), (.b, 0x0401)] [(0x0400, 0xAAAA), (0x0401, 0xBBBB)] ⟨false, false, false, false, false⟩)
      [] [(0x0400, 0xBBBB), (0x0401, 0xAAAA)] false false false (some false) 0x0201 = true := by
  decide

/-- 95_test_vectors.md V32, `ADD A, B`. -/
theorem test_step_add :
    endsIn (start [0x1042] [(.a, 0x8000), (.b, 0x8000)] [] ⟨false, false, false, false, false⟩)
      [(.a, 0x0000)] [] true true false (some true) 0x0201 = true := by
  decide

/-- 95_test_vectors.md V34, `ADD [0x0300], 0xFFFF`. -/
theorem test_step_add_three_words :
    endsIn (start [0xFF82, 0xFFFF, 0x0300] [] [(0x0300, 0x0002)] ⟨false, false, false, false, false⟩)
      [] [(0x0300, 0x0001)] true false false (some false) 0x0203 = true := by
  decide

/-- 95_test_vectors.md V39, `SUB A, 0x8000`. -/
theorem test_step_sub :
    endsIn (start [0xF843, 0x8000] [(.a, 0x7FFF)] [] ⟨false, false, false, false, false⟩)
      [(.a, 0xFFFF)] [] true false true (some true) 0x0202 = true := by
  decide

/-- 95_test_vectors.md V41, `CMP A, B`. -/
theorem test_step_cmp :
    endsIn (start [0x104C] [(.a, 0xFFFF), (.b, 0x0001)] [] ⟨false, false, false, false, false⟩)
      [] [] false false true (some false) 0x0201 = true := by
  decide

/-- 95_test_vectors.md V45, `INC A`. -/
theorem test_step_inc :
    endsIn (start [0x082A] [(.a, 0x7FFF)] [] ⟨true, false, false, false, false⟩)
      [(.a, 0x8000)] [] true false true (some true) 0x0201 = true := by
  decide

/-- 95_test_vectors.md V48, `DEC A`. -/
theorem test_step_dec :
    endsIn (start [0x082B] [(.a, 0x8000)] [] ⟨true, false, false, false, false⟩)
      [(.a, 0x7FFF)] [] true false false (some true) 0x0201 = true := by
  decide

/-- 95_test_vectors.md V52, `NEG A`. -/
theorem test_step_neg :
    endsIn (start [0x0819] [(.a, 0x8000)] [] ⟨false, false, false, false, false⟩)
      [] [] true false true (some true) 0x0201 = true := by
  decide

/-- 95_test_vectors.md V54, `MUL B`. -/
theorem test_step_mul_high_zero :
    endsIn (start [0x1017] [(.a, 0x0100), (.b, 0x0010), (.y, 0xAAAA)] [] ⟨true, true, false, true, false⟩)
      [(.a, 0x1000)] [] false true false (some false) 0x0201 = true := by
  decide

/-- 95_test_vectors.md V55, `MUL B`. -/
theorem test_step_mul :
    endsIn (start [0x1017] [(.a, 0xFFFF), (.b, 0xFFFF), (.y, 0x0000)] [] ⟨false, false, false, false, false⟩)
      [(.a, 0x0001), (.y, 0xFFFE)] [] true false false (some true) 0x0201 = true := by
  decide

/-- 95_test_vectors.md V59, `DIV B`. -/
theorem test_step_div :
    endsIn (start [0x1018] [(.a, 0x0007), (.y, 0x0000), (.b, 0x0002)] [] ⟨true, true, false, false, false⟩)
      [(.a, 0x0003), (.y, 0x0001)] [] true true false (some false) 0x0201 = true := by
  decide

/-- 95_test_vectors.md V64, `DIV B`. -/
theorem test_step_div_by_zero :
    endsIn (start [0x1018] [(.a, 0x1234), (.y, 0x0001), (.b, 0x0000), (.sp, 0x0000)] [(0x0000, 0x0600)] ⟨true, false, true, false, false⟩)
      [(.sp, 0xFFFE)] [(0xFFFE, 0x0201), (0xFFFF, 0x000A)] true false true (some false) 0x0600 = true := by
  decide

/-- 95_test_vectors.md V70, `AND A, B`. -/
theorem test_step_and :
    endsIn (start [0x1044] [(.a, 0xF0F0), (.b, 0xFF00)] [] ⟨true, false, false, true, false⟩)
      [(.a, 0xF000)] [] false false true (some false) 0x0201 = true := by
  decide

/-- 95_test_vectors.md V72, `OR A, B`. -/
theorem test_step_or :
    endsIn (start [0x1045] [(.a, 0x00F0), (.b, 0x0F00)] [] ⟨true, false, false, true, false⟩)
      [(.a, 0x0FF0)] [] false false false (some false) 0x0201 = true := by
  decide

/-- 95_test_vectors.md V75, `XOR A, 0xFFFF`. -/
theorem test_step_xor :
    endsIn (start [0xF866, 0xFFFF] [(.a, 0x00FF)] [] ⟨false, false, false, false, false⟩)
      [(.a, 0xFF00)] [] false false true (some false) 0x0202 = true := by
  decide

/-- 95_test_vectors.md V76, `TEST A, 0x8000`. -/
theorem test_step_test :
    endsIn (start [0xF84B, 0x8000] [(.a, 0x8001)] [] ⟨true, false, false, true, false⟩)
      [] [] false false true (some false) 0x0202 = true := by
  decide

/-- 95_test_vectors.md V79, `NOT [0x0300]`. -/
theorem test_step_not :
    endsIn (start [0xF01D, 0x0300] [] [(0x0300, 0xFFFF)] ⟨false, false, false, false, false⟩)
      [] [(0x0300, 0x0000)] false false false (some false) 0x0202 = true := by
  decide

/-- 95_test_vectors.md V90, `SHL A, 1`. -/
theorem test_step_shl_one :
    endsIn (start [0xF846, 0x0001] [(.a, 0x4000)] [] ⟨false, false, false, false, false⟩)
      [(.a, 0x8000)] [] false false true (some true) 0x0202 = true := by
  decide

/-- 95_test_vectors.md V94, `SHL A, 16`. -/
theorem test_step_shl_sixteen :
    endsIn (start [0xF846, 0x0010] [(.a, 0x0001)] [] ⟨false, false, false, false, false⟩)
      [(.a, 0x0000)] [] true true false none 0x0202 = true := by
  decide

/-- 95_test_vectors.md V97, `SAL A, 1`. -/
theorem test_step_sal :
    endsIn (start [0xF846, 0x0001] [(.a, 0xC000)] [] ⟨false, false, false, false, false⟩)
      [(.a, 0x8000)] [] true false true (some false) 0x0202 = true := by
  decide

/-- 95_test_vectors.md V98, `SHR A, 1`. -/
theorem test_step_shr_one :
    endsIn (start [0xF847, 0x0001] [(.a, 0x8001)] [] ⟨false, true, true, false, false⟩)
      [(.a, 0x4000)] [] true true true (some true) 0x0202 = true := by
  decide

/-- 95_test_vectors.md V101, `SHR A, 17`. -/
theorem test_step_shr_seventeen :
    endsIn (start [0xF847, 0x0011] [(.a, 0xFFFF)] [] ⟨true, false, false, false, false⟩)
      [(.a, 0x0000)] [] false false false none 0x0202 = true := by
  decide

/-- 95_test_vectors.md V104, `SAR A, 1`. -/
theorem test_step_sar_immediate_one :
    endsIn (start [0xF869, 0x0001] [(.a, 0x8001)] [] ⟨false, false, false, true, false⟩)
      [(.a, 0xC000)] [] true false true (some false) 0x0202 = true := by
  decide

/-- 95_test_vectors.md V108, `SAR A, 15`. -/
theorem test_step_sar_fifteen :
    endsIn (start [0xF869, 0x000F] [(.a, 0x8000)] [] ⟨false, false, false, false, false⟩)
      [(.a, 0xFFFF)] [] false false true none 0x0202 = true := by
  decide

/-- 95_test_vectors.md V124, `ROL A, 17`. -/
theorem test_step_rol :
    endsIn (start [0xF863, 0x0011] [(.a, 0x8001)] [] ⟨false, false, false, false, false⟩)
      [(.a, 0x0003)] [] true false false (some true) 0x0202 = true := by
  decide

/-- 95_test_vectors.md V130, `ROR A, 0x21`. -/
theorem test_step_ror :
    endsIn (start [0xF860, 0x0021] [(.a, 0x0003)] [] ⟨false, false, false, false, false⟩)
      [(.a, 0x8001)] [] true false false (some true) 0x0202 = true := by
  decide

/-- 95_test_vectors.md V136, `RCL A, 18`. -/
theorem test_step_rcl :
    endsIn (start [0xF867, 0x0012] [(.a, 0x4000)] [] ⟨true, false, false, false, false⟩)
      [(.a, 0x8001)] [] false false false (some true) 0x0202 = true := by
  decide

/-- 95_test_vectors.md V143, `RCR A, 35`. -/
theorem test_step_rcr :
    endsIn (start [0xF868, 0x0023] [(.a, 0x8000)] [] ⟨true, false, false, false, false⟩)
      [(.a, 0xC000)] [] false false false (some false) 0x0202 = true := by
  decide

/-- 95_test_vectors.md V152, `JMP [A]`. -/
theorem test_step_jmp :
    endsIn (start [0x480A] [(.a, 0x0300)] [(0x0300, 0x0ABC)] ⟨false, false, false, false, false⟩)
      [] [] false false false (some false) 0x0ABC = true := by
  decide

/-- 95_test_vectors.md V156, `CALL [SP]`. -/
theorem test_step_call :
    endsIn (start [0x7815] [(.sp, 0x0100)] [(0x0100, 0x0500)] ⟨false, false, false, false, false⟩)
      [(.sp, 0x00FF)] [(0x00FF, 0x0201)] false false false (some false) 0x0500 = true := by
  decide

/-- 95_test_vectors.md V157, `RET`. -/
theorem test_step_ret :
    endsIn (start [0x0016] [(.sp, 0xFFFF)] [(0xFFFF, 0x0203)] ⟨false, false, false, false, false⟩)
      [(.sp, 0x0000)] [] false false false (some false) 0x0203 = true := by
  decide

/-- 95_test_vectors.md V158, `RET 2`. -/
theorem test_step_ret_imm :
    endsIn (start [0xF816, 0x0002] [(.sp, 0xFFFD)] [(0xFFFD, 0x0250)] ⟨false, false, false, false, false⟩)
      [(.sp, 0x0000)] [] false false false (some false) 0x0250 = true := by
  decide

/-- 95_test_vectors.md V182, `SETL [X + 1]`. -/
theorem test_step_setl_three_words :
    endsIn (start [0xFD72, 0x000A, 0x0001] [(.x, 0x02FF)] [(0x0300, 0x7777)] ⟨false, false, true, false, false⟩)
      [] [(0x0300, 0x0001)] false false true (some false) 0x0203 = true := by
  decide

/-- 95_test_vectors.md V191, `NOP`. -/
theorem test_step_nop :
    endsIn (start [0x003F] [(.a, 0x0007)] [] ⟨true, false, false, true, false⟩)
      [] [] true false false (some true) 0x0201 = true := by
  decide

/-- 95_test_vectors.md V192, `HWI 0x0007`. -/
theorem test_step_hwi_no_device :
    endsIn (start [0xF809, 0x0007] [(.a, 0x0003)] [] ⟨false, false, false, false, false⟩)
      [] [] false false false (some false) 0x0202 = true := by
  decide

/-- 95_test_vectors.md V194, `HWQ B`. -/
theorem test_step_hwq_no_device :
    endsIn (start [0x101C] [(.b, 0x0005)] [] ⟨false, true, false, false, false⟩)
      [(.b, 0x0000)] [] false true false (some false) 0x0201 = true := by
  decide

/-- 95_test_vectors.md V195, `INT 3`. -/
theorem test_step_int :
    endsIn (start [0xF830, 0x0003] [(.sp, 0x0000)] [(0x0003, 0x0400)] ⟨false, true, false, false, false⟩)
      [(.sp, 0xFFFE)] [(0xFFFE, 0x0202), (0xFFFF, 0x0004)] false true false (some false) 0x0400 = true := by
  decide

/-- 95_test_vectors.md V197, `INT 0`. -/
theorem test_step_int_vector_overwritten :
    endsIn (start [0xF830, 0x0000] [(.sp, 0x0001)] [(0x0000, 0x0700)] ⟨false, false, false, false, false⟩)
      [(.sp, 0xFFFF)] [(0x0000, 0x0000), (0xFFFF, 0x0202)] false false false (some false) 0x0000 = true := by
  decide

/-- 95_test_vectors.md V198, `INTO`. -/
theorem test_step_into_clear :
    endsIn (start [0x0008] [(.sp, 0x0000)] [(0x0004, 0x0500)] ⟨false, false, false, false, false⟩)
      [] [] false false false (some false) 0x0201 = true := by
  decide

/-- 95_test_vectors.md V199, `INTO`. -/
theorem test_step_into_set :
    endsIn (start [0x0008] [(.sp, 0x0000)] [(0x0004, 0x0500)] ⟨false, false, true, true, false⟩)
      [(.sp, 0xFFFE)] [(0xFFFE, 0x0201), (0xFFFF, 0x0009)] false false true (some true) 0x0500 = true := by
  decide

/-- 95_test_vectors.md V200, `IRET`. -/
theorem test_step_iret :
    endsIn (start [0x0031] [(.sp, 0xFFFE)] [(0xFFFE, 0x0202), (0xFFFF, 0x0004)] ⟨true, false, true, false, false⟩)
      [(.sp, 0x0000)] [] false true false (some false) 0x0202 = true := by
  decide

/-! ## Conditions: the flag values (CF ZF SF OF, first is the highest bit) under which each holds, from the tables of
95_test_vectors.md sections 2.6 and 2.7 -/

theorem test_step_ja : taken [0xF82E, 0x0300] = [0, 1, 2, 3] := by decide

theorem test_step_jna : taken [0xF82F, 0x0300] = [4, 5, 6, 7, 8, 9, 10, 11, 12, 13, 14, 15] := by decide

theorem test_step_jc : taken [0xF821, 0x0300] = [8, 9, 10, 11, 12, 13, 14, 15] := by decide

theorem test_step_jnc : taken [0xF822, 0x0300] = [0, 1, 2, 3, 4, 5, 6, 7] := by decide

theorem test_step_jz : taken [0xF80E, 0x0300] = [4, 5, 6, 7, 12, 13, 14, 15] := by decide

theorem test_step_jnz : taken [0xF80D, 0x0300] = [0, 1, 2, 3, 8, 9, 10, 11] := by decide

theorem test_step_js : taken [0xF81A, 0x0300] = [2, 3, 6, 7, 10, 11, 14, 15] := by decide

theorem test_step_jns : taken [0xF81B, 0x0300] = [0, 1, 4, 5, 8, 9, 12, 13] := by decide

theorem test_step_jo : taken [0xF824, 0x0300] = [1, 3, 5, 7, 9, 11, 13, 15] := by decide

theorem test_step_jno : taken [0xF825, 0x0300] = [0, 2, 4, 6, 8, 10, 12, 14] := by decide

theorem test_step_jg : taken [0xF80F, 0x0300] = [0, 3, 8, 11] := by decide

theorem test_step_jge : taken [0xF810, 0x0300] = [0, 3, 4, 7, 8, 11, 12, 15] := by decide

theorem test_step_jl : taken [0xF811, 0x0300] = [1, 2, 5, 6, 9, 10, 13, 14] := by decide

theorem test_step_jle : taken [0xF812, 0x0300] = [1, 2, 4, 5, 6, 7, 9, 10, 12, 13, 14, 15] := by decide

theorem test_step_seta : setTo [0xF872, 0x0001] = [0, 1, 2, 3] := by decide

theorem test_step_setae : setTo [0xF872, 0x0002] = [0, 1, 2, 3, 4, 5, 6, 7] := by decide

theorem test_step_setbe : setTo [0xF872, 0x0003] = [4, 5, 6, 7, 8, 9, 10, 11, 12, 13, 14, 15] := by decide

theorem test_step_setb : setTo [0xF872, 0x0004] = [8, 9, 10, 11, 12, 13, 14, 15] := by decide

theorem test_step_sete : setTo [0xF872, 0x0005] = [4, 5, 6, 7, 12, 13, 14, 15] := by decide

theorem test_step_setne : setTo [0xF872, 0x0006] = [0, 1, 2, 3, 8, 9, 10, 11] := by decide

theorem test_step_setg : setTo [0xF872, 0x0007] = [0, 3, 8, 11] := by decide

theorem test_step_setge : setTo [0xF872, 0x0008] = [0, 3, 4, 7, 8, 11, 12, 15] := by decide

theorem test_step_setle : setTo [0xF872, 0x0009] = [1, 2, 4, 5, 6, 7, 9, 10, 12, 13, 14, 15] := by decide

theorem test_step_setl : setTo [0xF872, 0x000A] = [1, 2, 5, 6, 9, 10, 13, 14] := by decide

theorem test_step_sets : setTo [0xF872, 0x000B] = [2, 3, 6, 7, 10, 11, 14, 15] := by decide

theorem test_step_setns : setTo [0xF872, 0x000C] = [0, 1, 4, 5, 8, 9, 12, 13] := by decide

theorem test_step_seto : setTo [0xF872, 0x000D] = [1, 3, 5, 7, 9, 11, 13, 15] := by decide

theorem test_step_setno : setTo [0xF872, 0x000E] = [0, 2, 4, 6, 8, 10, 12, 14] := by decide
/-! ## Stops, devices and the tick -/

/-- V190: `BRK` sets the break flag. -/
theorem test_step_brk :
    (next (step (start [0x0000] [(.a, 7)] [] (flagsNumber 12)))).map (fun t => (t.regs.a, t.flags, t.ip)) =
      some (7, ⟨true, true, false, false, true⟩, 0x0201) := by decide

/-- R243: `INT 256` is an illegal encoding, in `exec` as in the decoder. -/
theorem test_exec_int_256 : faultOf (exec (.int 256) State.reset) = some (.illegalInstruction 0xF830) := by decide

/-- A state with a device of id 0x00AB at hardware address 9. -/
def withDevice : State := { State.reset with devices := [⟨9, 0x00AB, [1, 2]⟩] }

/-- R242: the id of the attached device. -/
theorem test_hwq_device : (next (exec (.hwq (.imm 9)) withDevice)).map (readReg .b) = some 0x00AB := by decide

/-- R241: an `HWI` to an attached device completes and changes no flag. -/
theorem test_hwi_device :
    (next (exec (.hwi (.imm 9)) withDevice)).map (fun t => (t.flags, t.ip)) = some (clear, 0x0202) := by
  simp only [exec, execHwi, sourceValue, withDevice, findDevice, if_true, next, Option.map_some, setIp_flags, deviceActs_flags,
    setIp_ip]
  rfl

/-- R290: the tick clears `BF` and sets `IP`; registers and RAM stay (log entry 20). -/
theorem test_step_tick :
    (next (step (setBreak true (start [0x003F] [(.a, 7)] [] clear)))).map (fun t => (t.regs.a, t.flags.bf, t.ip)) =
      some (7, false, 0x0200) := by decide

/-- R262, R295: `withFetchWord` puts an instruction where `step` fetches it. -/
theorem test_withFetchWord :
    (next (step (State.reset.withFetchWord 16 0x082A))).map (fun t => (t.regs.a, t.ip)) = some (1, 0x0201) ∧
    decodeTableWord 16 0x082A = some (.inc (.reg .a)) := by decide

/-! ## The parameters (00_scope.md R5, 70_reset_and_hazards.md R301) -/

/-- R21, R84, R89, R100 with other parameters: `INC A`, `MOV [1], 2` and `SETE B`, written out from the encoding. -/
theorem test_other_encoding :
    decodedBy otherEncoding [0x00AA] = some (.inc (.reg .a), []) ∧
    decodedBy otherEncoding [0xFF81, 1, 2] = some (.mov (.abs 1) (.imm 2), []) ∧
    decodedBy otherEncoding [0x2872] = some (.sete (.reg .b), []) := by decide

/-- R100: without `SETCC_SELECTOR` opcode 0x32 is refused, and nothing else. -/
theorem test_setcc_not_supplied :
    refusalOf (step (withoutSetcc [0xF8B2, 5])) = some .setccSelectorNotSupplied ∧
    (next (step (withoutSetcc [0x082A]))).map (readReg .a) = some 1 := by decide

/-- R94 with `ILLEGAL_POLICY = nop`: an unassigned opcode only moves `IP` by the length its selectors give. -/
theorem test_illegal_nop :
    (next (step (other [0x001E]))).map (fun t => (t.regs, t.ip)) = some ((other [0x001E]).regs, 0x0401) ∧
    (next (step (other [0xFF9E]))).map (fun t => (t.regs, t.ip)) = some ((other [0xFF9E]).regs, 0x0403) := by decide

/-- R262, R263 with another `IVT_BASE` and `INT_FRAME = ip-only`: `INT 3` in the destination field. -/
theorem test_other_interrupt :
    (next (step (writeRam 0x1003 0x0500 (other [0x07F0, 3])))).map (fun t => (t.ip, t.regs.sp, readRam 0x7FFF t)) =
      some (0x0500, 0x7FFF, 0x0402) := by decide

/-- R290 with another `TEXT_START` and an unconstrained host: `IP` and `BF` as the tick says, the rest open. -/
theorem test_other_tick :
    (tick (setBreak true (other []))).ip = 0x0400 ∧ (tick (setBreak true (other []))).flags.bf = false ∧
    (tick (setBreak true (other []))).parameters = otherParameters := ⟨rfl, rfl, by simp [tick, tickWith, other, hostSupplies]; rfl⟩

/-! ## Witnesses: states and operands that meet the hypotheses of the statements, and each of their clauses -/

/-- `Obligations.DecodeOfEncodeIsTheInstruction`: a well-formed `INT` at the end of its range, three words, and a `SETcc`,
with no parameter at its default. -/
theorem witness_DecodeOfEncode :
    otherEncoding.wf = true ∧ (Instr.int 255).encodable otherEncoding = true ∧
    (Instr.mov (.abs 1) (.imm 2)).encodable otherEncoding = true ∧ (Instr.setz (.reg .b)).encodable otherEncoding = true ∧
    encode otherEncoding (.mov (.abs 1) (.imm 2)) = [0xFF81, 1, 2] ∧ encode otherEncoding (.int 255) = [0x07F0, 255] ∧
    encode otherEncoding (.setz (.reg .b)) = [0x2872] := by decide

/-- `Obligations.EncodeOfDecodeIsTheWords`. -/
theorem witness_EncodeOfDecode :
    otherEncoding.wf = true ∧
    decodedBy otherEncoding [0xFF81, 1, 2, 7] = some (.mov (.abs 1) (.imm 2), [7]) := by decide

/-- `Obligations.LengthIsFixedByTheFirstWord`: one, two and three words, the longest with nothing after it. -/
theorem witness_LengthIsFixed :
    defaultEncoding.wf = true ∧
    decoded [0x082A, 5] = some (.inc (.reg .a), [5]) ∧ decoded [0xF809, 7, 5] = some (.hwi (.imm 7), [5]) ∧
    decoded [0xFF81, 2, 1] = some (.mov (.abs 1) (.imm 2), []) := by decide

/-- `Obligations.UnassignedOpcodesEncodeNothing`: first words at the edges of the unassigned opcodes, and assigned
opcodes beside them. -/
theorem witness_UnassignedOpcodes :
    opcodeField 0x001E = 30 ∧ opcodeField 0x0033 = 51 ∧ opcodeField 0x003E = 62 ∧ opcodeField 0x003F = 63 ∧
    (Instr.not (.reg .a)).parts.1 = 29 ∧ (Instr.xchg (.reg .a) (.reg .a)).parts.1 = 31 ∧
    (Instr.seta (.reg .a)).parts.1 = 50 ∧ Instr.nop.parts.1 = 63 ∧ Instr.brk.parts.1 = 0 := by decide

/-- A state about to run `MOV [0x0300], 7`, whose three words wrap past the top of RAM. -/
def atTop : State := storeAll [(0xFFFE, 0xFF81), (0xFFFF, 7), (0, 0x0300)] { State.reset with ip := 0xFFFE }

/-- `Obligations.StepExecutesTheDecodedInstruction`. -/
theorem witness_StepExecutesTheDecoded :
    atTop.flags.bf = false ∧ decoded (fetchWords atTop) = some (.mov (.abs 0x0300) (.imm 7), []) ∧
    (next (step atTop)).map (readRam 0x0300) = some 7 := by decide

/-- `Obligations.StepExecutesTheStoredInstruction`. -/
theorem witness_StepExecutesTheStored :
    atTop.flags.bf = false ∧ atTop.parameters.encoding.wf = true ∧
    (Instr.mov (.abs 0x0300) (.imm 7)).encodable atTop.parameters.encoding = true ∧
    encode atTop.parameters.encoding (.mov (.abs 0x0300) (.imm 7)) = [0xFF81, 7, 0x0300] ∧
    readRam (atTop.ip + BitVec.ofNat 16 0) atTop = 0xFF81 ∧ readRam (atTop.ip + BitVec.ofNat 16 1) atTop = 7 ∧
    readRam (atTop.ip + BitVec.ofNat 16 2) atTop = 0x0300 := by decide

/-- `Obligations.StepFaultsExactlyOnIllegalWords`: a state that steps, one that faults, one that goes on under the other
policy, and one that is refused, each with the flag clear and consistent parameters. -/
theorem witness_StepFaults :
    atTop.flags.bf = false ∧ faultsAt atTop = none ∧
    fetchWords atTop = encode atTop.parameters.encoding (.mov (.abs 0x0300) (.imm 7)) ++ [] ∧
    (start [0x001E] [] [] clear).flags.bf = false ∧
    faultsAt (start [0x001E] [] [] clear) = some (.illegalInstruction 0x001E) ∧
    (other [0x001E]).flags.bf = false ∧ (other [0x001E]).parameters.encoding.wf = true ∧ faultsAt (other [0x001E]) = none ∧
    (withoutSetcc [0x0032]).flags.bf = false ∧ (withoutSetcc [0x0032]).parameters.encoding.wf = true ∧
    opcodeField 0x0032 = 0x32 ∧ refusalOf (step (withoutSetcc [0x0032])) = some .setccSelectorNotSupplied := by decide

/-- `Obligations.ParametersAreTheHostsAndNeverChange`: an instruction and a step under parameters that are no defaults. -/
theorem witness_Parameters :
    (next (exec .pushf (other [0x002D]))).map (fun t => t.parameters) = some otherParameters ∧
    (next (step (other [0x002D]))).map (fun t => t.parameters) = some otherParameters := by decide

/-- `Obligations.ResetIsCanonical`: consistent parameters that are no defaults. -/
theorem witness_ResetIsCanonical : otherParameters.encoding.wf = true ∧ (State.start otherParameters).wf = true := by decide

/-- `Obligations.TickRestartsTheProgram` and the first clause of `Obligations.BreakFlagIsSetByBrkAndClearedByTheTick`. -/
theorem witness_Tick :
    (setBreak true atTop).flags.bf = true ∧ (setBreak true atTop).parameters.tickHost = .keeps := by decide

/-- The other clauses of `Obligations.BreakFlagIsSetByBrkAndClearedByTheTick`. -/
theorem witness_BreakFlag :
    (next (exec .brk atTop)).map (fun t => t.flags.bf) = some true ∧ (next (exec .nop atTop)).map (fun t => t.flags.bf) = some false ∧
    Instr.nop ≠ .brk := by decide

/-- `Obligations.StepKeepsTheCanonicalForm` and `Obligations.CanonicalMemoriesWithEqualWordsAreEqual`: listed cells at
both ends of RAM, one of them removed by the step. -/
theorem witness_StepKeepsTheCanonicalForm :
    (start [0xF781, 0x0400, 0xFFFF] [] [(0, 5), (0xFFFF, 0x0102)] clear).wf = true ∧
    (next (step (start [0xF781, 0x0400, 0xFFFF] [] [(0, 5), (0xFFFF, 0x0102)] clear))).map (fun t => (t.wf, readRam 0xFFFF t)) =
      some (true, 0) := by decide

/-- `Obligations.CanonicalMemoriesWithEqualWordsAreEqual`: the same words, written in two orders. -/
theorem witness_CanonicalMemories :
    (Memory.write (Memory.write [] 0xFFFF 0x0100) 0 7).wf = true ∧ (Memory.write (Memory.write [] 0 7) 0xFFFF 0x0100).wf = true ∧
    Memory.write (Memory.write [] 0xFFFF 0x0100) 0 7 = Memory.write (Memory.write [] 0 7) 0xFFFF 0x0100 := by decide

/-- `Obligations.AttachedDevicesNeverChange`: a step with a device attached (second clause), and an `HWI` to it (first). -/
theorem witness_AttachedDevices :
    (next (step (withDevice.withFetchWord 16 0x003F))).map (fun t => t.devices) = some withDevice.devices ∧
    (withDevice.withFetchWord 32 0x0009F809).flags.bf = false ∧
    decoded (fetchWords (withDevice.withFetchWord 32 0x0009F809)) = some (.hwi (.imm 9), [0]) ∧
    (∃ t, exec (.hwi (.imm 9)) (withDevice.withFetchWord 32 0x0009F809) = .next t) :=
  ⟨by decide, by decide, by decide, _, rfl⟩

/-- `Obligations.EveryInstructionChangesOnlyWhatItsRuleNames`: an instruction that stores, with the address it stores to. -/
theorem witness_EveryInstruction :
    (next (exec (.mov (.ind .b) (.imm 7)) (start [] [(.b, 0x0300)] [] clear))).map (readRam 0x0300) = some 7 ∧
    storeAddresses (.mov (.ind .b) (.imm 7)) (start [] [(.b, 0x0300)] [] clear) = [0x0300] ∧
    writtenRegs (.mov (.ind .b) (.imm 7)) (start [] [(.b, 0x0300)] [] clear) = [] := by decide

/-- `Obligations.FlaglessInstructionsKeepEveryFlag`: one that completes, and one that writes flags and is not meant. -/
theorem witness_Flagless :
    writesNoFlag (.not (.reg .a)) = true ∧
    (next (exec (.not (.reg .a)) (start [] [] [] (flagsNumber 15)))).map (fun t => t.flags) = some (flagsNumber 15) ∧
    writesNoFlag (.inc (.reg .a)) = false := by decide

/-- `Obligations.PopWritesThenIncrements`: both clauses. -/
theorem witness_Pop :
    resolve (.reg .sp) State.reset = .reg .sp ∧ resolve (.ind .sp) State.reset ≠ .reg .sp := by decide

/-- `Obligations.MulWritesTheProductToYA`: the largest product whose high word is 0, and the smallest whose is not. -/
theorem witness_Mul :
    (readReg .a (start [] [(.a, 0xFFFF)] [] clear)).toNat * (sourceValue (.imm 1) State.reset).toNat / 65536 = 0 ∧
    (readReg .a (start [] [(.a, 0x8000)] [] clear)).toNat * (sourceValue (.imm 2) State.reset).toNat / 65536 = 1 := by decide

/-- `Obligations.DivDividesYAOrEntersInterruptZero`: a zero divisor and the smallest other one. -/
theorem witness_Div : sourceValue (.imm 0) State.reset = 0 ∧ sourceValue (.imm 1) State.reset ≠ 0 := by decide

/-- `Obligations.AndOrXorStoreTheBitwiseResult`: the three clauses, told apart by their results. -/
theorem witness_AndOrXor :
    (next (exec (.and (.reg .a) (.imm 6)) (start [] [(.a, 12)] [] clear))).map (readReg .a) = some (12 &&& 6) ∧
    (next (exec (.or (.reg .a) (.imm 6)) (start [] [(.a, 12)] [] clear))).map (readReg .a) = some (12 ||| 6) ∧
    (next (exec (.xor (.reg .a) (.imm 6)) (start [] [(.a, 12)] [] clear))).map (readReg .a) = some (12 ^^^ 6) := by decide

/-- The rotates: counts 0, 1, 15, 16 and 17 reduce modulo 16 and modulo 17 to both sides of the clause for `OF`. -/
theorem witness_RotateCounts :
    [0, 1, 15, 16, 17, 18].map (fun n => decide ((sourceValue (.imm n) State.reset).toNat % 16 = 1)) =
      [false, true, false, false, true, false] ∧
    [0, 1, 15, 16, 17, 18].map (fun n => decide ((sourceValue (.imm n) State.reset).toNat % 17 = 1)) =
      [false, true, false, false, false, true] := by decide

/-- The shifts: each clause of the count at its edges (0; 1; 15, 16 and 17), and the immediate 1 of `SAR`. -/
theorem witness_ShiftCounts :
    [0, 1, 15, 16, 17].map (fun n => (next (exec (.shl (.reg .a) (.imm n)) (start [] [(.a, 3)] [] clear))).map
      (fun t => (t.regs.a, t.flags.cf))) =
      [some (3, false), some (6, false), some (0x8000, true), some (0, true), some (0, false)] ∧
    [0, 1, 15, 16, 17].map (fun n => (next (exec (.shr (.reg .a) (.imm n)) (start [] [(.a, 0xC000)] [] clear))).map
      (fun t => (t.regs.a, t.flags.cf))) =
      [some (0xC000, false), some (0x6000, false), some (1, true), some (0, true), some (0, false)] ∧
    [0, 1, 15, 16, 17].map (fun n => (next (exec (.sar (.reg .a) (.imm n)) (start [] [(.a, 0x8000)] [] clear))).map
      (fun t => (t.regs.a, t.flags.cf))) =
      [some (0x8000, false), some (0xC000, false), some (0xFFFF, false), some (0xFFFF, true), some (0xFFFF, true)] := by decide

/-- `Obligations.ShlAndSalShiftLeft`: both instructions, the same effect. -/
theorem witness_Sal :
    (next (exec (.sal (.reg .a) (.imm 1)) (start [] [(.a, 0x4000)] [] clear))).map (fun t => (t.regs.a, t.flags.of)) =
      some (0x8000, true) := by decide

/-- `Obligations.RetPopsTheReturnAddress`: both clauses, the amount at its ends. -/
theorem witness_Ret :
    (next (exec .ret (start [] [(.sp, 0xFFFF)] [(0xFFFF, 5)] clear))).map (fun t => (t.ip, t.regs.sp)) = some (5, 0) ∧
    (next (exec (.retImm 0) (start [] [(.sp, 0xFFFF)] [(0xFFFF, 5)] clear))).map (fun t => (t.ip, t.regs.sp)) = some (5, 0) ∧
    (next (exec (.retImm 0xFFFF) (start [] [(.sp, 1)] [(1, 5)] clear))).map (fun t => (t.ip, t.regs.sp)) = some (5, 1) := by decide

/-- `Obligations.JumpsAfterCmpCompareTheOperands`: -32768 and 32767 compare one way unsigned, the other way signed. -/
theorem witness_JumpsAfterCmp :
    ((next (exec (.cmp (.reg .a) (.imm 0x7FFF)) (start [] [(.a, 0x8000)] [] clear))).bind
      (fun t => next (exec (.ja (.imm 5)) t))).map (fun u => u.ip) = some 5 ∧
    ((next (exec (.cmp (.reg .a) (.imm 0x7FFF)) (start [] [(.a, 0x8000)] [] clear))).bind
      (fun t => next (exec (.jl (.imm 5)) t))).map (fun u => u.ip) = some 5 := by decide

/-- `Obligations.SetccOnCarryAndZero` and `Obligations.SetccOnSignAndOverflow`: a mnemonic and its synonym. -/
theorem witness_Setcc :
    (next (exec (.setnbe (.reg .b)) State.reset)).map (readReg .b) = some 1 ∧
    (next (exec (.setnge (.reg .b)) (start [] [] [] (flagsNumber 2)))).map (readReg .b) = some 1 := by decide

/-- `Obligations.HwiCompletesWithAndWithoutADevice` and `Obligations.HwqAnswersTheHardwareId`: no device, a device, and
another address. -/
theorem witness_Devices :
    findDevice (sourceValue (.imm 9) State.reset) State.reset.devices = none ∧
    findDevice (sourceValue (.imm 9) withDevice) withDevice.devices = some ⟨9, 0x00AB, [1, 2]⟩ ∧
    (8 : Word) ≠ sourceValue (.imm 9) withDevice := by decide

/-- `Obligations.IntEntersItsInterrupt`: both clauses at their edge, and vector 0. -/
theorem witness_Int :
    (255 : Word).toNat ≤ 255 ∧ ¬ (256 : Word).toNat ≤ 255 ∧
    (next (exec (.int 0) (start [] [] [(0, 0x0500)] clear))).map (fun t => t.ip) = some 0x0500 ∧
    State.reset.parameters.illegalPolicy = .fault ∧ State.reset.parameters.encoding.singleOperandField = .source ∧
    (other []).parameters.illegalPolicy = .nop ∧
    (next (exec (.int 256) (other []))).map (fun t => t.ip) = some 0x0402 := by decide

/-- `Obligations.IntoEntersInterruptFourOnOverflow`: both clauses. -/
theorem witness_Into : (flagsNumber 1).of = true ∧ (flagsNumber 14).of = false := by decide

/-- `Obligations.ReturnUndoesInterruptEntry`: both frames. -/
theorem witness_InterruptFrames :
    readReg .sp (enterInterrupt .flagsAndIp 3 0x0202 State.reset) = 0xFFFE ∧
    readReg .sp (enterInterrupt .ipOnly 3 0x0202 State.reset) = 0xFFFF := by decide

/-- `Obligations.IretPopsTheFrame`: both frames are some machine's. -/
theorem witness_Iret :
    State.reset.parameters.intFrame = .flagsAndIp ∧ (other []).parameters.intFrame = .ipOnly ∧
    (next (exec .iret (other []))).map (readReg .sp) = some 0x8001 := by decide

end Sys2Proof.Tests
end

section
/-! PROOFS. The statements of 30_encoding.md about lengths, unassigned opcodes and aliases (R85, R91, R92). -/

namespace Sys2Proof

/-! ## Decoding steps that answer (R84, R86, R89) -/

/-- A sequence of decoding steps answers exactly when each of them does. -/
theorem decodeBind_eq_ok {α β : Type} {x : Except DecodeError α} {f : α → Except DecodeError β} {b : β} :
    (x >>= f) = .ok b ↔ ∃ a, x = .ok a ∧ f a = .ok b := by
  cases x with
  | error r => exact ⟨nofun, nofun⟩
  | ok a => exact ⟨fun h => ⟨a, rfl, h⟩, fun ⟨_, ha, h⟩ => by cases ha; exact h⟩

theorem requireZero_eq_ok {sel : Nat} {u : Unit} : requireZero sel = .ok u ↔ sel = 0 := by
  unfold requireZero; split <;> simp [*]

theorem immediateOf_eq_ok {sel : Nat} {w n : Word} : immediateOf sel w = .ok n ↔ sel = 31 ∧ w = n := by
  unfold immediateOf; split <;> simp [*]

/-! ## What each row makes of an instruction's fields (R89, R90) -/

section Rows

variable {e : Config.Encoding} {ssel dsel : Nat} {sw dw : Word} {i : Instr}

theorem decodeRow_n0_ok {j : Instr} (h : decodeRow e (.n0 j) ssel dsel sw dw = .ok i) : ssel = 0 ∧ dsel = 0 ∧ j = i := by
  obtain ⟨_, hs, h⟩ := decodeBind_eq_ok.1 h
  obtain ⟨_, hd, h⟩ := decodeBind_eq_ok.1 h
  exact ⟨requireZero_eq_ok.1 hs, requireZero_eq_ok.1 hd, Except.ok.inj h⟩

theorem decodeRow_ds_ok {mk : Place → Source → Instr} (h : decodeRow e (.ds mk) ssel dsel sw dw = .ok i) :
    ∃ s d, sourceOf e ssel sw = .ok s ∧ placeOf e dsel dw = .ok d ∧ mk d s = i := by
  obtain ⟨s, hs, h⟩ := decodeBind_eq_ok.1 h
  obtain ⟨d, hd, h⟩ := decodeBind_eq_ok.1 h
  exact ⟨s, d, hs, hd, Except.ok.inj h⟩

theorem decodeRow_dd_ok {mk : Place → Place → Instr} (h : decodeRow e (.dd mk) ssel dsel sw dw = .ok i) :
    ∃ s d, placeOf e ssel sw = .ok s ∧ placeOf e dsel dw = .ok d ∧ mk d s = i := by
  obtain ⟨s, hs, h⟩ := decodeBind_eq_ok.1 h
  obtain ⟨d, hd, h⟩ := decodeBind_eq_ok.1 h
  exact ⟨s, d, hs, hd, Except.ok.inj h⟩

theorem decodeRow_s1_ok {mk : Source → Instr} (h : decodeRow e (.s1 mk) ssel dsel sw dw = .ok i) :
    (singleOperand e.singleOperandField ssel dsel).2 = 0 ∧
    ∃ s, sourceOf e (singleOperand e.singleOperandField ssel dsel).1 (singleOperand e.singleOperandField sw dw).1 = .ok s ∧
      mk s = i := by
  obtain ⟨_, hz, h⟩ := decodeBind_eq_ok.1 h
  obtain ⟨s, hs, h⟩ := decodeBind_eq_ok.1 h
  exact ⟨requireZero_eq_ok.1 hz, s, hs, Except.ok.inj h⟩

theorem decodeRow_d1_ok {mk : Place → Instr} (h : decodeRow e (.d1 mk) ssel dsel sw dw = .ok i) :
    (singleOperand e.singleOperandField ssel dsel).2 = 0 ∧
    ∃ d, placeOf e (singleOperand e.singleOperandField ssel dsel).1 (singleOperand e.singleOperandField sw dw).1 = .ok d ∧
      mk d = i := by
  obtain ⟨_, hz, h⟩ := decodeBind_eq_ok.1 h
  obtain ⟨d, hd, h⟩ := decodeBind_eq_ok.1 h
  exact ⟨requireZero_eq_ok.1 hz, d, hd, Except.ok.inj h⟩

/-- `RET` has no operand, or an immediate (R208). -/
theorem decodeRow_ret_ok (h : decodeRow e .ret ssel dsel sw dw = .ok i) :
    (singleOperand e.singleOperandField ssel dsel).2 = 0 ∧
    ((singleOperand e.singleOperandField ssel dsel).1 = 0 ∧ i = .ret ∨
      (singleOperand e.singleOperandField ssel dsel).1 = 31 ∧
        i = .retImm (singleOperand e.singleOperandField sw dw).1) := by
  unfold decodeRow at h
  generalize singleOperand e.singleOperandField ssel dsel = fields at h ⊢
  obtain ⟨_, hz, h⟩ := decodeBind_eq_ok.1 h
  refine ⟨requireZero_eq_ok.1 hz, ?_⟩
  split at h
  · next h0 => exact .inl ⟨h0, (Except.ok.inj h).symm⟩
  · obtain ⟨n, hn, h⟩ := decodeBind_eq_ok.1 h
    obtain ⟨h31, rfl⟩ := immediateOf_eq_ok.1 hn
    exact .inr ⟨h31, (Except.ok.inj h).symm⟩

/-- `INT` has an immediate in the range of the vector numbers (R243). -/
theorem decodeRow_int_ok (h : decodeRow e .int ssel dsel sw dw = .ok i) :
    (singleOperand e.singleOperandField ssel dsel).2 = 0 ∧ (singleOperand e.singleOperandField ssel dsel).1 = 31 ∧
    vectorInRange (singleOperand e.singleOperandField sw dw).1 = true ∧
    i = .int (singleOperand e.singleOperandField sw dw).1 := by
  unfold decodeRow at h
  generalize singleOperand e.singleOperandField sw dw = exts at h ⊢
  obtain ⟨_, hz, h⟩ := decodeBind_eq_ok.1 h
  obtain ⟨n, hn, h⟩ := decodeBind_eq_ok.1 h
  obtain ⟨h31, rfl⟩ := immediateOf_eq_ok.1 hn
  split at h
  · next hv => exact ⟨requireZero_eq_ok.1 hz, h31, hv, (Except.ok.inj h).symm⟩
  · cases h

/-- `SETcc` needs the parameter `SETCC_SELECTOR`, and a source field that names a condition by it (R100). -/
theorem decodeRow_setcc_ok (h : decodeRow e .setcc ssel dsel sw dw = .ok i) :
    ∃ codes c d, e.setccSelector = some codes ∧ conditionOf codes ssel sw = some c ∧ placeOf e dsel dw = .ok d ∧
      setccInstr c d = i := by
  simp only [decodeRow] at h
  split at h
  · cases h
  · next codes hc =>
    obtain ⟨d, hd, h⟩ := decodeBind_eq_ok.1 h
    split at h
    · next c hco => exact ⟨codes, c, d, hc, hco, hd, Except.ok.inj h⟩
    · cases h

end Rows

/-! ## The opcode map against an instruction's parts (R90, R92) -/

/-- The instructions of a row have this opcode, and their operands in the row's shape. -/
def Row.Fits (opc : Nat) : Row → Prop
  | .n0 i => i.parts = (opc, .n0)
  | .ds mk => ∀ d s, (mk d s).parts = (opc, .ds d s)
  | .dd mk => ∀ d s, (mk d s).parts = (opc, .ds d (.place s))
  | .s1 mk => ∀ s, (mk s).parts = (opc, .s1 s)
  | .d1 mk => ∀ d, (mk d).parts = (opc, .s1 (.place d))
  | .ret => Instr.ret.parts = (opc, .n0) ∧ ∀ n, (Instr.retImm n).parts = (opc, .s1 (.imm n))
  | .int => ∀ n, (Instr.int n).parts = (opc, .s1 (.imm n))
  | .setcc => ∀ c d, (setccInstr c d).parts = (opc, .cc c d)

theorem setccInstr_parts (c : Cond) (d : Place) : (setccInstr c d).parts = (0x32, .cc c d) := by cases c <;> rfl

/-- The decoder's map of opcodes and the encoder's agree, row by row. -/
theorem opcodeRow_fits {opc : Nat} {row : Row} (h : opcodeRow opc = some row) : row.Fits opc := by
  unfold opcodeRow at h
  split at h <;> cases h
  case h_50 => exact setccInstr_parts
  all_goals simp [Row.Fits, Instr.parts]

theorem opcodeRow_isNone_iff : ∀ opc < 64,
    ((opcodeRow opc).isNone = true ↔ opc = 30 ∨ (51 ≤ opc ∧ opc ≤ 62)) := by decide

/-- Every row has an instruction. -/
theorem Row.Fits.exists_instr {opc : Nat} {row : Row} (h : row.Fits opc) : ∃ i : Instr, i.parts.1 = opc := by
  cases row with
  | n0 i => exact ⟨i, congrArg Prod.fst h⟩
  | ds mk => exact ⟨_, congrArg Prod.fst (h (.abs 0) (.imm 0))⟩
  | dd mk => exact ⟨_, congrArg Prod.fst (h (.abs 0) (.abs 0))⟩
  | s1 mk => exact ⟨_, congrArg Prod.fst (h (.imm 0))⟩
  | d1 mk => exact ⟨_, congrArg Prod.fst (h (.abs 0))⟩
  | ret => exact ⟨_, congrArg Prod.fst h.1⟩
  | int => exact ⟨_, congrArg Prod.fst (h 0)⟩
  | setcc => exact ⟨_, congrArg Prod.fst (h .zero (.abs 0))⟩

/-! ## The whole decoder (R88) -/

/-- What it takes to decode: both selectors' extension words, a row for the opcode, and legal fields for the row. -/
theorem decode_eq_ok {e : Config.Encoding} {w0 : Word} {ws rest : List Word} {i : Instr} :
    decode e (w0 :: ws) = .ok (i, rest) ↔
      ∃ sw dw row, takeExts e.extWordOrder (sourceField w0) (destinationField w0) ws = .ok (sw, dw, rest) ∧
        opcodeRow (opcodeField w0) = some row ∧
        decodeRow e row (sourceField w0) (destinationField w0) sw dw = .ok i := by
  constructor
  · intro h
    obtain ⟨⟨sw, dw, rest'⟩, hx, h⟩ := decodeBind_eq_ok.1 h
    dsimp only at h
    split at h
    · cases h
    · next row hr =>
      obtain ⟨j, hj, h⟩ := decodeBind_eq_ok.1 h
      cases h
      exact ⟨sw, dw, row, hx, hr, hj⟩
  · rintro ⟨sw, dw, row, hx, hr, hj⟩
    refine decodeBind_eq_ok.2 ⟨_, hx, ?_⟩
    simp only [hr]
    exact decodeBind_eq_ok.2 ⟨i, hj, rfl⟩

/-! ## Lengths (R84, R85) -/

/-- How many extension words a selector calls for (R84). -/
def extCount (sel : Nat) : Nat := if needsWord sel then 1 else 0

theorem wordCount_eq (w0 : Word) :
    wordCount w0 = 1 + extCount (sourceField w0) + extCount (destinationField w0) := rfl

theorem extCount_zero : extCount 0 = 0 := rfl

theorem takeExt_length {sel : Nat} {ws rest : List Word} {w : Word} (h : takeExt sel ws = .ok (w, rest)) :
    ws.length = extCount sel + rest.length := by
  unfold takeExt at h
  unfold extCount
  split at h
  · next hn =>
    split at h <;> cases h
    rw [if_pos hn, List.length_cons, Nat.add_comm]
  · next hn =>
    cases h
    rw [if_neg hn, Nat.zero_add]

theorem takeExts_length {order : Config.ExtWordOrder} {ssel dsel : Nat} {ws rest : List Word} {sw dw : Word}
    (h : takeExts order ssel dsel ws = .ok (sw, dw, rest)) :
    ws.length = extCount ssel + extCount dsel + rest.length := by
  cases order with
  | sourceFirst =>
    obtain ⟨⟨sw', ws₁⟩, hs, h⟩ := decodeBind_eq_ok.1 h
    obtain ⟨⟨dw', ws₂⟩, hd, h⟩ := decodeBind_eq_ok.1 h
    cases h
    rw [takeExt_length hs, takeExt_length hd, Nat.add_assoc]
  | destinationFirst =>
    obtain ⟨⟨dw', ws₁⟩, hd, h⟩ := decodeBind_eq_ok.1 h
    obtain ⟨⟨sw', ws₂⟩, hs, h⟩ := decodeBind_eq_ok.1 h
    cases h
    rw [takeExt_length hd, takeExt_length hs]
    omega

theorem registerPlace_ext_length {e : Config.Encoding} {sel : Nat} {w : Word} {p : Place}
    (h : registerPlace e sel w = some p) : p.ext.length = extCount sel := by
  unfold registerPlace at h
  unfold extCount
  split_ifs at h with h8 h16 h24 <;> obtain ⟨r, -, rfl⟩ := Option.map_eq_some_iff.1 h
  · rw [needsWord_low (by omega)]; rfl
  · rw [needsWord_low h16]; rfl
  · rw [needsWord_idx (by omega) h24]; rfl

theorem placeOf_ext_length {e : Config.Encoding} {sel : Nat} {w : Word} {p : Place}
    (h : placeOf e sel w = .ok p) : p.ext.length = extCount sel := by
  unfold placeOf at h
  split_ifs at h with h0 h30 h31
  · cases h; subst h30; rfl
  · split at h <;> cases h
    next hp => exact registerPlace_ext_length hp

theorem sourceOf_ext_length {e : Config.Encoding} {sel : Nat} {w : Word} {o : Source}
    (h : sourceOf e sel w = .ok o) : o.ext.length = extCount sel := by
  unfold sourceOf at h
  split at h
  · next h31 => cases h; subst h31; rfl
  · cases hp : placeOf e sel w with
    | error r => rw [hp] at h; cases h
    | ok p => rw [hp] at h; cases h; exact placeOf_ext_length hp

theorem setccWords_length (e : Config.Encoding) (c : Cond) :
    (e.setccWords c).length = extCount (e.setccCode c).1 := by
  unfold Config.Encoding.setccWords extCount; split <;> rfl

/-- The operand's field and the unused one are the two fields of the first word, in either order. -/
theorem extCount_singleOperand (field : Config.OperandField) (ssel dsel : Nat) :
    extCount (singleOperand field ssel dsel).1 + extCount (singleOperand field ssel dsel).2 =
      extCount ssel + extCount dsel := by
  cases field with
  | source => rfl
  | destination => exact Nat.add_comm _ _

/-- An unused field is 0, so the operand's field alone calls for the words of the two. -/
theorem extCount_operand {field : Config.OperandField} {ssel dsel : Nat} (hz : (singleOperand field ssel dsel).2 = 0) :
    extCount (singleOperand field ssel dsel).1 = extCount ssel + extCount dsel := by
  rw [← extCount_singleOperand field, hz, extCount_zero, Nat.add_zero]

theorem Instr.length_of_parts {e : Config.Encoding} {i : Instr} {opc : Nat} {ops : Operands} (h : i.parts = (opc, ops)) :
    i.length e = ops.length e := by rw [Instr.length, h]

/-- The instruction a row answers is as long as the two fields say, whatever the row (R85). -/
theorem decodeRow_length {e : Config.Encoding} (he : e.wf = true) {opc : Nat} {row : Row} (hr : row.Fits opc)
    {ssel dsel : Nat} {sw dw : Word} {i : Instr} (h : decodeRow e row ssel dsel sw dw = .ok i) :
    i.length e = 1 + extCount ssel + extCount dsel := by
  cases row with
  | n0 j =>
    obtain ⟨rfl, rfl, rfl⟩ := decodeRow_n0_ok h
    exact Instr.length_of_parts hr
  | ds mk =>
    obtain ⟨s, d, hs, hd, rfl⟩ := decodeRow_ds_ok h
    rw [Instr.length_of_parts (hr d s), Operands.length, sourceOf_ext_length hs, placeOf_ext_length hd, Nat.add_right_comm]
  | dd mk =>
    obtain ⟨s, d, hs, hd, rfl⟩ := decodeRow_dd_ok h
    rw [Instr.length_of_parts (hr d s), Operands.length, Source.ext, placeOf_ext_length hs, placeOf_ext_length hd,
      Nat.add_right_comm]
  | s1 mk =>
    obtain ⟨hz, s, hs, rfl⟩ := decodeRow_s1_ok h
    rw [Instr.length_of_parts (hr s), Operands.length, sourceOf_ext_length hs, extCount_operand hz, Nat.add_assoc]
  | d1 mk =>
    obtain ⟨hz, d, hd, rfl⟩ := decodeRow_d1_ok h
    rw [Instr.length_of_parts (hr d), Operands.length, Source.ext, placeOf_ext_length hd, extCount_operand hz, Nat.add_assoc]
  | ret =>
    obtain ⟨hz, ⟨h0, rfl⟩ | ⟨h31, rfl⟩⟩ := decodeRow_ret_ok h
    · rw [Nat.add_assoc, ← extCount_operand hz, h0]; rfl
    · rw [Nat.add_assoc, ← extCount_operand hz, h31]; rfl
  | int =>
    obtain ⟨hz, h31, -, rfl⟩ := decodeRow_int_ok h
    rw [Nat.add_assoc, ← extCount_operand hz, h31]; rfl
  | setcc =>
    obtain ⟨codes, c, d, hc, hco, hd, rfl⟩ := decodeRow_setcc_ok h
    rw [Instr.length_of_parts (hr c d), Operands.length, setccWords_length, conditionOf_eq_some he hc hco,
      placeOf_ext_length hd]

/-- Settles O4: the words taken are those the two selectors call for, and every row's instruction has as many. -/
theorem lengthIsFixedByTheFirstWord : Obligations.LengthIsFixedByTheFirstWord := by
  intro e w0 ws i rest he h
  obtain ⟨sw, dw, row, hx, hr, hi⟩ := decode_eq_ok.1 h
  have hlen : i.length e = wordCount w0 := decodeRow_length he (opcodeRow_fits hr) hi
  have htaken : (w0 :: ws).length = wordCount w0 + rest.length := by
    rw [List.length_cons, takeExts_length hx, wordCount_eq]; omega
  obtain ⟨hmin, hmax⟩ := i.parts.2.length_bounds e
  exact ⟨hlen, hmin, hmax, hlen ▸ htaken⟩

/-- Settles O5: the opcodes without a row are 30 and 51 to 62, and a row names an instruction. -/
theorem unassignedOpcodesEncodeNothing : Obligations.UnassignedOpcodesEncodeNothing := by
  constructor
  · rintro e w0 ws ⟨i, rest⟩ hopc h
    obtain ⟨_, _, row, -, hr, -⟩ := decode_eq_ok.1 h
    have hnone := (opcodeRow_isNone_iff _ (Nat.mod_lt _ (by decide))).2 hopc
    rw [← opcodeField, hr] at hnone
    cases hnone
  · intro opc hlt h30 h51
    cases hr : opcodeRow opc with
    | none => exact absurd ((opcodeRow_isNone_iff opc hlt).1 (by rw [hr]; rfl)) (not_or.2 ⟨h30, h51⟩)
    | some row => exact (opcodeRow_fits hr).exists_instr

/-! ## Aliases (R91, R220) -/

/-- An aliased mnemonic has the opcode and the operands of the instruction it names. -/
theorem Instr.canonical_parts (i : Instr) : i.canonical.parts = i.parts := by cases i <;> rfl

theorem encode_canonical (e : Config.Encoding) (i : Instr) : encode e i.canonical = encode e i := by
  rw [encode, i.canonical_parts, encode]

end Sys2Proof

namespace Sys2Proof.Machine

/-- A `SETcc` means what its condition and its operand say, whatever its mnemonic (45_setcc.md R220). -/
theorem exec_of_setcc_parts {i : Instr} {c : Cond} {d : Place} (h : i.parts = (0x32, .cc c d)) (s : State) :
    exec i s = .next (storeCond c d s) := by
  cases i <;> cases h <;> rfl

/-- A `SETcc` synonym shares its condition with the mnemonic it names; `SAL` and `JAE` have the same meaning as `SHL` and
`JNC` written twice; every other instruction is its own name. -/
theorem exec_canonical (i : Instr) (s : State) : exec i.canonical s = exec i s := by
  cases i with
  | sal d c => exact show execShl d c s = execSal d c s from rfl
  | jae t => exact show execJnc t s = execJae t s from rfl
  | setnbe d | setnb d | setnc d | setna d | setc d | setnae d | setz d | setnz d | setnle d | setnl d | setng d
  | setnge d => exact (exec_of_setcc_parts rfl s).trans (exec_of_setcc_parts rfl s).symm
  | _ => rfl

/-- Settles O6: an aliased mnemonic has the parts of the instruction it names, so its words, and the same meaning. -/
theorem aliasesAreTheInstructionTheyName : Obligations.AliasesAreTheInstructionTheyName :=
  ⟨encode_canonical, exec_canonical, fun _ => rfl, fun _ _ => rfl, fun _ => rfl, fun _ => rfl, fun _ => rfl, fun _ => rfl,
    fun _ => rfl, fun _ => rfl, fun _ => rfl, fun _ => rfl, fun _ => rfl, fun _ => rfl, fun _ => rfl, fun _ => rfl⟩

end Sys2Proof.Machine
end

section
/-! PROOFS. The statements of 40_data_movement.md about MOV and XCHG (R120, R125). -/

namespace Sys2Proof.Machine

/-! ## Two places, and the instruction after two operands (R7, R87) -/

theorem readLoc_writeLoc_ne {l m : Loc} (v : Word) (s : State) (h : m ≠ l) :
    readLoc m (writeLoc l v s) = readLoc m s := by
  cases m with
  | reg r =>
    refine readReg_writeLoc_ne v s fun hr => h ?_
    cases l with
    | reg q => exact congrArg Loc.reg (List.mem_singleton.1 hr)
    | mem a => cases hr
  | mem a =>
    refine readRam_writeLoc_ne v s fun ha => h ?_
    cases l with
    | reg q => cases ha
    | mem b => exact congrArg Loc.mem (List.mem_singleton.1 ha)

theorem nextOf_of_ds_parts {i : Instr} {opc : Nat} {d : Place} {o : Source} (h : i.parts = (opc, .ds d o)) (s : State) :
    nextOf i s = nextAfterBoth d o s :=
  congrArg (nextIp · s) (Instr.length_of_parts h)

/-! ## MOV (R120) -/

theorem exec_mov (d : Place) (o : Source) (s : State) :
    exec (.mov d o) s = .next (setIp (nextAfterBoth d o s) (writeLoc (resolve d s) (sourceValue o s) s)) := rfl

/-- Settles O19: `MOV` is one write to the destination's place, which changes nothing else. -/
theorem movCopiesTheSource : Obligations.MovCopiesTheSource := by
  intro d o s
  refine ⟨rfl, _, exec_mov d o s, ?value, ?flags, ?ip, ?frame⟩
  case value => rw [readLoc_setIp, readLoc_writeLoc_same]
  case flags => rw [setIp_flags, writeLoc_flags]
  case ip => exact (nextOf_of_ds_parts rfl s).symm
  case frame => exact (writeLoc_only (resolve d s) (sourceValue o s) s).congr rfl rfl rfl

/-! ## XCHG (R125) -/

/-- The two writes of `XCHG`, on places resolved and values read before either of them. -/
def exchange (l m : Loc) (s : State) : State := writeLoc m (readLoc l s) (writeLoc l (readLoc m s) s)

theorem exec_xchg (d o : Place) (s : State) :
    exec (.xchg d o) s = .next (setIp (nextAfterBoth d (.place o) s) (exchange (resolve d s) (resolve o s) s)) := rfl

@[simp] theorem exchange_flags (l m : Loc) (s : State) : (exchange l m s).flags = s.flags := by simp [exchange]

theorem readLoc_exchange_second (l m : Loc) (s : State) : readLoc m (exchange l m s) = readLoc l s :=
  readLoc_writeLoc_same m _ _

/-- The second write leaves the first place alone, or the two are one place, whose own value is written back. -/
theorem readLoc_exchange_first (l m : Loc) (s : State) : readLoc l (exchange l m s) = readLoc m s := by
  by_cases hlm : l = m
  · subst hlm
    exact readLoc_exchange_second l l s
  · calc readLoc l (exchange l m s)
      _ = readLoc l (writeLoc l (readLoc m s) s) := readLoc_writeLoc_ne _ _ hlm
      _ = readLoc m s := readLoc_writeLoc_same _ _ _

theorem exchange_only (l m : Loc) (s : State) :
    OnlyChanges (l.regs ++ m.regs) (l.addresses ++ m.addresses) s (exchange l m s) :=
  (writeLoc_only l _ s).trans (writeLoc_only m _ _)

/-- Settles O24: `XCHG` is an exchange of the two resolved places, which may be the same one. -/
theorem xchgSwitchesTheOperands : Obligations.XchgSwitchesTheOperands := by
  intro d o s
  refine ⟨rfl, _, exec_xchg d o s, ?first, ?second, ?flags, ?ip, ?frame⟩
  case first => rw [readLoc_setIp, readLoc_exchange_first, placeValue]
  case second => rw [readLoc_setIp, readLoc_exchange_second, placeValue]
  case flags => rw [setIp_flags, exchange_flags]
  case ip => exact (nextOf_of_ds_parts rfl s).symm
  case frame => exact (exchange_only (resolve d s) (resolve o s) s).congr rfl rfl rfl

end Sys2Proof.Machine
end

section
/-! PROOFS. The statements of 42_logic.md (R160 to R165). -/

namespace Sys2Proof.Machine

/-! ## The logic flags (R160) -/

/-- `LogicFlags(r)` with each flag at its value. -/
theorem Flags.withLogic_eq (f : Flags) (r : Word) :
    f.withLogic r = { cf := false, zf := decide (r = 0), sf := r.bit 15, of := false, bf := f.bf } := rfl

/-! ## AND, OR, XOR (R161, R163, R165) -/

/-- What `AND`, `OR` and `XOR` make of their operands' values: the word the bitwise operation gives, and its flags. -/
def logicResult (op : Word → Word → Word) (dv sv : Word) (f : Flags) : ShiftResult :=
  ⟨op dv sv, f.withLogic (op dv sv)⟩

theorem exec_and (d : Place) (o : Source) (s : State) :
    exec (.and d o) s = .next (updateBoth d o (logicResult (· &&& ·)) s) := rfl

theorem exec_or (d : Place) (o : Source) (s : State) :
    exec (.or d o) s = .next (updateBoth d o (logicResult (· ||| ·)) s) := rfl

theorem exec_xor (d : Place) (o : Source) (s : State) :
    exec (.xor d o) s = .next (updateBoth d o (logicResult (· ^^^ ·)) s) := rfl

/-- The one argument for the three instructions: whatever the bitwise operation, the update stores its result with the
flags of R160 and changes nothing else. -/
theorem exec_logic_spec {i : Instr} {opc : Nat} {d : Place} {o : Source} {op : Word → Word → Word} {s : State}
    (hparts : i.parts = (opc, .ds d o)) (hexec : exec i s = .next (updateBoth d o (logicResult op) s)) :
    let r := op (placeValue d s) (sourceValue o s)
    ∃ t, exec i s = .next t ∧ readLoc (resolve d s) t = r ∧
      t.flags = { cf := false, zf := decide (r = 0), sf := r.bit 15, of := false, bf := s.flags.bf } ∧
      t.ip = nextOf i s ∧ OnlyChanges (resolve d s).regs (resolve d s).addresses s t := by
  obtain ⟨hvalue, hflags, hip, hframe⟩ := updateBoth_spec d o (logicResult op) s
  exact ⟨_, hexec, hvalue, hflags.trans (Flags.withLogic_eq _ _),
    hip.trans (nextOf_of_ds_parts hparts s).symm, hframe⟩

/-- Settles O32: `AND`, `OR` and `XOR` are the one update of R160 with three bitwise operations. -/
theorem andOrXorStoreTheBitwiseResult : Obligations.AndOrXorStoreTheBitwiseResult := by
  intro d o s
  refine ⟨rfl, rfl, rfl, ?_⟩
  rintro i r (⟨rfl, rfl⟩ | ⟨rfl, rfl⟩ | ⟨rfl, rfl⟩)
  · exact exec_logic_spec rfl (exec_and d o s)
  · exact exec_logic_spec rfl (exec_or d o s)
  · exact exec_logic_spec rfl (exec_xor d o s)

/-! ## TEST (R164) -/

theorem exec_test (d : Place) (o : Source) (s : State) :
    exec (.test d o) s = .next (compareBoth d o (fun dv sv f => f.withLogic (dv &&& sv)) s) := rfl

/-- Settles O33: `TEST` is the comparison whose flags are those of the bitwise and. -/
theorem testSetsTheFlagsOfTheAnd : Obligations.TestSetsTheFlagsOfTheAnd := by
  intro d o s
  obtain ⟨hflags, hip, hframe, -⟩ := compareBoth_spec d o (fun dv sv f => f.withLogic (dv &&& sv)) s
  exact ⟨rfl, _, exec_test d o s, hflags.trans (Flags.withLogic_eq _ _),
    hip.trans (nextOf_of_ds_parts rfl s).symm, hframe⟩

/-! ## NOT (R162) -/

theorem nextOf_of_s1_place_parts {i : Instr} {opc : Nat} {d : Place} (h : i.parts = (opc, .s1 (.place d))) (s : State) :
    nextOf i s = nextAfterPlace d s :=
  congrArg (nextIp · s) (Instr.length_of_parts h)

/-- R162 writes the one's complement as the exclusive or with `0xFFFF`, the word of sixteen ones. -/
theorem bit_xor_ones (v : Word) {k : Nat} (hk : k < 16) : Word.bit (v ^^^ 0xFFFF) k = !Word.bit v k := by
  calc Word.bit (v ^^^ 0xFFFF) k
    _ = (~~~v).getLsbD k := congrArg (BitVec.getLsbD · k) BitVec.xor_allOnes
    _ = !Word.bit v k := by simp [Word.bit, hk]

theorem exec_not (d : Place) (s : State) :
    exec (.not d) s = .next (updateOne d (fun v f => ⟨v ^^^ 0xFFFF, f⟩) s) := rfl

/-- Settles O34: `NOT` is the update of one place with the exclusive or of R162, which leaves the flags as they were. -/
theorem notInvertsEachBit : Obligations.NotInvertsEachBit := by
  intro d s
  obtain ⟨hvalue, hflags, hip, hframe⟩ := updateOne_spec d (fun v f => ⟨v ^^^ 0xFFFF, f⟩) s
  refine ⟨rfl, _, exec_not d s, fun k hk => ?_, hflags, hip.trans (nextOf_of_s1_place_parts rfl s).symm, hframe⟩
  rw [hvalue, bit_xor_ones _ hk]

end Sys2Proof.Machine
end

section
/-! PROOFS. The statements of 44_control_transfer.md about JMP and the conditional jumps (R190, R192 to R199, R201 to R207). -/

namespace Sys2Proof.Machine

/-! ## What a jump does (R190) -/

theorem nextOf_of_s1_parts {i : Instr} {opc : Nat} {o : Source} (h : i.parts = (opc, .s1 o)) (s : State) :
    nextOf i s = nextAfterSource o s :=
  congrArg (nextIp · s) (Instr.length_of_parts h)

/-- The one argument for every jump: an instruction with one operand whose meaning is `jumpWhen` has the effect of R190,
the address after the operand's words being the one after the instruction. -/
theorem jumpsIf_of_exec {p : Bool} {i : Instr} {opc : Nat} {o : Source} {s : State} (hparts : i.parts = (opc, .s1 o))
    (hexec : exec i s = .next (jumpWhen p o s)) : JumpsIf p i o s := by
  obtain ⟨hip, hflags, hframe⟩ := jumpWhen_spec p o s
  rw [← nextOf_of_s1_parts hparts s] at hip
  exact ⟨_, hexec, hip, hflags, hframe⟩

/-! ## JMP (R199) -/

theorem exec_jmp (t : Source) (s : State) : exec (.jmp t) s = .next (jumpWhen true t s) := rfl

/-- Settles O43: `JMP` is the jump that is always taken. -/
theorem jmpGoesToItsTarget : Obligations.JmpGoesToItsTarget :=
  fun o s => ⟨rfl, jumpsIf_of_exec rfl (exec_jmp o s)⟩

/-! ## The jumps on CF and ZF (R192 to R194, R201, R204, R207) -/

theorem exec_ja (t : Source) (s : State) :
    exec (.ja t) s = .next (jumpWhen (condHolds .above s.flags) t s) := rfl

theorem exec_jae (t : Source) (s : State) :
    exec (.jae t) s = .next (jumpWhen (condHolds .notCarry s.flags) t s) := rfl

theorem exec_jc (t : Source) (s : State) :
    exec (.jc t) s = .next (jumpWhen (condHolds .carry s.flags) t s) := rfl

theorem exec_jnc (t : Source) (s : State) :
    exec (.jnc t) s = .next (jumpWhen (condHolds .notCarry s.flags) t s) := rfl

theorem exec_jnz (t : Source) (s : State) :
    exec (.jnz t) s = .next (jumpWhen (condHolds .notZero s.flags) t s) := rfl

theorem exec_jz (t : Source) (s : State) :
    exec (.jz t) s = .next (jumpWhen (condHolds .zero s.flags) t s) := rfl

/-- Settles O44: each of the six is `jumpWhen` under its condition. The rules compare a flag with 0 or 1 where `condHolds`
negates it or reads it as it is, which `beq_false` and `beq_true` make the same. -/
theorem jumpsOnCarryAndZero : Obligations.JumpsOnCarryAndZero := by
  intro o s
  simp only [beq_false, beq_true]
  refine ⟨rfl, ?_, rfl, ?_, rfl, ?_, rfl, ?_, rfl, ?_, rfl, ?_⟩
  · exact jumpsIf_of_exec rfl (exec_ja o s)
  · exact jumpsIf_of_exec rfl (exec_jae o s)
  · exact jumpsIf_of_exec rfl (exec_jc o s)
  · exact jumpsIf_of_exec rfl (exec_jnc o s)
  · exact jumpsIf_of_exec rfl (exec_jnz o s)
  · exact jumpsIf_of_exec rfl (exec_jz o s)

/-! ## The jumps on SF, OF and ZF (R195 to R198, R202, R203, R205, R206) -/

theorem exec_jg (t : Source) (s : State) :
    exec (.jg t) s = .next (jumpWhen (condHolds .greater s.flags) t s) := rfl

theorem exec_jge (t : Source) (s : State) :
    exec (.jge t) s = .next (jumpWhen (condHolds .greaterEqual s.flags) t s) := rfl

theorem exec_jl (t : Source) (s : State) :
    exec (.jl t) s = .next (jumpWhen (condHolds .less s.flags) t s) := rfl

theorem exec_jle (t : Source) (s : State) :
    exec (.jle t) s = .next (jumpWhen (condHolds .lessEqual s.flags) t s) := rfl

theorem exec_jno (t : Source) (s : State) :
    exec (.jno t) s = .next (jumpWhen (condHolds .notOverflow s.flags) t s) := rfl

theorem exec_jns (t : Source) (s : State) :
    exec (.jns t) s = .next (jumpWhen (condHolds .notSign s.flags) t s) := rfl

theorem exec_jo (t : Source) (s : State) :
    exec (.jo t) s = .next (jumpWhen (condHolds .overflow s.flags) t s) := rfl

theorem exec_js (t : Source) (s : State) :
    exec (.js t) s = .next (jumpWhen (condHolds .sign s.flags) t s) := rfl

/-- Settles O45: each of the eight is `jumpWhen` under its condition, spelled as for O44. -/
theorem jumpsOnSignAndOverflow : Obligations.JumpsOnSignAndOverflow := by
  intro o s
  simp only [beq_false, beq_true]
  refine ⟨rfl, ?_, rfl, ?_, rfl, ?_, rfl, ?_, rfl, ?_, rfl, ?_, rfl, ?_, rfl, ?_⟩
  · exact jumpsIf_of_exec rfl (exec_jg o s)
  · exact jumpsIf_of_exec rfl (exec_jge o s)
  · exact jumpsIf_of_exec rfl (exec_jl o s)
  · exact jumpsIf_of_exec rfl (exec_jle o s)
  · exact jumpsIf_of_exec rfl (exec_jno o s)
  · exact jumpsIf_of_exec rfl (exec_jns o s)
  · exact jumpsIf_of_exec rfl (exec_jo o s)
  · exact jumpsIf_of_exec rfl (exec_js o s)

end Sys2Proof.Machine
end

section
/-! PROOFS. The statements of 46_system.md about HWQ and NOP (R242, R246). -/

namespace Sys2Proof.Machine

/-! ## HWQ (R242) -/

theorem exec_hwq_of_device {o : Source} {s : State} {dev : Device}
    (hdev : findDevice (sourceValue o s) s.devices = some dev) :
    exec (.hwq o) s = .next (setIp (nextAfterSource o s) (writeReg .b dev.id s)) := by
  change execHwq o s = _
  rw [execHwq, hdev]

theorem exec_hwq_of_no_device {o : Source} {s : State} (hdev : findDevice (sourceValue o s) s.devices = none) :
    exec (.hwq o) s = .next (setIp (nextAfterSource o s) (writeReg .b 0 s)) := by
  change execHwq o s = _
  rw [execHwq, hdev]

theorem writeReg_only (r : Reg) (v : Word) (s : State) : OnlyChanges [r] [] s (writeReg r v s) :=
  writeLoc_only (.reg r) v s

/-- The one argument for both answers of `HWQ`, a device's id and 0: `B` takes the word, and beside it `IP` alone moves. -/
theorem hwq_answers_of_exec {o : Source} {s : State} {id : Word}
    (hexec : exec (.hwq o) s = .next (setIp (nextAfterSource o s) (writeReg .b id s))) :
    ∃ t, exec (.hwq o) s = .next t ∧ readReg .b t = id ∧ t.flags = s.flags ∧ t.ip = nextOf (.hwq o) s ∧
      OnlyChanges [.b] [] s t := by
  refine ⟨_, hexec, ?id, ?flags, ?ip, ?frame⟩
  case id => rw [readReg_setIp, readReg_writeReg_same]
  case flags => rw [setIp_flags, writeReg_flags]
  case ip => rw [setIp_ip, nextOf_of_s1_parts rfl s]
  case frame => exact (writeReg_only .b id s).congr (setIp_regs _ _) (setIp_ram _ _) (setIp_devices _ _)

/-- Settles O54, by whether a device stands at the address, which is the operand's value before `B` is written. -/
theorem hwqAnswersTheHardwareId : Obligations.HwqAnswersTheHardwareId := by
  intro o s
  refine ⟨rfl, ?_⟩
  cases hdev : findDevice (sourceValue o s) s.devices with
  | none => exact hwq_answers_of_exec (exec_hwq_of_no_device hdev)
  | some dev => exact hwq_answers_of_exec (exec_hwq_of_device hdev)

/-! ## NOP (R246) -/

theorem exec_nop (s : State) : exec .nop s = .next (setIp (nextAfterNone s) s) := rfl

theorem nextAfterNone_eq (s : State) : nextAfterNone s = s.ip + 1 := rfl

/-- Settles O59: `NOP` writes `IP` alone, and the word after an instruction of one word is the next one. -/
theorem nopOnlyMovesOn : Obligations.NopOnlyMovesOn := by
  intro s
  refine ⟨rfl, ?_⟩
  rw [exec_nop, nextAfterNone_eq, setIp]

end Sys2Proof.Machine
end

section
/-! PROOFS. The round trip of the encoding (30_encoding.md R80 to R94, R100): the decoder and the encoder undo each other. -/

namespace Sys2Proof

/-! ## The two fields of the first word with their extension words (R81, R84, R89) -/

/-- A selector field of the first word, and the extension words its operand has. -/
structure SelectorField where
  sel : Nat
  ext : List Word

/-- The words a selector takes, given the word it reads (R84). -/
def extOf (sel : Nat) (w : Word) : List Word := if needsWord sel then [w] else []

/-- A field as the decoder can read it: its selector has five bits, and it has an extension word exactly where the selector
calls for one. -/
def SelectorField.Readable (f : SelectorField) : Prop := f.sel < 32 ∧ f.ext = extOf f.sel (extWord f.ext)

/-- The field of an unused operand (R89). -/
def SelectorField.unused : SelectorField := ⟨0, []⟩

def Place.field (e : Config.Encoding) (p : Place) : SelectorField := ⟨p.selector e, p.ext⟩

def Source.field (e : Config.Encoding) (o : Source) : SelectorField := ⟨o.selector e, o.ext⟩

/-- The field that names a condition of `SETcc` (R100). -/
def Cond.field (e : Config.Encoding) (c : Cond) : SelectorField := ⟨(e.setccCode c).1, e.setccWords c⟩

/-- An instruction's source field and destination field (R89, R100). -/
def Operands.fields (e : Config.Encoding) : Operands → SelectorField × SelectorField
  | .n0 => (.unused, .unused)
  | .s1 s => singleOperand e.singleOperandField (s.field e) .unused
  | .ds d s => (s.field e, d.field e)
  | .cc c d => (c.field e, d.field e)

/-- The words of an opcode with two fields: the first word, and the fields' extension words in the order of the parameter. -/
def fieldWords (e : Config.Encoding) (opc : Nat) (fs : SelectorField × SelectorField) : List Word :=
  firstWord fs.1.sel fs.2.sel opc :: orderExts e.extWordOrder fs.1.ext fs.2.ext

theorem orderExts_nil_right (order : Config.ExtWordOrder) (ws : List Word) : orderExts order ws [] = ws := by
  cases order <;> simp [orderExts]

theorem orderExts_nil_left (order : Config.ExtWordOrder) (ws : List Word) : orderExts order [] ws = ws := by
  cases order <;> simp [orderExts]

/-- Every shape of operands is written as its two fields are. -/
theorem encodeParts_eq_fieldWords (e : Config.Encoding) (opc : Nat) (ops : Operands) :
    encodeParts e opc ops = fieldWords e opc (ops.fields e) := by
  cases ops with
  | n0 => simp [encodeParts, fieldWords, Operands.fields, SelectorField.unused, orderExts_nil_left]
  | s1 s =>
    cases hf : e.singleOperandField <;>
      simp [encodeParts, fieldWords, Operands.fields, singleOperand, hf, SelectorField.unused, Source.field,
        orderExts_nil_left, orderExts_nil_right]
  | ds d s => rfl
  | cc c d => rfl

theorem encode_of_parts {e : Config.Encoding} {i : Instr} {opc : Nat} {ops : Operands} (h : i.parts = (opc, ops)) :
    encode e i = fieldWords e opc (ops.fields e) := by
  rw [encode, h, encodeParts_eq_fieldWords]

theorem SelectorField.readable_unused : SelectorField.unused.Readable := ⟨by decide, rfl⟩

theorem Place.readable_field {e : Config.Encoding} (h : e.wf = true) (p : Place) : (p.field e).Readable := by
  have := p.selector_bounds h
  exact ⟨by simp only [Place.field]; omega, p.ext_eq h⟩

theorem Source.readable_field {e : Config.Encoding} (h : e.wf = true) (o : Source) : (o.field e).Readable :=
  ⟨o.selector_lt h, o.ext_eq h⟩

/-- The word read for a condition is the one that names it, also where it has none (R100). -/
theorem extWord_setccWords {e : Config.Encoding} (h : e.wf = true) (c : Cond) :
    extWord (e.setccWords c) = (e.setccCode c).2 := by
  have hok := setccCode_ok h c
  simp only [conditionCodeOk, Bool.and_eq_true, Bool.or_eq_true, beq_iff_eq] at hok
  unfold Config.Encoding.setccWords
  split
  · rfl
  · next hn => exact (hok.2.resolve_left hn).symm

theorem Cond.readable_field {e : Config.Encoding} (h : e.wf = true) (c : Cond) : (c.field e).Readable := by
  refine ⟨setccSelector_lt h c, ?_⟩
  rw [Cond.field, extWord_setccWords h]
  rfl

theorem Operands.readable_fields {e : Config.Encoding} (h : e.wf = true) (ops : Operands) :
    (ops.fields e).1.Readable ∧ (ops.fields e).2.Readable := by
  cases ops with
  | n0 => exact ⟨SelectorField.readable_unused, SelectorField.readable_unused⟩
  | s1 s =>
    cases hf : e.singleOperandField <;> simp only [Operands.fields, singleOperand, hf]
    · exact ⟨s.readable_field h, SelectorField.readable_unused⟩
    · exact ⟨SelectorField.readable_unused, s.readable_field h⟩
  | ds d s => exact ⟨s.readable_field h, d.readable_field h⟩
  | cc c d => exact ⟨c.readable_field h, d.readable_field h⟩

/-! ## Extension words, taken and put back (R84) -/

/-- The decoder takes from the words after the first one what the two fields put there. -/
theorem takeExts_orderExts {f g : SelectorField} (hf : f.Readable) (hg : g.Readable) (order : Config.ExtWordOrder)
    (rest : List Word) :
    takeExts order f.sel g.sel (orderExts order f.ext g.ext ++ rest) = .ok (extWord f.ext, extWord g.ext, rest) := by
  cases order with
  | sourceFirst =>
    rw [orderExts, List.append_assoc]
    exact decodeBind_eq_ok.2 ⟨_, takeExt_words hf.2 _, decodeBind_eq_ok.2 ⟨_, takeExt_words hg.2 _, rfl⟩⟩
  | destinationFirst =>
    rw [orderExts, List.append_assoc]
    exact decodeBind_eq_ok.2 ⟨_, takeExt_words hg.2 _, decodeBind_eq_ok.2 ⟨_, takeExt_words hf.2 _, rfl⟩⟩

theorem takeExt_eq_ok {sel : Nat} {ws rest : List Word} {w : Word} (h : takeExt sel ws = .ok (w, rest)) :
    ws = extOf sel w ++ rest := by
  unfold takeExt at h
  unfold extOf
  split at h
  · next hn => split at h <;> cases h; rw [if_pos hn]; rfl
  · next hn => cases h; rw [if_neg hn]; rfl

theorem takeExts_eq_ok {order : Config.ExtWordOrder} {ssel dsel : Nat} {ws rest : List Word} {sw dw : Word}
    (h : takeExts order ssel dsel ws = .ok (sw, dw, rest)) :
    ws = orderExts order (extOf ssel sw) (extOf dsel dw) ++ rest := by
  cases order with
  | sourceFirst =>
    obtain ⟨⟨sw', ws₁⟩, hs, h⟩ := decodeBind_eq_ok.1 h
    obtain ⟨⟨dw', ws₂⟩, hd, h⟩ := decodeBind_eq_ok.1 h
    cases h
    rw [takeExt_eq_ok hs, takeExt_eq_ok hd, orderExts, List.append_assoc]
  | destinationFirst =>
    obtain ⟨⟨dw', ws₁⟩, hd, h⟩ := decodeBind_eq_ok.1 h
    obtain ⟨⟨sw', ws₂⟩, hs, h⟩ := decodeBind_eq_ok.1 h
    cases h
    rw [takeExt_eq_ok hd, takeExt_eq_ok hs, orderExts, List.append_assoc]

/-! ## From an instruction to its row (R90, R91) -/

/-- The row makes the instruction of these operands. -/
inductive Row.Makes : Instr → Row → Operands → Prop
  | n0 (i : Instr) : Makes i (.n0 i) .n0
  | ds (mk : Place → Source → Instr) (d : Place) (s : Source) : Makes (mk d s) (.ds mk) (.ds d s)
  | dd (mk : Place → Place → Instr) (d s : Place) : Makes (mk d s) (.dd mk) (.ds d (.place s))
  | s1 (mk : Source → Instr) (s : Source) : Makes (mk s) (.s1 mk) (.s1 s)
  | d1 (mk : Place → Instr) (d : Place) : Makes (mk d) (.d1 mk) (.s1 (.place d))
  | ret : Makes .ret .ret .n0
  | retImm (n : Word) : Makes (.retImm n) .ret (.s1 (.imm n))
  | int (n : Word) (h : vectorInRange n = true) : Makes (.int n) .int (.s1 (.imm n))
  | setcc (c : Cond) (d : Place) : Makes (setccInstr c d) .setcc (.cc c d)

/-- The row of a legal instruction's opcode makes, of its operands, the instruction itself or the one it names. -/
theorem Instr.exists_row {i : Instr} (hi : i.wellFormed = true) :
    ∃ row, opcodeRow i.parts.1 = some row ∧ Row.Makes i.canonical row i.parts.2 := by
  cases i with
  | int n => exact ⟨.int, rfl, .int n hi⟩
  | seta d | setnbe d => exact ⟨.setcc, rfl, .setcc .above d⟩
  | setae d | setnb d | setnc d => exact ⟨.setcc, rfl, .setcc .notCarry d⟩
  | setbe d | setna d => exact ⟨.setcc, rfl, .setcc .notAbove d⟩
  | setb d | setc d | setnae d => exact ⟨.setcc, rfl, .setcc .carry d⟩
  | sete d | setz d => exact ⟨.setcc, rfl, .setcc .zero d⟩
  | setne d | setnz d => exact ⟨.setcc, rfl, .setcc .notZero d⟩
  | setg d | setnle d => exact ⟨.setcc, rfl, .setcc .greater d⟩
  | setge d | setnl d => exact ⟨.setcc, rfl, .setcc .greaterEqual d⟩
  | setle d | setng d => exact ⟨.setcc, rfl, .setcc .lessEqual d⟩
  | setl d | setnge d => exact ⟨.setcc, rfl, .setcc .less d⟩
  | sets d => exact ⟨.setcc, rfl, .setcc .sign d⟩
  | setns d => exact ⟨.setcc, rfl, .setcc .notSign d⟩
  | seto d => exact ⟨.setcc, rfl, .setcc .overflow d⟩
  | setno d => exact ⟨.setcc, rfl, .setcc .notOverflow d⟩
  | _ => exact ⟨_, rfl, by constructor⟩

theorem Instr.opcode_lt (i : Instr) : i.parts.1 < 64 := by cases i <;> exact Nat.le_of_ble_eq_true rfl

/-- A row reads from an instruction's fields the instruction it makes of the operands (R86, R89, R100). -/
theorem decodeRow_fields {e : Config.Encoding} (he : e.wf = true) {row : Row} {i : Instr} {ops : Operands}
    (hmakes : Row.Makes i row ops) (hcc : ∀ c d, ops = .cc c d → e.setccSelector.isSome = true) :
    decodeRow e row (ops.fields e).1.sel (ops.fields e).2.sel (extWord (ops.fields e).1.ext) (extWord (ops.fields e).2.ext) =
      .ok i := by
  cases hmakes with
  | n0 => rfl
  | ds mk d s => exact decodeBind_eq_ok.2 ⟨s, sourceOf_selector he s, decodeBind_eq_ok.2 ⟨d, placeOf_selector he d, rfl⟩⟩
  | dd mk d s => exact decodeBind_eq_ok.2 ⟨s, placeOf_selector he s, decodeBind_eq_ok.2 ⟨d, placeOf_selector he d, rfl⟩⟩
  | s1 mk s =>
    have hs := sourceOf_selector he s
    cases hf : e.singleOperandField <;> simp only [Operands.fields, decodeRow, singleOperand, hf] <;>
      exact decodeBind_eq_ok.2 ⟨(), rfl, decodeBind_eq_ok.2 ⟨s, hs, rfl⟩⟩
  | d1 mk d =>
    have hd := placeOf_selector he d
    cases hf : e.singleOperandField <;> simp only [Operands.fields, decodeRow, singleOperand, hf] <;>
      exact decodeBind_eq_ok.2 ⟨(), rfl, decodeBind_eq_ok.2 ⟨d, hd, rfl⟩⟩
  | ret | retImm n =>
    cases hf : e.singleOperandField <;> simp only [Operands.fields, decodeRow, singleOperand, hf] <;> rfl
  | int n hn =>
    cases hf : e.singleOperandField <;> simp only [Operands.fields, decodeRow, singleOperand, hf] <;>
      exact decodeBind_eq_ok.2 ⟨(), rfl, decodeBind_eq_ok.2 ⟨n, rfl, if_pos hn⟩⟩
  | setcc c d =>
    obtain ⟨codes, hcodes⟩ := Option.isSome_iff_exists.1 (hcc c d rfl)
    have hco := conditionOf_setccCode he hcodes c
    simp only [Operands.fields, Cond.field, extWord_setccWords he, decodeRow, hcodes]
    refine decodeBind_eq_ok.2 ⟨d, placeOf_selector he d, ?_⟩
    simp only [hco]
    rfl

theorem Instr.opcode_of_cc {i : Instr} {opc : Nat} {c : Cond} {d : Place} (h : i.parts = (opc, .cc c d)) : opc = 0x32 := by
  cases i <;> cases h <;> rfl

theorem Instr.encodable_iff {e : Config.Encoding} {i : Instr} :
    i.encodable e = true ↔ i.wellFormed = true ∧ (i.parts.1 = 0x32 → e.setccSelector.isSome = true) := by
  by_cases h : i.parts.1 = 0x32 <;> simp [Instr.encodable, h]

/-- The decoder reads an instruction's words as the instruction they stand for. -/
theorem decode_encode {e : Config.Encoding} (he : e.wf = true) {i : Instr} (hi : i.encodable e = true) (rest : List Word) :
    decode e (encode e i ++ rest) = .ok (i.canonical, rest) := by
  obtain ⟨hwf, hcc⟩ := Instr.encodable_iff.1 hi
  obtain ⟨row, hrow, hmakes⟩ := Instr.exists_row hwf
  have hopc := i.opcode_lt
  generalize hparts : i.parts = parts at *
  obtain ⟨opc, ops⟩ := parts
  obtain ⟨hs, hd⟩ := ops.readable_fields he
  rw [encode_of_parts hparts, fieldWords, List.cons_append, decode_eq_ok, sourceField_firstWord hs.1 hd.1 hopc,
    destinationField_firstWord hs.1 hd.1 hopc, opcodeField_firstWord hs.1 hd.1 hopc]
  exact ⟨_, _, row, takeExts_orderExts hs hd _ rest, hrow,
    decodeRow_fields he hmakes fun c d h => hcc (Instr.opcode_of_cc (hparts.trans (by rw [h])))⟩

/-- Settles O1: each instruction has a row that makes it, the decoder finds that row by the opcode, and reads from the two
fields and their words the operands they were written from. -/
theorem decodeOfEncodeIsTheInstruction : Obligations.DecodeOfEncodeIsTheInstruction :=
  fun _ _ rest he hi => decode_encode he hi rest

/-! ## From words to an instruction (R82 to R86, R94) -/

theorem registerPlace_eq_some {e : Config.Encoding} (he : e.wf = true) {sel : Nat} {w : Word} {p : Place}
    (h : registerPlace e sel w = some p) : p.field e = ⟨sel, extOf sel w⟩ := by
  unfold registerPlace at h
  unfold extOf
  split_ifs at h with h8 h16 h24 <;> obtain ⟨r, hr, rfl⟩ := Option.map_eq_some_iff.1 h <;>
    simp only [Place.field, Place.selector, Place.ext, regOf_eq_some he hr, SelectorField.mk.injEq]
  · rw [needsWord_low (by omega)]; exact ⟨trivial, rfl⟩
  · rw [needsWord_low h16]; exact ⟨by omega, rfl⟩
  · rw [needsWord_idx (by omega) h24]; exact ⟨by omega, rfl⟩

theorem placeOf_eq_ok {e : Config.Encoding} (he : e.wf = true) {sel : Nat} {w : Word} {p : Place}
    (h : placeOf e sel w = .ok p) : p.field e = ⟨sel, extOf sel w⟩ := by
  unfold placeOf at h
  split_ifs at h with h0 h30 h31
  · cases h; subst h30; rfl
  · split at h <;> cases h
    next hp => exact registerPlace_eq_some he hp

theorem sourceOf_eq_ok {e : Config.Encoding} (he : e.wf = true) {sel : Nat} {w : Word} {o : Source}
    (h : sourceOf e sel w = .ok o) : o.field e = ⟨sel, extOf sel w⟩ := by
  unfold sourceOf at h
  split at h
  · next h31 => cases h; subst h31; rfl
  · cases hp : placeOf e sel w with
    | error r => rw [hp] at h; cases h
    | ok p => rw [hp] at h; cases h; exact placeOf_eq_ok he hp

theorem conditionOf_field {e : Config.Encoding} (he : e.wf = true) {codes : Config.SetccSelector}
    (hc : e.setccSelector = some codes) {ssel : Nat} {w : Word} {c : Cond} (hco : conditionOf codes ssel w = some c) :
    c.field e = ⟨ssel, extOf ssel w⟩ := by
  simp only [Cond.field, Config.Encoding.setccWords, conditionOf_eq_some he hc hco, extOf]

/-- The fields of a one-operand instruction are those read where the other field is unused. -/
theorem fields_of_singleOperand {e : Config.Encoding} {o : Source} {ssel dsel : Nat} {sw dw : Word}
    (hz : (singleOperand e.singleOperandField ssel dsel).2 = 0)
    (ho : o.field e = ⟨(singleOperand e.singleOperandField ssel dsel).1,
      extOf (singleOperand e.singleOperandField ssel dsel).1 (singleOperand e.singleOperandField sw dw).1⟩) :
    (Operands.s1 o).fields e = (⟨ssel, extOf ssel sw⟩, ⟨dsel, extOf dsel dw⟩) := by
  cases hf : e.singleOperandField <;> simp only [Operands.fields, singleOperand, hf] at hz ho ⊢ <;> subst hz <;>
    rw [ho] <;> rfl

/-- The instruction a row answers has the row's opcode, and, under consistent parameters, operands whose fields are those it
was read from. -/
theorem decodeRow_parts {e : Config.Encoding} {opc : Nat} {row : Row} (hr : row.Fits opc) {ssel dsel : Nat} {sw dw : Word}
    {i : Instr} (h : decodeRow e row ssel dsel sw dw = .ok i) :
    ∃ ops, i.parts = (opc, ops) ∧
      (e.wf = true → ops.fields e = (⟨ssel, extOf ssel sw⟩, ⟨dsel, extOf dsel dw⟩)) := by
  cases row with
  | n0 j =>
    obtain ⟨rfl, rfl, rfl⟩ := decodeRow_n0_ok h
    exact ⟨_, hr, fun _ => rfl⟩
  | ds mk =>
    obtain ⟨s, d, hs, hd, rfl⟩ := decodeRow_ds_ok h
    exact ⟨_, hr d s, fun he => Prod.ext (sourceOf_eq_ok he hs) (placeOf_eq_ok he hd)⟩
  | dd mk =>
    obtain ⟨s, d, hs, hd, rfl⟩ := decodeRow_dd_ok h
    exact ⟨_, hr d s, fun he => Prod.ext (placeOf_eq_ok he hs) (placeOf_eq_ok he hd)⟩
  | s1 mk =>
    obtain ⟨hz, s, hs, rfl⟩ := decodeRow_s1_ok h
    exact ⟨_, hr s, fun he => fields_of_singleOperand hz (sourceOf_eq_ok he hs)⟩
  | d1 mk =>
    obtain ⟨hz, d, hd, rfl⟩ := decodeRow_d1_ok h
    exact ⟨_, hr d, fun he => fields_of_singleOperand hz (placeOf_eq_ok he hd)⟩
  | ret =>
    obtain ⟨hz, ⟨h0, rfl⟩ | ⟨h31, rfl⟩⟩ := decodeRow_ret_ok h
    · refine ⟨.n0, hr.1, fun _ => ?_⟩
      cases hf : e.singleOperandField <;> simp only [singleOperand, hf] at hz h0 <;> subst hz h0 <;> rfl
    · exact ⟨_, hr.2 _, fun _ => fields_of_singleOperand hz (by rw [h31]; rfl)⟩
  | int =>
    obtain ⟨hz, h31, -, rfl⟩ := decodeRow_int_ok h
    exact ⟨_, hr _, fun _ => fields_of_singleOperand hz (by rw [h31]; rfl)⟩
  | setcc =>
    obtain ⟨codes, c, d, hc, hco, hd, rfl⟩ := decodeRow_setcc_ok h
    exact ⟨_, hr c d, fun he => Prod.ext (conditionOf_field he hc hco) (placeOf_eq_ok he hd)⟩

theorem Instr.wellFormed_of_opcode {i : Instr} (h : i.parts.1 ≠ 0x30) : i.wellFormed = true := by
  cases i with
  | int n => exact absurd rfl h
  | _ => rfl

/-- What the decoder answers is legal and has words: `INT`'s number was in range, and `SETCC_SELECTOR` was there to read a
`SETcc` by (R94, R100, R243). -/
theorem encodable_of_decodeRow {e : Config.Encoding} {opc : Nat} {row : Row} (hrow : opcodeRow opc = some row)
    {ssel dsel : Nat} {sw dw : Word} {i : Instr} (h : decodeRow e row ssel dsel sw dw = .ok i) : i.encodable e = true := by
  obtain ⟨ops, hparts, -⟩ := decodeRow_parts (opcodeRow_fits hrow) h
  obtain rfl : i.parts.1 = opc := congrArg Prod.fst hparts
  refine Instr.encodable_iff.2 ⟨?_, fun hcc => ?_⟩
  · by_cases hint : i.parts.1 = 0x30
    · rw [hint] at hrow
      cases hrow
      obtain ⟨-, -, hn, rfl⟩ := decodeRow_int_ok h
      exact hn
    · exact Instr.wellFormed_of_opcode hint
  · rw [hcc] at hrow
    cases hrow
    obtain ⟨codes, _, _, hc, -, -, -⟩ := decodeRow_setcc_ok h
    rw [hc]
    rfl

theorem encodable_of_decode {e : Config.Encoding} {ws rest : List Word} {i : Instr} (h : decode e ws = .ok (i, rest)) :
    i.encodable e = true := by
  cases ws with
  | nil => cases h
  | cons w0 ws =>
    obtain ⟨_, _, _, -, hrow, hi⟩ := decode_eq_ok.1 h
    exact encodable_of_decodeRow hrow hi

/-- Words that decode are those of the instruction they decode to, and what is left. -/
theorem eq_encode_of_decode {e : Config.Encoding} (he : e.wf = true) {ws rest : List Word} {i : Instr}
    (h : decode e ws = .ok (i, rest)) : ws = encode e i ++ rest := by
  cases ws with
  | nil => cases h
  | cons w0 ws =>
    obtain ⟨sw, dw, row, hx, hrow, hi⟩ := decode_eq_ok.1 h
    obtain ⟨ops, hparts, hfields⟩ := decodeRow_parts (opcodeRow_fits hrow) hi
    rw [encode_of_parts hparts, hfields he, fieldWords, firstWord_fields, takeExts_eq_ok hx, List.cons_append]

/-- Settles O2: the words are those of the instruction, so by O1 they decode to the one it names, which is then the
instruction itself. -/
theorem encodeOfDecodeIsTheWords : Obligations.EncodeOfDecodeIsTheWords := by
  intro e ws i rest he h
  have hi := encodable_of_decode h
  have hws := eq_encode_of_decode he h
  refine ⟨hi, ?_, hws⟩
  rw [hws, decode_encode he hi] at h
  exact congrArg Prod.fst (Except.ok.inj h)

/-! ## The worked encodings (30_encoding.md section 9) -/

/-- Settles O3, by decoding each of the thirteen lists of words. -/
theorem workedEncodingsDecode : Obligations.WorkedEncodingsDecode :=
  ⟨rfl, rfl, rfl, rfl, rfl, rfl, rfl, rfl, rfl, rfl, rfl, rfl, rfl⟩

end Sys2Proof
end

section
/-! PROOFS. What one step does (30_encoding.md R88, R94, R100): it runs the instruction at `IP`, or rejects the words
there. -/

namespace Sys2Proof.Machine

/-! ## The instruction at `IP` (R88) -/

theorem fetch_eq_ok {s : State} {i : Instr} :
    fetch s = .ok i ↔ ∃ rest, decode s.parameters.encoding (fetchWords s) = .ok (i, rest) := by
  unfold fetch
  cases decode s.parameters.encoding (fetchWords s) with
  | error why => simp [Except.map]
  | ok r => obtain ⟨j, rest⟩ := r; simp [Except.map]

theorem fetch_eq_error {s : State} {why : DecodeError} :
    fetch s = .error why ↔ decode s.parameters.encoding (fetchWords s) = .error why := by
  unfold fetch
  cases decode s.parameters.encoding (fetchWords s) <;> simp [Except.map]

theorem step_of_break {s : State} (h : s.flags.bf = true) : step s = .next (tick s) := by
  rw [step, if_pos h]

theorem step_of_fetch {s : State} {i : Instr} (h : s.flags.bf = false) (hf : fetch s = .ok i) : step s = exec i s := by
  rw [step, h, if_neg Bool.false_ne_true, hf]

theorem step_of_rejected {s : State} {why : DecodeError} (h : s.flags.bf = false) (hf : fetch s = .error why) :
    step s = rejectFetched why s := by
  rw [step, h, if_neg Bool.false_ne_true, hf]

/-- The three kinds of step: the tick, an instruction's meaning, and the rejection of what stands at `IP`. -/
theorem step_cases (s : State) :
    (s.flags.bf = true ∧ step s = .next (tick s)) ∨
    (s.flags.bf = false ∧ ∃ i, fetch s = .ok i ∧ step s = exec i s) ∨
    (s.flags.bf = false ∧ ∃ why, fetch s = .error why ∧ step s = rejectFetched why s) := by
  cases hb : s.flags.bf with
  | true => exact .inl ⟨rfl, step_of_break hb⟩
  | false =>
    cases hf : fetch s with
    | ok i => exact .inr (.inl ⟨rfl, i, rfl, step_of_fetch hb hf⟩)
    | error why => exact .inr (.inr ⟨rfl, why, rfl, step_of_rejected hb hf⟩)

/-- Settles O7. -/
theorem stepExecutesTheDecodedInstruction : Obligations.StepExecutesTheDecodedInstruction :=
  fun _ _ rest hb hd => step_of_fetch hb (fetch_eq_ok.2 ⟨rest, hd⟩)

/-! ## An instruction that stands in RAM (R80, R88) -/

theorem fetchWords_getElem? {s : State} {k : Nat} (hk : k < 3) :
    (fetchWords s)[k]? = some (readRam (s.ip + BitVec.ofNat 16 k) s) := by
  match k, hk with
  | 0, _ => exact congrArg (fun a => some (readRam a s)) (BitVec.add_zero s.ip).symm
  | 1, _ => rfl
  | 2, _ => rfl

/-- The three words fetched begin with an instruction's words where RAM holds those from `IP` on. -/
theorem encode_isPrefix_fetchWords {s : State} {i : Instr}
    (h : ∀ (k : Nat) (w : Word), (encode s.parameters.encoding i)[k]? = some w →
      readRam (s.ip + BitVec.ofNat 16 k) s = w) : encode s.parameters.encoding i <+: fetchWords s := by
  rw [List.prefix_iff_getElem?]
  intro k hk
  have hlen : (encode s.parameters.encoding i).length ≤ 3 := by
    rw [encode, encodeParts_length]; exact (i.parts.2.length_bounds _).2
  rw [fetchWords_getElem? (by omega), h k _ (List.getElem?_eq_getElem hk)]

/-- Settles O8: the words at `IP` decode to the instruction, or to the one it names, which has the same meaning. -/
theorem stepExecutesTheStoredInstruction : Obligations.StepExecutesTheStoredInstruction := by
  intro s i hb he hi hram
  obtain ⟨rest, hrest⟩ := encode_isPrefix_fetchWords hram
  have hfetch : fetch s = .ok i.canonical := fetch_eq_ok.2 ⟨rest, hrest ▸ decode_encode he hi rest⟩
  rw [step_of_fetch hb hfetch, exec_canonical]

/-! ## The instructions whose meaning has cases (R145, R147, R241, R243, R244) -/

theorem exec_int_of_out_of_range {n : Word} (h : vectorInRange n = false) (s : State) :
    exec (.int n) s = illegalEncoding ((encode s.parameters.encoding (.int n)).headD 0) s := by
  change execInt n s = _
  rw [execInt, h, if_neg Bool.false_ne_true]

theorem exec_int_of_in_range {n : Word} (h : vectorInRange n = true) (s : State) :
    exec (.int n) s = .next (takeInterrupt n (nextIp 2 s) s) := by
  change execInt n s = _
  rw [execInt, if_pos h]

theorem exec_div_of_zero {o : Source} {s : State} (h : sourceValue o s = 0) :
    exec (.div o) s = .next (takeInterrupt 0 (nextAfterSource o s) s) := by
  change execDiv o s = _
  rw [execDiv, h]
  rfl

/-- The dividend of `DIV`, `Y:A` (R145). -/
def dividend (s : State) : Nat := (readReg .y s).toNat * 65536 + (readReg .a s).toNat

/-- `DIV` by a divisor that is not 0: the remainder goes to `Y` after the quotient has gone to `A` (R145). -/
theorem exec_div_of_ne_zero {o : Source} {s : State} (h : sourceValue o s ≠ 0) :
    exec (.div o) s = .next (setIp (nextAfterSource o s)
      (writeReg .y (BitVec.ofNat 16 (dividend s % (sourceValue o s).toNat))
        (writeReg .a (BitVec.ofNat 16 (dividend s / (sourceValue o s).toNat)) s))) := by
  change execDiv o s = _
  have hn : (sourceValue o s).toNat ≠ 0 := fun e => h (BitVec.eq_of_toNat_eq e)
  rw [execDiv, if_neg hn]
  rfl

theorem exec_into_of_overflow {s : State} (h : s.flags.of = true) :
    exec .into s = .next (takeInterrupt 4 (nextAfterNone s) s) := by
  change execInto s = _
  rw [execInto, if_pos h]

theorem exec_into_of_no_overflow {s : State} (h : s.flags.of = false) :
    exec .into s = .next (setIp (nextAfterNone s) s) := by
  change execInto s = _
  rw [execInto, h, if_neg Bool.false_ne_true]

theorem exec_hwi_of_device {o : Source} {s : State} {dev : Device}
    (hdev : findDevice (sourceValue o s) s.devices = some dev) :
    exec (.hwi o) s = .next (setIp (nextAfterSource o s) (deviceActs dev s)) := by
  change execHwi o s = _
  rw [execHwi, hdev]

theorem exec_hwi_of_no_device {o : Source} {s : State} (hdev : findDevice (sourceValue o s) s.devices = none) :
    exec (.hwi o) s = .next (setIp (nextAfterSource o s) s) := by
  change execHwi o s = _
  rw [execHwi, hdev]

/-- The high word of `MUL`'s product (R147). -/
def mulHigh (o : Source) (s : State) : Word := BitVec.ofNat 16 ((readReg .a s).toNat * (sourceValue o s).toNat / 2 ^ 16)

/-- The low word of `MUL`'s product (R147). -/
def mulLow (o : Source) (s : State) : Word := BitVec.ofNat 16 ((readReg .a s).toNat * (sourceValue o s).toNat)

theorem exec_mul_of_low {o : Source} {s : State} (h : mulHigh o s = 0) :
    exec (.mul o) s = .next (setIp (nextAfterSource o s)
      (writeReg .a (mulLow o s) (setFlags (s.flags.withHighWord (mulHigh o s)) s))) := by
  change execMul o s = _
  unfold execMul
  dsimp only
  rw [← mulHigh, if_pos h, mulLow]

theorem exec_mul_of_high {o : Source} {s : State} (h : mulHigh o s ≠ 0) :
    exec (.mul o) s = .next (setIp (nextAfterSource o s)
      (writeReg .a (mulLow o s) (writeReg .y (mulHigh o s) (setFlags (s.flags.withHighWord (mulHigh o s)) s)))) := by
  change execMul o s = _
  unfold execMul
  dsimp only
  rw [← mulHigh, if_neg h, mulLow]

/-! ## What completes and what stops (R94, R100, R243) -/

/-- Every legal instruction completes, in every state. -/
theorem exec_completes {i : Instr} (hi : i.wellFormed = true) (s : State) : ∃ t, exec i s = .next t := by
  cases i with
  | int n => exact ⟨_, exec_int_of_in_range hi s⟩
  | div o =>
    by_cases hz : sourceValue o s = 0
    · exact ⟨_, exec_div_of_zero hz⟩
    · exact ⟨_, exec_div_of_ne_zero hz⟩
  | hwi o =>
    cases hdev : findDevice (sourceValue o s) s.devices with
    | none => exact ⟨_, exec_hwi_of_no_device hdev⟩
    | some dev => exact ⟨_, exec_hwi_of_device hdev⟩
  | hwq o =>
    cases hdev : findDevice (sourceValue o s) s.devices with
    | none => exact ⟨_, exec_hwq_of_no_device hdev⟩
    | some dev => exact ⟨_, exec_hwq_of_device hdev⟩
  | into =>
    cases hov : s.flags.of with
    | true => exact ⟨_, exec_into_of_overflow hov⟩
    | false => exact ⟨_, exec_into_of_no_overflow hov⟩
  | _ => exact ⟨_, rfl⟩

/-! ## Why nothing decodes: opcode 0x32 without `SETCC_SELECTOR` (R100) -/

/-- A decoding step that does not fail for want of `SETCC_SELECTOR`. -/
def NeedsNoSelector {α : Type} (x : Except DecodeError α) : Prop := x ≠ .error .setccSelectorNotSupplied

theorem NeedsNoSelector.bind {α β : Type} {x : Except DecodeError α} {f : α → Except DecodeError β}
    (hx : NeedsNoSelector x) (hf : ∀ a, NeedsNoSelector (f a)) : NeedsNoSelector (x >>= f) := by
  cases x with
  | error r => exact fun h => hx (congrArg _ (Except.error.inj h))
  | ok a => exact hf a

theorem NeedsNoSelector.ok {α : Type} (a : α) : NeedsNoSelector (.ok a) := nofun

theorem requireZero_needsNoSelector (sel : Nat) : NeedsNoSelector (requireZero sel) := by
  unfold requireZero; split <;> exact nofun

theorem immediateOf_needsNoSelector (sel : Nat) (w : Word) : NeedsNoSelector (immediateOf sel w) := by
  unfold immediateOf; split <;> exact nofun

theorem placeOf_needsNoSelector (e : Config.Encoding) (sel : Nat) (w : Word) : NeedsNoSelector (placeOf e sel w) := by
  unfold placeOf
  split_ifs
  · exact nofun
  · exact nofun
  · exact nofun
  · split <;> exact nofun

theorem sourceOf_needsNoSelector (e : Config.Encoding) (sel : Nat) (w : Word) : NeedsNoSelector (sourceOf e sel w) := by
  unfold sourceOf
  split
  · exact nofun
  · have hp := placeOf_needsNoSelector e sel w
    cases h : placeOf e sel w with
    | error r => rw [h] at hp; exact fun he => hp (congrArg _ (Except.error.inj he))
    | ok p => exact nofun

theorem takeExt_needsNoSelector (sel : Nat) (ws : List Word) : NeedsNoSelector (takeExt sel ws) := by
  unfold takeExt
  split
  · split <;> exact nofun
  · exact nofun

theorem takeExts_needsNoSelector (order : Config.ExtWordOrder) (ssel dsel : Nat) (ws : List Word) :
    NeedsNoSelector (takeExts order ssel dsel ws) := by
  cases order <;>
    exact (takeExt_needsNoSelector _ _).bind fun _ => (takeExt_needsNoSelector _ _).bind fun _ => .ok _

/-- `SETcc` is the one row that needs `SETCC_SELECTOR`. -/
theorem decodeRow_needsNoSelector {e : Config.Encoding} {row : Row} (h : row ≠ .setcc ∨ e.setccSelector ≠ none)
    (ssel dsel : Nat) (sw dw : Word) : NeedsNoSelector (decodeRow e row ssel dsel sw dw) := by
  cases row with
  | n0 i => exact (requireZero_needsNoSelector _).bind fun _ => (requireZero_needsNoSelector _).bind fun _ => .ok _
  | ds mk => exact (sourceOf_needsNoSelector _ _ _).bind fun _ => (placeOf_needsNoSelector _ _ _).bind fun _ => .ok _
  | dd mk => exact (placeOf_needsNoSelector _ _ _).bind fun _ => (placeOf_needsNoSelector _ _ _).bind fun _ => .ok _
  | s1 mk => exact (requireZero_needsNoSelector _).bind fun _ => (sourceOf_needsNoSelector _ _ _).bind fun _ => .ok _
  | d1 mk => exact (requireZero_needsNoSelector _).bind fun _ => (placeOf_needsNoSelector _ _ _).bind fun _ => .ok _
  | ret =>
    unfold decodeRow
    generalize singleOperand e.singleOperandField ssel dsel = fields
    refine (requireZero_needsNoSelector _).bind fun _ => ?_
    split
    · exact .ok _
    · exact (immediateOf_needsNoSelector _ _).bind fun _ => .ok _
  | int =>
    refine (requireZero_needsNoSelector _).bind fun _ => (immediateOf_needsNoSelector _ _).bind fun _ => ?_
    split <;> exact nofun
  | setcc =>
    obtain ⟨codes, hc⟩ := Option.ne_none_iff_exists'.1 (h.resolve_left (absurd rfl))
    simp only [decodeRow, hc]
    refine (placeOf_needsNoSelector _ _ _).bind fun _ => ?_
    split <;> exact nofun

theorem opcodeRow_eq_setcc_iff {opc : Nat} : opcodeRow opc = some .setcc ↔ opc = 0x32 := by
  refine ⟨fun h => ?_, fun h => h ▸ rfl⟩
  have hfits := opcodeRow_fits h .zero (.abs 0)
  exact (congrArg Prod.fst hfits).symm

/-- Words that fail for want of `SETCC_SELECTOR` begin with opcode 0x32, and it was not supplied. -/
theorem opcode_of_selector_missing {e : Config.Encoding} {w0 : Word} {ws : List Word}
    (h : decode e (w0 :: ws) = .error .setccSelectorNotSupplied) : opcodeField w0 = 0x32 ∧ e.setccSelector = none := by
  by_contra hnot
  refine (takeExts_needsNoSelector _ _ _ _).bind (f := _) (fun x => ?_) h
  dsimp only
  split
  · exact nofun
  · next row hrow =>
    refine NeedsNoSelector.bind (decodeRow_needsNoSelector ?_ _ _ _ _) fun _ => .ok _
    by_cases hnone : e.setccSelector = none
    · refine .inl fun hsetcc => hnot ⟨opcodeRow_eq_setcc_iff.1 (hsetcc ▸ hrow), hnone⟩
    · exact .inr hnone

theorem takeExt_completes (sel : Nat) (w : Word) (ws : List Word) :
    ∃ v rest, takeExt sel (w :: ws) = .ok (v, rest) ∧ ws.length ≤ rest.length := by
  unfold takeExt
  split
  · exact ⟨w, ws, rfl, le_rfl⟩
  · exact ⟨0, w :: ws, rfl, Nat.le_succ _⟩

/-- Two words are enough for the extension words of any two selectors. -/
theorem takeExts_completes (order : Config.ExtWordOrder) (ssel dsel : Nat) (w1 w2 : Word) :
    ∃ r, takeExts order ssel dsel [w1, w2] = .ok r := by
  have two (sel sel' : Nat) : ∃ v rest v' rest', takeExt sel [w1, w2] = .ok (v, rest) ∧
      takeExt sel' rest = .ok (v', rest') := by
    obtain ⟨v, rest, h, hlen⟩ := takeExt_completes sel w1 [w2]
    obtain ⟨w, ws, rfl⟩ := List.exists_cons_of_length_pos hlen
    obtain ⟨v', rest', h', -⟩ := takeExt_completes sel' w ws
    exact ⟨v, _, v', rest', h, h'⟩
  cases order with
  | sourceFirst =>
    obtain ⟨v, rest, v', rest', h, h'⟩ := two ssel dsel
    exact ⟨_, decodeBind_eq_ok.2 ⟨_, h, decodeBind_eq_ok.2 ⟨_, h', rfl⟩⟩⟩
  | destinationFirst =>
    obtain ⟨v, rest, v', rest', h, h'⟩ := two dsel ssel
    exact ⟨_, decodeBind_eq_ok.2 ⟨_, h, decodeBind_eq_ok.2 ⟨_, h', rfl⟩⟩⟩

/-- Whatever follows it, opcode 0x32 decodes to nothing where `SETCC_SELECTOR` is not supplied. -/
theorem decode_setcc_without_selector {e : Config.Encoding} {w0 w1 w2 : Word} (hopc : opcodeField w0 = 0x32)
    (hnone : e.setccSelector = none) : decode e [w0, w1, w2] = .error .setccSelectorNotSupplied := by
  obtain ⟨⟨sw, dw, rest⟩, hx⟩ := takeExts_completes e.extWordOrder (sourceField w0) (destinationField w0) w1 w2
  simp only [decode, hx, hopc, opcodeRow_eq_setcc_iff.2 rfl, decodeRow, hnone]
  rfl

/-! ## The rejection of what stands at `IP` (R94, R100) -/

theorem rejectFetched_of_ne {why : DecodeError} (h : why ≠ .setccSelectorNotSupplied) (s : State) :
    rejectFetched why s = illegalEncoding (readRam s.ip s) s := by
  cases why with
  | setccSelectorNotSupplied => exact absurd rfl h
  | _ => rfl

theorem fetch_selector_missing_iff {s : State} :
    fetch s = .error .setccSelectorNotSupplied ↔
      opcodeField (readRam s.ip s) = 0x32 ∧ s.parameters.encoding.setccSelector = none := by
  rw [fetch_eq_error]
  exact ⟨opcode_of_selector_missing, fun ⟨hopc, hnone⟩ => decode_setcc_without_selector hopc hnone⟩

/-- A fetched instruction completes. -/
theorem step_completes_of_fetch {s : State} {i : Instr} (hb : s.flags.bf = false) (hf : fetch s = .ok i) :
    ∃ t, step s = .next t := by
  obtain ⟨rest, hd⟩ := fetch_eq_ok.1 hf
  rw [step_of_fetch hb hf]
  exact exec_completes (Instr.encodable_iff.1 (encodable_of_decode hd)).1 s

/-- The two ways a step can stop: opcode 0x32 without `SETCC_SELECTOR`, and an illegal encoding under the policy `fault`. -/
theorem step_stop_cases {s : State} (h : ∀ t, step s ≠ .next t) :
    s.flags.bf = false ∧
    ((step s = .refused .setccSelectorNotSupplied ∧ opcodeField (readRam s.ip s) = 0x32 ∧
        s.parameters.encoding.setccSelector = none) ∨
      (step s = .fault (.illegalInstruction (readRam s.ip s)) ∧ s.parameters.illegalPolicy = .fault)) := by
  obtain ⟨-, hstep⟩ | ⟨hb, i, hf, -⟩ | ⟨hb, why, hf, hrej⟩ := step_cases s
  · exact absurd hstep (h _)
  · obtain ⟨t, ht⟩ := step_completes_of_fetch hb hf
    exact absurd ht (h t)
  · refine ⟨hb, ?_⟩
    by_cases hwhy : why = .setccSelectorNotSupplied
    · subst hwhy
      exact .inl ⟨hrej, fetch_selector_missing_iff.1 hf⟩
    · rw [rejectFetched_of_ne hwhy] at hrej
      obtain ⟨hpol, hill⟩ | ⟨-, hill⟩ := illegalEncoding_spec (readRam s.ip s) s
      · exact .inr ⟨hrej.trans hill, hpol⟩
      · exact absurd (hrej.trans hill) (h _)

/-- Under consistent parameters, an instruction is fetched exactly where the words at `IP` begin with its own. -/
theorem fetch_ok_iff_legal {s : State} (he : s.parameters.encoding.wf = true) :
    (∃ i, fetch s = .ok i) ↔ ∃ (i : Instr) (rest : List Word), i.encodable s.parameters.encoding = true ∧
      fetchWords s = encode s.parameters.encoding i ++ rest := by
  constructor
  · rintro ⟨i, hf⟩
    obtain ⟨rest, hd⟩ := fetch_eq_ok.1 hf
    exact ⟨i, rest, encodable_of_decode hd, eq_encode_of_decode he hd⟩
  · rintro ⟨i, rest, hi, hwords⟩
    have hd := decode_encode he hi rest
    rw [← hwords] at hd
    exact ⟨i.canonical, fetch_eq_ok.2 ⟨rest, hd⟩⟩

/-- Settles O9: legal words are fetched, and what is fetched completes; other words are rejected, for want of
`SETCC_SELECTOR` exactly at opcode 0x32 without it, and else by `ILLEGAL_POLICY`. -/
theorem stepFaultsExactlyOnIllegalWords : Obligations.StepFaultsExactlyOnIllegalWords := by
  refine ⟨fun s hb he => ⟨fun hlegal => ?legal, fun hillegal => ?illegal⟩, fun s f hstep => ?fault,
    fun s r hstep => ?refused⟩
  case legal =>
    obtain ⟨i, hf⟩ := (fetch_ok_iff_legal he).2 hlegal
    exact step_completes_of_fetch hb hf
  case illegal =>
    cases hf : fetch s with
    | ok i => exact absurd ((fetch_ok_iff_legal he).1 ⟨i, hf⟩) hillegal
    | error why =>
      rw [step_of_rejected hb hf]
      split
      · next hcc =>
        rw [fetch_selector_missing_iff.2 hcc] at hf
        cases hf
        rfl
      · next hcc =>
        rw [rejectFetched_of_ne fun hwhy => hcc (fetch_selector_missing_iff.1 (hwhy ▸ hf)), illegalEncoding]
        split <;> simp only [*]
  case fault =>
    obtain ⟨hb, ⟨hr, -⟩ | ⟨hf, hpol⟩⟩ := step_stop_cases (s := s) fun t ht => by rw [hstep] at ht; cases ht
    · rw [hstep] at hr; cases hr
    · rw [hstep] at hf; exact ⟨Host.Outcome.fault.inj hf, hpol, hb⟩
  case refused =>
    obtain ⟨hb, ⟨hr, hopc, hnone⟩ | ⟨hf, -⟩⟩ := step_stop_cases (s := s) fun t ht => by rw [hstep] at ht; cases ht
    · rw [hstep] at hr; exact ⟨Host.Outcome.refused.inj hr, hnone, hopc, hb⟩
    · rw [hstep] at hf; cases hf

end Sys2Proof.Machine
end

section
/-! PROOFS. What every instruction and every step keeps: one induction over the instructions, and the statements that follow
from it (00_scope.md R5, 10_state.md R22, R34, 20_memory.md R55, 30_encoding.md R90). -/

namespace Sys2Proof.Machine

/-! ## The operations an instruction may use -/

/-- The relation `R` of states holds across each operation that instruction `i` may use when it starts from `s`: it writes
the registers and RAM words that `writtenRegs` and `storeAddresses` name, flags where its row names one, and a device
under `HWI`. -/
structure Permits (i : Instr) (s : State) (R : State → State → Prop) : Prop where
  refl : ∀ u, R u u
  trans : ∀ {u v w}, R u v → R v w → R u w
  setIp : ∀ t u, R u (setIp t u)
  draw : ∀ u, R u (drawFlag u).2
  setFlags : writesNoFlag i = false → ∀ f u, R u (setFlags f u)
  writeReg : ∀ r ∈ writtenRegs i s, ∀ v u, R u (writeReg r v u)
  writeRam : ∀ a ∈ storeAddresses i s, ∀ v u, R u (writeRam a v u)
  device : (∃ o, i = .hwi o) → ∀ dev u, R u (deviceActs dev u)

namespace Permits

variable {i : Instr} {s : State} {R : State → State → Prop}

theorem writeLoc (h : Permits i s R) {l : Loc} (hr : l.regs ⊆ writtenRegs i s) (ha : l.addresses ⊆ storeAddresses i s)
    (v : Word) (u : State) : R u (writeLoc l v u) := by
  cases l with
  | reg r => exact h.writeReg r (hr (List.mem_singleton.2 rfl)) v u
  | mem a => exact h.writeRam a (ha (List.mem_singleton.2 rfl)) v u

theorem writeDestination (h : Permits i s R) {d : Place} (hr : writtenRegs i s = (resolve d s).regs)
    (ha : storeAddresses i s = (resolve d s).addresses) (v : Word) (u : State) : R u (Machine.writeLoc (resolve d s) v u) :=
  h.writeLoc (hr ▸ List.Subset.refl _) (ha ▸ List.Subset.refl _) v u

theorem push (h : Permits i s R) (hr : .sp ∈ writtenRegs i s) {u : State} (ha : readReg .sp u - 1 ∈ storeAddresses i s)
    (v : Word) : R u (push v u) :=
  h.trans (h.writeReg .sp hr _ u) (h.writeRam _ ha v _)

theorem dropWords (h : Permits i s R) (hr : .sp ∈ writtenRegs i s) (n : Word) (u : State) : R u (dropWords n u) :=
  h.writeReg .sp hr _ u

theorem knownOrDrawn (h : Permits i s R) (known : Option Bool) (u : State) : R u (knownOrDrawn known u).2 := by
  cases known with
  | some b => exact h.refl u
  | none => exact h.draw u

theorem updateBoth (h : Permits i s R) {d : Place} (hf : writesNoFlag i = false) (hr : writtenRegs i s = (resolve d s).regs)
    (ha : storeAddresses i s = (resolve d s).addresses) (o : Source) (f : Word → Word → Flags → ShiftResult) :
    R s (updateBoth d o f s) :=
  h.trans (h.trans (h.writeDestination hr ha _ s) (h.setFlags hf _ _)) (h.setIp _ _)

theorem updateOne (h : Permits i s R) {d : Place} (hf : writesNoFlag i = false) (hr : writtenRegs i s = (resolve d s).regs)
    (ha : storeAddresses i s = (resolve d s).addresses) (f : Word → Flags → ShiftResult) : R s (updateOne d f s) :=
  h.trans (h.trans (h.writeDestination hr ha _ s) (h.setFlags hf _ _)) (h.setIp _ _)

theorem compareBoth (h : Permits i s R) (hf : writesNoFlag i = false) (d : Place) (o : Source)
    (f : Word → Word → Flags → Flags) : R s (compareBoth d o f s) :=
  h.trans (h.setFlags hf _ _) (h.setIp _ _)

theorem shiftBoth (h : Permits i s R) {d : Place} (hf : writesNoFlag i = false) (hr : writtenRegs i s = (resolve d s).regs)
    (ha : storeAddresses i s = (resolve d s).addresses) (c : Source) (known : Word → Nat → Option Bool)
    (f : Word → Nat → Flags → Bool → ShiftResult) : R s (shiftBoth d c known f s) := by
  unfold Machine.shiftBoth
  dsimp only
  split
  · exact h.setIp _ s
  · exact h.trans (h.trans (h.trans (h.knownOrDrawn _ s) (h.writeDestination hr ha _ _))
      (h.setFlags hf _ _)) (h.setIp _ _)

theorem storeCond (h : Permits i s R) {d : Place} (hr : writtenRegs i s = (resolve d s).regs)
    (ha : storeAddresses i s = (resolve d s).addresses) (c : Cond) : R s (storeCond c d s) :=
  h.trans (h.writeDestination hr ha _ s) (h.setIp _ _)

theorem takeInterrupt (h : Permits i s R) (hr : .sp ∈ writtenRegs i s) (ha : storeAddresses i s = interruptAddresses s)
    (n ret : Word) : R s (takeInterrupt n ret s) := by
  unfold Machine.takeInterrupt enterInterrupt
  unfold interruptAddresses at ha
  cases hframe : s.parameters.intFrame with
  | ipOnly =>
    simp only [hframe] at ha
    exact h.trans (h.push hr (by simp [ha]) ret) (h.setIp _ _)
  | flagsAndIp =>
    simp only [hframe] at ha
    have hsp : readReg .sp (Machine.push (flagsWord s.flags) s) - 1 = readReg .sp s - 2 := by
      rw [(push_spec _ s).1, sub_two]
    exact h.trans (h.trans (h.push hr (by simp [ha]) _) (h.push hr (by rw [hsp, ha]; simp) ret)) (h.setIp _ _)

theorem returnFromInterrupt (h : Permits i s R) (hf : writesNoFlag i = false) (hr : .sp ∈ writtenRegs i s) :
    R s (returnFromInterrupt s) := by
  unfold Machine.returnFromInterrupt leaveInterrupt
  split
  · exact h.trans (h.trans (h.setIp _ s) (h.setFlags hf _ _)) (h.dropWords hr _ _)
  · exact h.trans (h.setIp _ s) (h.dropWords hr _ _)

end Permits

/-! ## The induction over the instructions -/

/-- An update that leaves the flags as they were is one write. -/
theorem updateOne_of_same_flags (d : Place) (g : Word → Word) (s : State) :
    updateOne d (fun v f => ⟨g v, f⟩) s = setIp (nextAfterPlace d s) (writeLoc (resolve d s) (g (placeValue d s)) s) := by
  simp only [updateOne, placeValue]
  cases resolve d s <;> rfl

/-- What holds across every operation an instruction may use holds across the instruction. -/
theorem exec_permitted {i : Instr} {s t : State} {R : State → State → Prop} (h : Permits i s R)
    (hexec : exec i s = .next t) : R s t := by
  have reaches {u : State} (hu : exec i s = .next u) (hR : R s u) : R s t := by
    rw [hu] at hexec
    exact Host.Outcome.next.inj hexec ▸ hR
  cases i with
  | mov d o => exact reaches rfl (h.trans (h.writeDestination rfl rfl _ s) (h.setIp _ _))
  | pop d =>
    exact reaches rfl (h.trans (h.trans (h.writeLoc (List.subset_cons_self _ _) (List.Subset.refl _) _ s)
      (h.dropWords (List.mem_cons_self ..) _ _)) (h.setIp _ _))
  | popf =>
    exact reaches rfl (h.trans (h.trans (h.setFlags rfl _ s) (h.dropWords (List.mem_cons_self ..) _ _)) (h.setIp _ _))
  | push o => exact reaches rfl (h.trans (h.push (List.mem_cons_self ..) (List.mem_cons_self ..) _) (h.setIp _ _))
  | pushf => exact reaches rfl (h.trans (h.push (List.mem_cons_self ..) (List.mem_cons_self ..) _) (h.setIp _ _))
  | call o => exact reaches rfl (h.trans (h.push (List.mem_cons_self ..) (List.mem_cons_self ..) _) (h.setIp _ _))
  | xchg d o =>
    exact reaches rfl (h.trans (h.trans (h.writeLoc (List.subset_append_left _ _) (List.subset_append_left _ _) _ s)
      (h.writeLoc (List.subset_append_right _ _) (List.subset_append_right _ _) _ _)) (h.setIp _ _))
  | add d o | sub d o | and d o | or d o | xor d o | rcl d o | rcr d o | rol d o | ror d o =>
    exact reaches rfl (h.updateBoth rfl rfl rfl _ _)
  | inc d | dec d | neg d => exact reaches rfl (h.updateOne rfl rfl rfl _)
  | not d =>
    exact reaches ((exec_not d s).trans (congrArg _ (updateOne_of_same_flags d (· ^^^ 0xFFFF) s)))
      (h.trans (h.writeDestination rfl rfl _ s) (h.setIp _ _))
  | cmp d o | test d o => exact reaches rfl (h.compareBoth rfl _ _ _)
  | sal d c | sar d c | shl d c | shr d c => exact reaches rfl (h.shiftBoth rfl rfl rfl _ _ _)
  | mul o =>
    have ha : Reg.a ∈ writtenRegs (.mul o) s := List.mem_cons_self ..
    have hy : Reg.y ∈ writtenRegs (.mul o) s := List.mem_cons_of_mem _ (List.mem_cons_self ..)
    have hflags := h.setFlags rfl (s.flags.withHighWord (mulHigh o s)) s
    by_cases hhi : mulHigh o s = 0
    · exact reaches (exec_mul_of_low hhi) (h.trans (h.trans hflags (h.writeReg .a ha _ _)) (h.setIp _ _))
    · exact reaches (exec_mul_of_high hhi)
        (h.trans (h.trans (h.trans hflags (h.writeReg .y hy _ _)) (h.writeReg .a ha _ _)) (h.setIp _ _))
  | div o =>
    by_cases hz : sourceValue o s = 0
    · exact reaches (exec_div_of_zero hz) (h.takeInterrupt (by simp [writtenRegs, hz]) (if_pos hz) _ _)
    · have hregs : writtenRegs (.div o) s = [.a, .y] := if_neg hz
      exact reaches (exec_div_of_ne_zero hz) (h.trans (h.trans (h.writeReg .a (by simp [hregs]) _ s)
        (h.writeReg .y (by simp [hregs]) _ _)) (h.setIp _ _))
  | jmp o | ja o | jae o | jc o | jg o | jge o | jl o | jle o | jna o | jnc o | jno o | jns o | jnz o | jo o | js o | jz o =>
    exact reaches rfl (h.setIp _ s)
  | ret | retImm n => exact reaches rfl (h.trans (h.setIp _ s) (h.dropWords (List.mem_cons_self ..) _ _))
  | seta d | setnbe d | setae d | setnb d | setnc d | setbe d | setna d | setb d | setc d | setnae d | sete d | setz d
  | setne d | setnz d | setg d | setnle d | setge d | setnl d | setle d | setng d | setl d | setnge d | sets d | setns d
  | seto d | setno d => exact reaches rfl (h.storeCond rfl rfl _)
  | brk => exact reaches rfl (h.trans (h.setFlags rfl _ s) (h.setIp _ _))
  | hwi o =>
    cases hdev : findDevice (sourceValue o s) s.devices with
    | none => exact reaches (exec_hwi_of_no_device hdev) (h.setIp _ s)
    | some dev => exact reaches (exec_hwi_of_device hdev) (h.trans (h.device ⟨o, rfl⟩ dev s) (h.setIp _ _))
  | hwq o =>
    have hb (v : Word) : R s (setIp (nextAfterSource o s) (writeReg .b v s)) :=
      h.trans (h.writeReg .b (List.mem_cons_self ..) _ s) (h.setIp _ _)
    cases hdev : findDevice (sourceValue o s) s.devices with
    | none => exact reaches (exec_hwq_of_no_device hdev) (hb _)
    | some dev => exact reaches (exec_hwq_of_device hdev) (hb _)
  | int n =>
    cases hn : vectorInRange n with
    | true =>
      exact reaches (exec_int_of_in_range hn s) (h.takeInterrupt (by simp [writtenRegs, hn]) (if_pos hn) _ _)
    | false =>
      have hill := exec_int_of_out_of_range hn s
      obtain ⟨-, hf⟩ | ⟨-, hs⟩ := illegalEncoding_spec ((encode s.parameters.encoding (.int n)).headD 0) s
      · rw [hill, hf] at hexec; cases hexec
      · exact reaches (hill.trans hs) (h.setIp _ s)
  | into =>
    cases hov : s.flags.of with
    | true => exact reaches (exec_into_of_overflow hov) (h.takeInterrupt (by simp [writtenRegs, hov]) (if_pos hov) _ _)
    | false => exact reaches (exec_into_of_no_overflow hov) (h.setIp _ s)
  | iret => exact reaches rfl (h.returnFromInterrupt rfl (List.mem_cons_self ..))
  | nop => exact reaches rfl (h.setIp _ s)

/-! ## Registers, RAM and devices (10_state.md R22, 20_memory.md R55) -/

theorem OnlyChanges.of_eq {rs : List Reg} {as : List Word} {s t : State} (hr : t.regs = s.regs) (hm : t.ram = s.ram)
    (hd : t.devices = s.devices) : OnlyChanges rs as s t := (OnlyChanges.refl rs as s).congr hr hm hd

theorem permits_onlyChanges {i : Instr} (hi : ∀ o, i ≠ .hwi o) (s : State) :
    Permits i s (OnlyChanges (writtenRegs i s) (storeAddresses i s)) where
  refl := OnlyChanges.refl _ _
  trans h h' := ⟨fun r hr => (h'.1 r hr).trans (h.1 r hr), fun a ha => (h'.2.1 a ha).trans (h.2.1 a ha),
    h'.2.2.trans h.2.2⟩
  setIp _ _ := .of_eq rfl rfl rfl
  draw _ := .of_eq rfl rfl rfl
  setFlags _ _ _ := .of_eq rfl rfl rfl
  writeReg r hr v u := ⟨fun q hq => by rw [readReg_writeReg, if_neg (ne_of_mem_of_not_mem hr hq).symm], fun _ _ => rfl, rfl⟩
  writeRam a ha v u := ⟨fun _ _ => rfl, fun b hb => by rw [readRam_writeRam, if_neg (ne_of_mem_of_not_mem ha hb).symm], rfl⟩
  device h := absurd h (not_exists.2 hi)

/-- Settles O17: each operation an instruction may use writes a register or a RAM word that its rule names, or none. -/
theorem everyInstructionChangesOnlyWhatItsRuleNames : Obligations.EveryInstructionChangesOnlyWhatItsRuleNames :=
  fun _ s _ hi hexec => exec_permitted (permits_onlyChanges hi s) hexec

/-! ## Flags (30_encoding.md R90) -/

theorem permits_same_flags {i : Instr} (hi : writesNoFlag i = true) (s : State) :
    Permits i s fun u v => v.flags = u.flags where
  refl _ := rfl
  trans h h' := h'.trans h
  setIp _ _ := rfl
  draw _ := rfl
  setFlags h := absurd h (by rw [hi]; exact Bool.true_eq_false_eq_False)
  writeReg _ _ _ _ := rfl
  writeRam _ _ _ _ := rfl
  device _ := deviceActs_flags

/-- Settles O18: an instruction whose row names no flag does not use the one operation that writes flags. -/
theorem flaglessInstructionsKeepEveryFlag : Obligations.FlaglessInstructionsKeepEveryFlag :=
  fun _ s _ hi hexec => exec_permitted (permits_same_flags hi s) hexec

/-! ## Steps: an instruction, a tick, or a rejection that leaves the state or moves `IP` -/

/-- What holds across every instruction, across the tick and across a move of `IP` holds across a step. -/
theorem step_permitted {s t : State} {R : State → State → Prop} (hinstr : ∀ i, Permits i s R) (htick : R s (tick s))
    (hstep : step s = .next t) : R s t := by
  obtain ⟨-, h⟩ | ⟨-, i, -, h⟩ | ⟨-, why, -, h⟩ := step_cases s <;> rw [h] at hstep
  · exact Host.Outcome.next.inj hstep ▸ htick
  · exact exec_permitted (hinstr i) hstep
  · by_cases hwhy : why = .setccSelectorNotSupplied
    · rw [hwhy] at hstep; cases hstep
    · rw [rejectFetched_of_ne hwhy] at hstep
      obtain ⟨-, hill⟩ | ⟨-, hill⟩ := illegalEncoding_spec (readRam s.ip s) s <;> rw [hill] at hstep <;> cases hstep
      exact (hinstr .nop).setIp _ s

/-! ## The canonical form (10_state.md R33, R34) -/

theorem permits_wf (i : Instr) (s : State) : Permits i s fun u v => u.wf = true → v.wf = true where
  refl _ := id
  trans h h' := h' ∘ h
  setIp _ _ := wf_setIp _
  draw _ h := State.wf_of_eq h rfl rfl rfl
  setFlags _ _ _ := wf_setFlags _
  writeReg _ _ _ _ := wf_writeReg _ _
  writeRam _ _ _ _ := wf_writeRam _ _
  device _ _ _ := wf_deviceActs _

/-- Settles O12: every operation keeps the invariant, and so do every instruction, the tick and the step. -/
theorem stepKeepsTheCanonicalForm : Obligations.StepKeepsTheCanonicalForm :=
  fun s _ hwf hstep => step_permitted (fun i => permits_wf i s) wf_tick hstep hwf

/-! ## Devices (10_state.md R34, 20_memory.md R51) -/

/-- The devices that are attached, by address and id. -/
def attached (s : State) : List (Word × Word) := s.devices.map fun d => (d.address, d.id)

theorem permits_same_attached (i : Instr) (s : State) : Permits i s fun u v => attached v = attached u where
  refl _ := rfl
  trans h h' := h'.trans h
  setIp _ _ := rfl
  draw _ := rfl
  setFlags _ _ _ := rfl
  writeReg _ _ _ _ := rfl
  writeRam _ _ _ _ := rfl
  device _ dev u := by
    unfold attached deviceActs
    rw [storeAll_devices]
    exact setDeviceState_attached _ _ _

theorem attached_tick (s : State) : attached (tick s) = attached s := by
  change attached (tickHost s) = attached s
  unfold tickHost
  split
  · rfl
  · unfold attached hostActs
    rw [storeAll_devices]
    exact setDeviceStates_attached _ _

/-- Settles O16: a device's own action and the host's change no address or id, and the other operations change no device,
which for an instruction is a part of O17. -/
theorem attachedDevicesNeverChange : Obligations.AttachedDevicesNeverChange :=
  ⟨fun s _ hstep => step_permitted (fun i => permits_same_attached i s) (attached_tick s) hstep,
    fun i s t hi hexec => (everyInstructionChangesOnlyWhatItsRuleNames i s t hi hexec).2.2⟩

/-! ## The parameters (00_scope.md R5, 70_reset_and_hazards.md R301) -/

theorem permits_same_parameters (i : Instr) (s : State) : Permits i s fun u v => v.parameters = u.parameters where
  refl _ := rfl
  trans h h' := h'.trans h
  setIp _ _ := rfl
  draw _ := rfl
  setFlags _ _ _ := rfl
  writeReg _ _ _ _ := rfl
  writeRam _ _ _ _ := rfl
  device _ := deviceActs_parameters

/-- What the host supplies: the image's words go to RAM, and nothing else of the start changes but the devices. -/
theorem hostSupplies_spec (p : Config.Parameters) (devices : List Device) (image : List (Word × Word)) :
    (hostSupplies p devices image).parameters = p ∧ (hostSupplies p devices image).devices = devices ∧
    (hostSupplies p devices image).ip = p.textStart ∧ readReg .sp (hostSupplies p devices image) = p.spReset ∧
    (hostSupplies p devices image).flags.bf = false := by
  unfold hostSupplies
  refine ⟨storeAll_parameters _ _, storeAll_devices _ _, storeAll_ip _ _, ?_, ?_⟩
  · rw [readReg, storeAll_regs]; rfl
  · rw [storeAll_flags]; rfl

/-- Settles O60. -/
theorem parametersAreTheHostsAndNeverChange : Obligations.ParametersAreTheHostsAndNeverChange :=
  ⟨hostSupplies_spec, fun i s _ hexec => exec_permitted (permits_same_parameters i s) hexec,
    fun s _ hstep => step_permitted (fun i => permits_same_parameters i s) (tick_spec s).2.2.1 hstep⟩

end Sys2Proof.Machine
end

section
/-! PROOFS. The break flag (10_state.md R29, 90_conflicts.md C1): which instruction sets it, and that no other depends on
it. -/

namespace Sys2Proof.Machine

/-! ## The state's operations and the break flag

Each operation reads nothing of the break flag, so it may be set before or after. -/

section Commute

variable (b : Bool) (s : State)

@[simp] theorem setBreak_parameters : (setBreak b s).parameters = s.parameters := rfl
@[simp] theorem setBreak_devices : (setBreak b s).devices = s.devices := rfl
@[simp] theorem setBreak_flags : (setBreak b s).flags = { s.flags with bf := b } := rfl
@[simp] theorem nextIp_setBreak (n : Nat) : nextIp n (setBreak b s) = nextIp n s := rfl
@[simp] theorem readReg_setBreak (r : Reg) : readReg r (setBreak b s) = readReg r s := rfl
@[simp] theorem readRam_setBreak (a : Word) : readRam a (setBreak b s) = readRam a s := rfl
@[simp] theorem stackTop_setBreak : stackTop (setBreak b s) = stackTop s := rfl
@[simp] theorem readLoc_setBreak (l : Loc) : readLoc l (setBreak b s) = readLoc l s := by cases l <;> rfl
@[simp] theorem resolve_setBreak (p : Place) : resolve p (setBreak b s) = resolve p s := by cases p <;> rfl
@[simp] theorem placeValue_setBreak (p : Place) : placeValue p (setBreak b s) = placeValue p s := by simp [placeValue]
@[simp] theorem sourceValue_setBreak (o : Source) : sourceValue o (setBreak b s) = sourceValue o s := by
  cases o <;> simp [sourceValue]

@[simp] theorem setIp_setBreak (t : Word) : setIp t (setBreak b s) = setBreak b (setIp t s) := rfl
@[simp] theorem writeReg_setBreak (r : Reg) (v : Word) : writeReg r v (setBreak b s) = setBreak b (writeReg r v s) := rfl
@[simp] theorem writeRam_setBreak (a v : Word) : writeRam a v (setBreak b s) = setBreak b (writeRam a v s) := rfl
@[simp] theorem writeLoc_setBreak (l : Loc) (v : Word) : writeLoc l v (setBreak b s) = setBreak b (writeLoc l v s) := by
  cases l <;> rfl
@[simp] theorem push_setBreak (v : Word) : push v (setBreak b s) = setBreak b (push v s) := rfl
@[simp] theorem dropWords_setBreak (n : Word) : dropWords n (setBreak b s) = setBreak b (dropWords n s) := rfl

/-- Flags written over a set break flag are those written with it set. -/
@[simp] theorem setFlags_setBreak (f : Flags) : setFlags { f with bf := b } (setBreak b s) = setBreak b (setFlags f s) := rfl

end Commute

/-- What a shift or rotate writes, with another value of the break flag. -/
def ShiftResult.setBreak (b : Bool) (r : ShiftResult) : ShiftResult := ⟨r.value, { r.flags with bf := b }⟩

/-! ## The shapes of meaning and the break flag -/

section Shapes

variable (b : Bool) (s : State)

theorem updateBoth_setBreak (d : Place) (o : Source) {f : Word → Word → Flags → ShiftResult}
    (hf : ∀ dv sv fl, f dv sv { fl with bf := b } = (f dv sv fl).setBreak b) :
    updateBoth d o f (setBreak b s) = setBreak b (updateBoth d o f s) := by
  simp [updateBoth, nextAfterBoth, hf, ShiftResult.setBreak]

theorem updateOne_setBreak (d : Place) {f : Word → Flags → ShiftResult}
    (hf : ∀ v fl, f v { fl with bf := b } = (f v fl).setBreak b) :
    updateOne d f (setBreak b s) = setBreak b (updateOne d f s) := by
  simp [updateOne, nextAfterPlace, hf, ShiftResult.setBreak]

theorem compareBoth_setBreak (d : Place) (o : Source) {f : Word → Word → Flags → Flags}
    (hf : ∀ dv sv fl, f dv sv { fl with bf := b } = { f dv sv fl with bf := b }) :
    compareBoth d o f (setBreak b s) = setBreak b (compareBoth d o f s) := by
  simp [compareBoth, nextAfterBoth, hf]

theorem knownOrDrawn_setBreak (known : Option Bool) :
    knownOrDrawn known (setBreak b s) = ((knownOrDrawn known s).1, setBreak b (knownOrDrawn known s).2) := by
  cases known <;> rfl

theorem shiftBoth_setBreak (d : Place) (c : Source) (known : Word → Nat → Option Bool)
    {f : Word → Nat → Flags → Bool → ShiftResult}
    (hf : ∀ dv n fl ov, f dv n { fl with bf := b } ov = (f dv n fl ov).setBreak b) :
    shiftBoth d c known f (setBreak b s) = setBreak b (shiftBoth d c known f s) := by
  by_cases h : sourceValue c s = 0
  · rw [shiftBoth_zero _ _ _ _ _ h, shiftBoth_zero _ _ _ _ _ (by simpa using h)]
    rfl
  · have hn : (sourceValue c s).toNat ≠ 0 := fun e => h (BitVec.eq_of_toNat_eq e)
    simp [shiftBoth, hn, nextAfterBoth, knownOrDrawn_setBreak, hf, ShiftResult.setBreak]

theorem jumpWhen_setBreak (taken : Bool) (t : Source) :
    jumpWhen taken t (setBreak b s) = setBreak b (jumpWhen taken t s) := by
  simp [jumpWhen, nextAfterSource]

theorem condHolds_setBreak (c : Cond) (f : Flags) : condHolds c { f with bf := b } = condHolds c f := by
  cases c <;> rfl

theorem storeCond_setBreak (c : Cond) (d : Place) : storeCond c d (setBreak b s) = setBreak b (storeCond c d s) := by
  simp [storeCond, nextAfterSetcc, condHolds_setBreak]

theorem enterInterrupt_setBreak (frame : Config.IntFrame) (n ret : Word) :
    enterInterrupt frame n ret (setBreak b s) = setBreak b (enterInterrupt frame n ret s) := by
  cases frame <;> rfl

theorem leaveInterrupt_setBreak (frame : Config.IntFrame) :
    leaveInterrupt frame (setBreak b s) = setBreak b (leaveInterrupt frame s) := by
  cases frame <;> rfl

@[simp] theorem withHighWord_setBreak (f : Flags) (hi : Word) :
    Flags.withHighWord { f with bf := b } hi = { f.withHighWord hi with bf := b } := rfl

@[simp] theorem dividend_setBreak : dividend (setBreak b s) = dividend s := rfl

@[simp] theorem mulHigh_setBreak (o : Source) : mulHigh o (setBreak b s) = mulHigh o s := by simp [mulHigh]

@[simp] theorem mulLow_setBreak (o : Source) : mulLow o (setBreak b s) = mulLow o s := by simp [mulLow]

theorem illegalEncoding_setBreak {w0 : Word} {s t : State} (h : illegalEncoding w0 s = .next t) :
    illegalEncoding w0 (setBreak b s) = .next (setBreak b t) := by
  obtain ⟨-, hf⟩ | ⟨hpol, hs⟩ := illegalEncoding_spec w0 s
  · rw [hf] at h; cases h
  · rw [hs] at h
    cases h
    rw [illegalEncoding, setBreak_parameters, hpol]
    rfl

theorem storeAll_setBreak (l : List (Word × Word)) : storeAll l (setBreak b s) = setBreak b (storeAll l s) := by
  induction l generalizing s with
  | nil => rfl
  | cons p rest ih => exact ih (writeRam p.1 p.2 s)

theorem deviceActs_setBreak (dev : Device) : deviceActs dev (setBreak b s) = setBreak b (deviceActs dev s) := by
  let effect := Config.hwiEffect s.drawn dev s.regs s.ram
  exact storeAll_setBreak b { s with
    regs := effect.regs, devices := setDeviceState dev.address effect.state s.devices, drawn := s.drawn + 1 } effect.stores

end Shapes

/-- No instruction but `BRK` has an effect that depends on the break flag. -/
theorem exec_setBreak {i : Instr} {s t : State} (b : Bool) (hi : i ≠ .brk) (hexec : exec i s = .next t) :
    exec i (setBreak b s) = .next (setBreak b t) := by
  have commutes {u v : State} (hu : exec i s = .next u) (hv : exec i (setBreak b s) = .next v) (huv : v = setBreak b u) :
      exec i (setBreak b s) = .next (setBreak b t) := by
    rw [hu] at hexec
    rw [hv, huv, Host.Outcome.next.inj hexec]
  cases i with
  | brk => exact absurd rfl hi
  | mov d o => exact commutes rfl rfl (by simp [nextAfterBoth])
  | pop d => exact commutes rfl rfl (by simp [nextAfterPlace])
  | push o | call o => exact commutes rfl rfl (by simp [nextAfterSource])
  | popf | pushf | ret | retImm n | nop => exact commutes rfl rfl rfl
  | xchg d o => exact commutes rfl rfl (by simp)
  | add d o | sub d o | and d o | or d o | xor d o | rcl d o | rcr d o | rol d o | ror d o =>
    exact commutes rfl rfl (updateBoth_setBreak b s _ _ fun _ _ _ => rfl)
  | inc d | dec d | neg d | not d => exact commutes rfl rfl (updateOne_setBreak b s _ fun _ _ => rfl)
  | cmp d o | test d o => exact commutes rfl rfl (compareBoth_setBreak b s _ _ fun _ _ _ => rfl)
  | sal d c | sar d c | shl d c | shr d c => exact commutes rfl rfl (shiftBoth_setBreak b s _ _ _ fun _ _ _ _ => rfl)
  | mul o =>
    by_cases hhi : mulHigh o s = 0
    · exact commutes (exec_mul_of_low hhi) (exec_mul_of_low (by rwa [mulHigh_setBreak]))
        (by simp [nextAfterSource])
    · exact commutes (exec_mul_of_high hhi) (exec_mul_of_high (by rwa [mulHigh_setBreak]))
        (by simp [nextAfterSource])
  | div o =>
    by_cases hz : sourceValue o s = 0
    · exact commutes (exec_div_of_zero hz) (exec_div_of_zero (by rwa [sourceValue_setBreak]))
        (by rw [takeInterrupt, enterInterrupt_setBreak]; rfl)
    · exact commutes (exec_div_of_ne_zero hz) (exec_div_of_ne_zero (by rwa [sourceValue_setBreak])) (by simp [nextAfterSource])
  | jmp o => exact commutes rfl rfl (jumpWhen_setBreak b s _ _)
  | ja o | jae o | jc o | jg o | jge o | jl o | jle o | jna o | jnc o | jno o | jns o | jnz o | jo o | js o | jz o =>
    exact commutes rfl rfl (jumpWhen_setBreak b s _ _)
  | seta d | setnbe d | setae d | setnb d | setnc d | setbe d | setna d | setb d | setc d | setnae d | sete d | setz d
  | setne d | setnz d | setg d | setnle d | setge d | setnl d | setle d | setng d | setl d | setnge d | sets d | setns d
  | seto d | setno d => exact commutes rfl rfl (storeCond_setBreak b s _ _)
  | hwi o =>
    cases hdev : findDevice (sourceValue o s) s.devices with
    | none =>
      exact commutes (exec_hwi_of_no_device hdev) (exec_hwi_of_no_device (by rwa [sourceValue_setBreak])) rfl
    | some dev =>
      exact commutes (exec_hwi_of_device hdev) (exec_hwi_of_device (by rwa [sourceValue_setBreak]))
        (by rw [deviceActs_setBreak]; rfl)
  | hwq o =>
    cases hdev : findDevice (sourceValue o s) s.devices with
    | none =>
      exact commutes (exec_hwq_of_no_device hdev) (exec_hwq_of_no_device (by rwa [sourceValue_setBreak])) rfl
    | some dev => exact commutes (exec_hwq_of_device hdev) (exec_hwq_of_device (by rwa [sourceValue_setBreak])) rfl
  | int n =>
    cases hn : vectorInRange n with
    | true => exact commutes (exec_int_of_in_range hn s) (exec_int_of_in_range hn _) (enterInterrupt_setBreak b s _ _ _)
    | false =>
      rw [exec_int_of_out_of_range hn] at hexec ⊢
      exact illegalEncoding_setBreak b hexec
  | into =>
    cases hov : s.flags.of with
    | true => exact commutes (exec_into_of_overflow hov) (exec_into_of_overflow hov) (enterInterrupt_setBreak b s _ _ _)
    | false => exact commutes (exec_into_of_no_overflow hov) (exec_into_of_no_overflow hov) rfl
  | iret => exact commutes rfl rfl (leaveInterrupt_setBreak b s _)

/-- Settles O11. That an instruction keeps the flag follows from its not depending on it: set to the value it has, the flag
has that value afterwards. -/
theorem breakFlagIsSetByBrkAndClearedByTheTick : Obligations.BreakFlagIsSetByBrkAndClearedByTheTick := by
  refine ⟨fun s hb => ⟨step_of_break hb, (tick_spec s).1⟩, fun i s t hexec => ?_, fun i b s t hi => exec_setBreak b hi⟩
  by_cases hi : i = .brk
  · subst hi
    cases hexec
    exact (Bool.or_true _).symm
  · have hsame : exec i s = .next (setBreak s.flags.bf t) := exec_setBreak s.flags.bf hi hexec
    rw [hexec] at hsame
    have hbf := congrArg (fun u : State => u.flags.bf) (Host.Outcome.next.inj hsame)
    change t.flags.bf = s.flags.bf at hbf
    rw [hbf, decide_eq_false hi, Bool.or_false]

end Sys2Proof.Machine
end

section
/-! PROOFS. RAM in its canonical form (10_state.md R33), and the state before the first instruction and at a tick
(10_state.md R36, 70_reset_and_hazards.md R290, R291). -/

namespace Sys2Proof.Machine

/-! ## Canonical RAM is determined by its words (20_memory.md R52) -/

theorem Memory.wfFrom_cons_iff {lo k : Nat} {v : BitVec 8} {rest : Memory} :
    Memory.wfFrom lo ((k, v) :: rest) = true ↔
      lo ≤ k ∧ k < Memory.cells ∧ v ≠ Memory.unlisted ∧ Memory.wfFrom (k + 1) rest = true := by
  simp [Memory.wfFrom, and_assoc]

theorem Memory.readCell_cons_same (k : Nat) (v : BitVec 8) (rest : Memory) :
    Memory.readCell ((k, v) :: rest) k = v := if_pos rfl

theorem Memory.readCell_cons_ne {j k : Nat} (v : BitVec 8) (rest : Memory) (h : k ≠ j) :
    Memory.readCell ((k, v) :: rest) j = Memory.readCell rest j := if_neg h

/-- Canonical RAM lists no cell below its bound. -/
theorem Memory.readCell_of_lt {lo j : Nat} {m : Memory} (h : Memory.wfFrom lo m = true) (hj : j < lo) :
    m.readCell j = Memory.unlisted := by
  induction m generalizing lo with
  | nil => rfl
  | cons c rest ih =>
    obtain ⟨k, v⟩ := c
    obtain ⟨hle, -, -, hrest⟩ := Memory.wfFrom_cons_iff.1 h
    rw [Memory.readCell_cons_ne v rest (by omega)]
    exact ih hrest (by omega)

/-- The first listed cell differs from the unlisted value, so RAM that reads the same lists one no later. -/
theorem Memory.first_cell_le {lo k k' : Nat} {v v' : BitVec 8} {rest rest' : Memory}
    (h : Memory.wfFrom lo ((k, v) :: rest) = true) (h' : Memory.wfFrom lo ((k', v') :: rest') = true)
    (hread : ∀ j < Memory.cells, Memory.readCell ((k, v) :: rest) j = Memory.readCell ((k', v') :: rest') j) : k' ≤ k := by
  obtain ⟨-, hk, hv, -⟩ := Memory.wfFrom_cons_iff.1 h
  obtain ⟨-, hk', hv', hrest'⟩ := Memory.wfFrom_cons_iff.1 h'
  by_contra hlt
  have hunlisted : Memory.readCell ((k', v') :: rest') k = Memory.unlisted :=
    Memory.readCell_of_lt (Memory.wfFrom_cons_iff.2 ⟨le_refl k', hk', hv', hrest'⟩) (Nat.lt_of_not_le hlt)
  rw [← hread k hk, Memory.readCell_cons_same] at hunlisted
  exact hv hunlisted

/-- Canonical RAM is determined by its cells: the first ones listed agree, and so do the rest. -/
theorem Memory.eq_of_readCell_eq {lo : Nat} {m m' : Memory} (h : Memory.wfFrom lo m = true)
    (h' : Memory.wfFrom lo m' = true) (hread : ∀ j < Memory.cells, m.readCell j = m'.readCell j) : m = m' := by
  induction m generalizing lo m' with
  | nil =>
    cases m' with
    | nil => rfl
    | cons c' rest' =>
      obtain ⟨-, hk', hv', -⟩ := Memory.wfFrom_cons_iff.1 h'
      exact absurd ((hread c'.1 hk').trans (Memory.readCell_cons_same ..)).symm hv'
  | cons c rest ih =>
    obtain ⟨k, v⟩ := c
    obtain ⟨-, hk, hv, hrest⟩ := Memory.wfFrom_cons_iff.1 h
    cases m' with
    | nil => exact absurd ((Memory.readCell_cons_same ..).symm.trans (hread k hk)) hv
    | cons c' rest' =>
      obtain ⟨k', v'⟩ := c'
      obtain rfl : k' = k :=
        Nat.le_antisymm (Memory.first_cell_le h h' hread) (Memory.first_cell_le h' h fun j hj => (hread j hj).symm)
      obtain ⟨-, -, -, hrest'⟩ := Memory.wfFrom_cons_iff.1 h'
      have hvalue := hread k' hk
      rw [Memory.readCell_cons_same, Memory.readCell_cons_same] at hvalue
      have hrestread (j : Nat) (hj : j < Memory.cells) : Memory.readCell rest j = Memory.readCell rest' j := by
        by_cases hjk : k' = j
        · subst hjk
          rw [Memory.readCell_of_lt hrest (Nat.lt_succ_self _), Memory.readCell_of_lt hrest' (Nat.lt_succ_self _)]
        · rw [← Memory.readCell_cons_ne v rest hjk, ← Memory.readCell_cons_ne v' rest' hjk]
          exact hread j hj
      rw [hvalue, ih hrest hrest' hrestread]

/-- A word's two cells are the halves of what is read. -/
theorem Memory.readCell_halves (m : Memory) (a : Word) :
    m.readCell (lowCell a) = (m.read a).extractLsb' 0 8 ∧ m.readCell (highCell a) = (m.read a).extractLsb' 8 8 := by
  constructor <;> apply BitVec.eq_of_getLsbD_eq <;> intro i hi
  · rw [BitVec.getLsbD_extractLsb', Memory.read, BitVec.getLsbD_append]
    simp [hi]
  · rw [BitVec.getLsbD_extractLsb', Memory.read, BitVec.getLsbD_append]
    simp [hi]

/-- Every cell is one of the two of some word. -/
theorem cell_eq_of_lt {j : Nat} (hj : j < Memory.cells) : ∃ a : Word, j = lowCell a ∨ j = highCell a := by
  refine ⟨BitVec.ofNat 16 (j / 2), ?_⟩
  simp only [Memory.cells, lowCell, highCell, BitVec.toNat_ofNat] at hj ⊢
  omega

/-- Settles O15: words that read the same have the same cells, and canonical RAM is determined by those. -/
theorem canonicalMemoriesWithEqualWordsAreEqual : Obligations.CanonicalMemoriesWithEqualWordsAreEqual := by
  intro m m' hm hm' hread
  refine Memory.eq_of_readCell_eq hm hm' fun j hj => ?_
  obtain ⟨a, rfl | rfl⟩ := cell_eq_of_lt hj
  · rw [(m.readCell_halves a).1, (m'.readCell_halves a).1, hread a]
  · rw [(m.readCell_halves a).2, (m'.readCell_halves a).2, hread a]

/-! ## The start and the tick -/

/-- Settles O10: the step with the flag set is the tick. -/
theorem tickRestartsTheProgram : Obligations.TickRestartsTheProgram := by
  refine ⟨fun s hb => ?_, fun _ _ => rfl⟩
  obtain ⟨hbf, hip, -, hkeeps⟩ := tick_spec s
  exact ⟨_, step_of_break hb, hbf, hip, hkeeps⟩

theorem start_wf {p : Config.Parameters} (h : p.encoding.wf = true) : (State.start p).wf = true :=
  (State.wf_iff _).2 ⟨Memory.wf_empty, rfl, h⟩

/-- Settles O13: nothing is listed in RAM, no device is attached, and the default encoding is consistent. -/
theorem resetIsCanonical : Obligations.ResetIsCanonical :=
  ⟨fun _ => start_wf, start_wf (p := defaultParameters) (by decide)⟩

theorem readReg_start (p : Config.Parameters) {r : Reg} (hr : r ≠ .sp) : readReg r (State.start p) = 0 := by
  cases r with
  | sp => exact absurd rfl hr
  | _ => rfl

theorem readRam_start (p : Config.Parameters) (a : Word) : readRam a (State.start p) = 0 := by
  rw [readRam, start_ram]
  exact (by decide : Memory.unlisted ++ Memory.unlisted = (0 : Word))

/-- Every condition has selector 31 under the default `SETCC_SELECTOR` (R100). -/
theorem defaultEncoding_setccCode (c : Cond) : (defaultEncoding.setccCode c).1 = 31 := by cases c <;> rfl

/-- Settles O14. -/
theorem resetState : Obligations.ResetState :=
  ⟨fun p => ⟨rfl, rfl, rfl, fun _ => readReg_start p, readRam_start p, rfl, rfl, rfl, rfl, rfl, rfl⟩,
    rfl, rfl, rfl, rfl, rfl, defaultEncoding_setccCode, rfl, rfl, rfl, rfl, rfl, rfl⟩

end Sys2Proof.Machine
end

section
/-! PROOFS. The stack: PUSH, PUSHF, POP, POPF, CALL and RET (40_data_movement.md R121 to R124, 44_control_transfer.md R191,
R208). -/

namespace Sys2Proof.Machine

theorem nextOf_of_n0_parts {i : Instr} {opc : Nat} (h : i.parts = (opc, .n0)) (s : State) : nextOf i s = nextAfterNone s :=
  congrArg (nextIp · s) (Instr.length_of_parts h)

theorem setIp_only (t : Word) (s : State) : OnlyChanges [] [] s (setIp t s) := .of_eq rfl rfl rfl

/-! ## What goes onto the stack (R123, R124, R191) -/

theorem exec_push (o : Source) (s : State) :
    exec (.push o) s = .next (setIp (nextAfterSource o s) (push (sourceValue o s) s)) := rfl

theorem exec_pushf (s : State) : exec .pushf s = .next (setIp (nextAfterNone s) (push (flagsWord s.flags) s)) := rfl

theorem exec_call (o : Source) (s : State) :
    exec (.call o) s = .next (setIp (sourceValue o s) (push (nextAfterSource o s) s)) := rfl

/-- The one argument for `PUSH`, `PUSHF` and `CALL`: a word is pushed and `IP` moves, and nothing else changes. -/
theorem push_setIp_spec (v target : Word) (s : State) :
    let t := setIp target (push v s)
    readReg .sp t = readReg .sp s - 1 ∧ readRam (pushAddress s) t = v ∧ t.flags = s.flags ∧ t.ip = target ∧
      OnlyChanges [.sp] [pushAddress s] s t := by
  obtain ⟨hsp, htop, honly, hflags, -⟩ := push_spec v s
  exact ⟨hsp, htop, hflags, rfl, honly.congr rfl rfl rfl⟩

/-- Settles O22. -/
theorem pushStoresBelowTheStack : Obligations.PushStoresBelowTheStack := by
  intro o s
  obtain ⟨hsp, htop, hflags, hip, honly⟩ := push_setIp_spec (sourceValue o s) (nextAfterSource o s) s
  exact ⟨rfl, _, exec_push o s, hsp, htop, hflags, hip.trans (nextOf_of_s1_parts rfl s).symm, honly⟩

/-- The flags word with its bits in the order of R124. -/
theorem flagsWord_eq (f : Flags) :
    flagsWord f = BitVec.ofNat 16 (8 * f.sf.toNat + 4 * f.zf.toNat + 2 * f.cf.toNat + f.of.toNat) := by
  rw [flagsWord, Nat.mul_comm f.sf.toNat, Nat.mul_comm f.zf.toNat, Nat.mul_comm f.cf.toNat]

/-- Settles O23. -/
theorem pushfStoresTheFlagsWord : Obligations.PushfStoresTheFlagsWord := by
  intro s
  obtain ⟨hsp, htop, hflags, hip, honly⟩ := push_setIp_spec (flagsWord s.flags) (nextAfterNone s) s
  exact ⟨rfl, _, exec_pushf s, hsp, htop.trans (flagsWord_eq s.flags), hflags,
    hip.trans (nextOf_of_n0_parts rfl s).symm, honly⟩

/-- Settles O42. -/
theorem callPushesTheReturnAddress : Obligations.CallPushesTheReturnAddress := by
  intro o s
  obtain ⟨hsp, htop, hflags, hip, honly⟩ := push_setIp_spec (nextAfterSource o s) (sourceValue o s) s
  exact ⟨rfl, _, exec_call o s, hip, hsp, htop.trans (nextOf_of_s1_parts rfl s).symm, hflags, honly⟩

/-! ## What comes off the stack (R121, R122, R208) -/

theorem exec_pop (d : Place) (s : State) :
    exec (.pop d) s = .next (setIp (nextAfterPlace d s) (dropWords 1 (writeLoc (resolve d s) (stackTop s) s))) := rfl

theorem exec_popf (s : State) :
    exec .popf s = .next (setIp (nextAfterNone s) (dropWords 1 (setFlags (flagsFromWord s.flags (stackTop s)) s))) := rfl

theorem exec_ret (s : State) : exec .ret s = .next (dropWords 1 (setIp (stackTop s) s)) := rfl

theorem exec_retImm (n : Word) (s : State) : exec (.retImm n) s = .next (dropWords (1 + n) (setIp (stackTop s) s)) := rfl

theorem readLoc_dropWords {l : Loc} (hl : l ≠ .reg .sp) (n : Word) (s : State) :
    readLoc l (dropWords n s) = readLoc l s :=
  readLoc_writeLoc_ne (l := .reg .sp) _ _ hl

/-- Where a write goes to another place than `SP`, `SP` is as it was. -/
theorem readReg_sp_writeLoc {l : Loc} (hl : l ≠ .reg .sp) (v : Word) (s : State) :
    readReg .sp (writeLoc l v s) = readReg .sp s :=
  readLoc_writeLoc_ne (m := .reg .sp) v s hl.symm

/-- Settles O20, by whether the destination is `SP` itself, which is then incremented from the word just written. -/
theorem popWritesThenIncrements : Obligations.PopWritesThenIncrements := by
  intro d s
  refine ⟨rfl, _, exec_pop d s, ?flags, ?ip, ?values, ?frame⟩
  case flags => rw [setIp_flags, dropWords_flags, writeLoc_flags]
  case ip => exact (nextOf_of_s1_place_parts rfl s).symm
  case values =>
    obtain ⟨hsp, -, -, -⟩ := dropWords_spec 1 (writeLoc (resolve d s) (stackTop s) s)
    split
    · next hd =>
      rw [hd] at hsp ⊢
      exact hsp.trans (congrArg (· + 1) (readLoc_writeLoc_same (.reg .sp) (stackTop s) s))
    · next hd =>
      rw [readLoc_setIp, readLoc_dropWords hd, readLoc_writeLoc_same, readReg_setIp, hsp, readReg_sp_writeLoc hd]
      exact ⟨rfl, rfl⟩
  case frame =>
    exact everyInstructionChangesOnlyWhatItsRuleNames (.pop d) s _ nofun (exec_pop d s)

/-- Settles O21. -/
theorem popfSetsTheFourFlags : Obligations.PopfSetsTheFourFlags := by
  intro s
  obtain ⟨hsp, -, hflags, -⟩ := dropWords_spec 1 (setFlags (flagsFromWord s.flags (stackTop s)) s)
  exact ⟨rfl, _, exec_popf s, rfl, rfl, rfl, rfl, rfl, hsp, (nextOf_of_n0_parts rfl s).symm,
    everyInstructionChangesOnlyWhatItsRuleNames .popf s _ nofun (exec_popf s)⟩

/-- The one argument for both forms of `RET`: `IP` becomes the top word and `SP` moves, and nothing else changes. -/
theorem dropWords_setIp_spec (n target : Word) (s : State) :
    let t := dropWords n (setIp target s)
    t.ip = target ∧ readReg .sp t = readReg .sp s + n ∧ t.flags = s.flags ∧ OnlyChanges [.sp] [] s t := by
  obtain ⟨hsp, honly, hflags, hip⟩ := dropWords_spec n (setIp target s)
  exact ⟨hip, hsp, hflags, (setIp_only target s).trans honly⟩

/-- Settles O47. -/
theorem retPopsTheReturnAddress : Obligations.RetPopsTheReturnAddress := by
  refine ⟨⟨rfl, fun _ => rfl⟩, ?_⟩
  rintro s i amount (⟨rfl, rfl⟩ | rfl)
  · obtain ⟨hip, hsp, hflags, honly⟩ := dropWords_setIp_spec 1 (stackTop s) s
    exact ⟨_, exec_ret s, hip, hsp.trans (BitVec.add_zero _).symm, hflags, honly⟩
  · obtain ⟨hip, hsp, hflags, honly⟩ := dropWords_setIp_spec (1 + amount) (stackTop s) s
    exact ⟨_, exec_retImm amount s, hip, hsp.trans (BitVec.add_assoc _ _ _).symm, hflags, honly⟩

/-! ## A call and its return (44_control_transfer.md section 3) -/

theorem Regs.eq_of_get_eq {g g' : Regs} (h : ∀ r, g.get r = g'.get r) : g = g' := by
  cases g
  cases g'
  rw [Regs.mk.injEq]
  exact ⟨h .a, h .b, h .c, h .d, h .x, h .y, h .sp, h .bp⟩

theorem OnlyChanges.mono {rs rs' : List Reg} {as as' : List Word} {s t : State} (h : OnlyChanges rs as s t)
    (hr : rs ⊆ rs') (ha : as ⊆ as') : OnlyChanges rs' as' s t :=
  ⟨fun r hn => h.1 r fun hm => hn (hr hm), fun a hn => h.2.1 a fun hm => hn (ha hm), h.2.2⟩

/-- Where nothing but `SP` may have changed and `SP` is as before, every register is. -/
theorem regs_eq_of_sp_eq {as : List Word} {s t : State} (honly : OnlyChanges [.sp] as s t)
    (hsp : readReg .sp t = readReg .sp s) : t.regs = s.regs := by
  refine Regs.eq_of_get_eq fun r => ?_
  by_cases hr : r = .sp
  · exact hr ▸ hsp
  · exact honly.1 r (by simpa using hr)

theorem OnlyChanges.of_regs_eq {rs : List Reg} {as : List Word} {s t : State} (h : OnlyChanges rs as s t)
    (hr : t.regs = s.regs) : OnlyChanges [] as s t :=
  ⟨fun _ _ => by rw [readReg, hr, readReg], h.2⟩

/-- Settles O48: the word `RET` takes is the one `CALL` stored, and `SP` goes up where it went down. -/
theorem retUndoesCall : Obligations.RetUndoesCall := by
  intro o s
  obtain ⟨-, t, hcall, -, hsp, htop, hflags, honly⟩ := callPushesTheReturnAddress o s
  obtain ⟨u, hret, huip, husp, huflags, huonly⟩ := retPopsTheReturnAddress.2 t .ret 0 (.inl ⟨rfl, rfl⟩)
  have hframe : OnlyChanges [.sp] [pushAddress s] s u := (honly.trans huonly).mono (by simp) (by simp)
  have hregs : u.regs = s.regs := by
    refine regs_eq_of_sp_eq hframe ?_
    rw [husp, hsp]
    exact (BitVec.add_zero _).trans (BitVec.sub_add_cancel _ _)
  refine ⟨t, hcall, u, hret, ?_, hregs, huflags.trans hflags, hframe.of_regs_eq hregs⟩
  rw [huip, stackTop, hsp]
  exact htop

end Sys2Proof.Machine
end

section
/-! PROOFS. JNA (44_control_transfer.md R200) and the SETcc (45_setcc.md R220 to R234). -/

namespace Sys2Proof.Machine

theorem exec_jna (t : Source) (s : State) :
    exec (.jna t) s = .next (jumpWhen (condHolds .notAbove s.flags) t s) := rfl

/-- Settles O46: the condition of `JA` is the negation of that of `JNA`. -/
theorem jnaJumpsWhenJaDoesNot : Obligations.JnaJumpsWhenJaDoesNot := by
  intro o s
  refine ⟨rfl, jumpsIf_of_exec rfl (exec_jna o s), jumpsIf_of_exec rfl ?_⟩
  rw [Bool.not_or]
  exact exec_ja o s

/-- The one argument for every `SETcc`: its parts name a condition, and it stores whether that holds. -/
theorem storesIf_of_parts {i : Instr} {c : Cond} {d : Place} {s : State} (h : i.parts = (0x32, .cc c d)) :
    StoresIf (condHolds c s.flags) i d s := by
  obtain ⟨hvalue, hflags, hip, hframe⟩ := storeCond_spec c d s
  refine ⟨_, exec_of_setcc_parts h s, hvalue, hflags, hip.trans ?_, hframe⟩
  exact (congrArg (nextIp · s) (Instr.length_of_parts h)).symm

/-- Settles O50. The conditions are spelled as for O44. -/
theorem setccOnCarryAndZero : Obligations.SetccOnCarryAndZero := by
  intro d s
  simp only [beq_false, beq_true]
  refine ⟨?above, ?notCarry, ?notAbove, ?carry, ?zero, ?notZero⟩
  case above => rintro i (rfl | rfl) <;> exact storesIf_of_parts (c := .above) rfl
  case notCarry => rintro i (rfl | rfl | rfl) <;> exact storesIf_of_parts (c := .notCarry) rfl
  case notAbove => rintro i (rfl | rfl) <;> exact storesIf_of_parts (c := .notAbove) rfl
  case carry => rintro i (rfl | rfl | rfl) <;> exact storesIf_of_parts (c := .carry) rfl
  case zero => rintro i (rfl | rfl) <;> exact storesIf_of_parts (c := .zero) rfl
  case notZero => rintro i (rfl | rfl) <;> exact storesIf_of_parts (c := .notZero) rfl

/-- Settles O51. The conditions are spelled as for O45. -/
theorem setccOnSignAndOverflow : Obligations.SetccOnSignAndOverflow := by
  intro d s
  simp only [beq_false, beq_true]
  refine ⟨?greater, ?greaterEqual, ?lessEqual, ?less, ?sign, ?notSign, ?overflow, ?notOverflow⟩
  case greater => rintro i (rfl | rfl) <;> exact storesIf_of_parts (c := .greater) rfl
  case greaterEqual => rintro i (rfl | rfl) <;> exact storesIf_of_parts (c := .greaterEqual) rfl
  case lessEqual => rintro i (rfl | rfl) <;> exact storesIf_of_parts (c := .lessEqual) rfl
  case less => rintro i (rfl | rfl) <;> exact storesIf_of_parts (c := .less) rfl
  case sign => exact storesIf_of_parts (c := .sign) rfl
  case notSign => exact storesIf_of_parts (c := .notSign) rfl
  case overflow => exact storesIf_of_parts (c := .overflow) rfl
  case notOverflow => exact storesIf_of_parts (c := .notOverflow) rfl

end Sys2Proof.Machine
end

section
/-! PROOFS. BRK, HWI, INT, INTO and IRET (46_system.md R240, R241, R243 to R245), and interrupt entry and return
(60_exceptions.md R263, R271). -/

namespace Sys2Proof.Machine

/-! ## BRK (R240) -/

theorem exec_brk (s : State) :
    exec .brk s = .next (setIp (nextAfterNone s) (setFlags { s.flags with bf := true } s)) := rfl

/-- Settles O52. -/
theorem brkSetsTheBreakFlag : Obligations.BrkSetsTheBreakFlag := by
  intro s
  refine ⟨rfl, _, exec_brk s, rfl, (nextOf_of_n0_parts rfl s).symm, .of_eq rfl rfl rfl, rfl, step_of_break rfl, ?_⟩
  obtain ⟨hbf, hip, -, -⟩ := tick_spec (setIp (nextAfterNone s) (setFlags { s.flags with bf := true } s))
  exact ⟨hbf, hip⟩

/-! ## HWI (R241) -/

theorem findDevice_setDeviceState_ne {h k : Word} (hk : k ≠ h) (st : List Word) (ds : List Device) :
    findDevice k (setDeviceState h st ds) = findDevice k ds := by
  induction ds with
  | nil => rfl
  | cons dev rest ih =>
    by_cases hdev : dev.address = h
    · have hne : dev.address ≠ k := hdev ▸ hk.symm
      simp [setDeviceState, findDevice, hdev, hdev ▸ hne]
    · simp [setDeviceState, findDevice, hdev, ih]

/-- A device's action leaves the devices at other addresses alone. -/
theorem findDevice_deviceActs_ne {dev : Device} {k : Word} (hk : k ≠ dev.address) (s : State) :
    findDevice k (deviceActs dev s).devices = findDevice k s.devices := by
  unfold deviceActs
  rw [storeAll_devices]
  exact findDevice_setDeviceState_ne hk _ _

/-- Settles O53, by whether a device stands at the address. -/
theorem hwiCompletesWithAndWithoutADevice : Obligations.HwiCompletesWithAndWithoutADevice := by
  intro o s
  have hnext : nextAfterSource o s = nextOf (.hwi o) s := (nextOf_of_s1_parts rfl s).symm
  cases hdev : findDevice (sourceValue o s) s.devices with
  | none => exact ⟨_, exec_hwi_of_no_device hdev, rfl, hnext, fun _ => ⟨setIp_only _ s, rfl⟩, fun _ _ => rfl⟩
  | some dev =>
    refine ⟨_, exec_hwi_of_device hdev, deviceActs_flags dev s, hnext, nofun, fun k hk => ?_⟩
    exact findDevice_deviceActs_ne (by rwa [findDevice_address hdev]) s

/-! ## INT and INTO (R243, R244) -/

theorem vectorInRange_iff {n : Word} : vectorInRange n = true ↔ n.toNat ≤ 255 := decide_eq_true_iff

/-- The first word of an `INT` has the immediate selector in the operand's field (R81, R89). -/
theorem encode_int_head (e : Config.Encoding) (n : Word) :
    (encode e (.int n)).headD 0 = (match e.singleOperandField with | .source => 0xF830 | .destination => 0x07F0) := by
  cases hf : e.singleOperandField <;> simp only [encode, Instr.parts, encodeParts, singleOperand, hf, Source.selector]
  · exact (by decide : firstWord 31 0 0x30 = 0xF830)
  · exact (by decide : firstWord 0 31 0x30 = 0x07F0)

theorem wordCount_int_head (e : Config.Encoding) (n : Word) : wordCount ((encode e (.int n)).headD 0) = 2 := by
  rw [encode_int_head]
  cases e.singleOperandField <;> rfl

/-- Settles O55, by whether the number is in range. -/
theorem intEntersItsInterrupt : Obligations.IntEntersItsInterrupt := by
  intro n s
  split
  · next hn => exact ⟨_, exec_int_of_in_range (vectorInRange_iff.2 hn) s, enterInterrupt_spec _ n _ s⟩
  · next hn =>
    have hill := exec_int_of_out_of_range (Bool.eq_false_iff.2 (vectorInRange_iff.not.2 hn)) s
    obtain ⟨hpol, hf⟩ | ⟨hpol, hs⟩ := illegalEncoding_spec ((encode s.parameters.encoding (.int n)).headD 0) s <;>
      rw [hpol]
    · exact (hill.trans hf).trans (congrArg (fun w => Host.Outcome.fault (Fault.illegalInstruction w)) (encode_int_head _ n))
    · rw [wordCount_int_head] at hs
      exact hill.trans hs

/-- Settles O56, by whether `OF` is set. -/
theorem intoEntersInterruptFourOnOverflow : Obligations.IntoEntersInterruptFourOnOverflow := by
  intro s
  cases hov : s.flags.of with
  | true => exact ⟨_, exec_into_of_overflow hov, enterInterrupt_spec _ 4 _ s⟩
  | false => exact ⟨_, exec_into_of_no_overflow hov, rfl, rfl, setIp_only _ s⟩

/-! ## IRET (R245) and the return after an entry (R271) -/

theorem exec_iret (s : State) : exec .iret s = .next (leaveInterrupt s.parameters.intFrame s) := rfl

/-- Settles O57. -/
theorem iretPopsTheFrame : Obligations.IretPopsTheFrame := by
  intro s
  obtain ⟨hip, honly, hframe⟩ := leaveInterrupt_spec s.parameters.intFrame s
  refine ⟨_, exec_iret s, hip, honly, ?_⟩
  cases hf : s.parameters.intFrame <;> rw [hf] at hframe <;> exact ⟨hframe.2, hframe.1⟩

/-- What an entry leaves on the stack for the return, under either frame: the return address on top, and the flags word above
it where it is pushed; `SP` below what it was by as many words as the return drops. -/
theorem leaveInterrupt_of_entered {frame : Config.IntFrame} {n ret : Word} {s v : State}
    (h : InterruptEntered frame n ret s v) :
    let u := leaveInterrupt frame v
    u.ip = ret ∧ readReg .sp u = readReg .sp s ∧ u.flags = s.flags ∧
      OnlyChanges [.sp] [readReg .sp s - 1, readReg .sp s - 2] s u := by
  obtain ⟨-, hflags, hpushed⟩ := h
  obtain ⟨hip, honly, hpopped⟩ := leaveInterrupt_spec frame v
  cases frame with
  | flagsAndIp =>
    obtain ⟨hsp, hword, hret, hframe⟩ := hpushed
    obtain ⟨husp, huflags⟩ := hpopped
    have habove : readReg .sp v + 1 = readReg .sp s - 1 := by rw [hsp, sub_two, BitVec.sub_add_cancel]
    refine ⟨?_, ?_, ?_, (hframe.trans honly).mono (by simp) (by simp)⟩
    · rw [hip, stackTop, hsp, hret]
    · rw [husp, hsp, BitVec.sub_add_cancel]
    · rw [huflags, habove, hword, flagsFromWord_flagsWord, hflags]
  | ipOnly =>
    obtain ⟨hsp, hret, hframe⟩ := hpushed
    obtain ⟨husp, huflags⟩ := hpopped
    refine ⟨?_, ?_, huflags.trans hflags, (hframe.trans honly).mono (by simp) (by simp)⟩
    · rw [hip, stackTop, hsp, hret]
    · rw [husp, hsp, BitVec.sub_add_cancel]

/-- Settles O58. -/
theorem returnUndoesInterruptEntry : Obligations.ReturnUndoesInterruptEntry := by
  intro frame n ret s
  obtain ⟨hip, hsp, hflags, honly⟩ := leaveInterrupt_of_entered (enterInterrupt_spec frame n ret s)
  have hregs := regs_eq_of_sp_eq honly hsp
  exact ⟨hip, hregs, hflags, honly.of_regs_eq hregs⟩

end Sys2Proof.Machine
end

section
/-! PROOFS. The statements of 41_arithmetic.md (R140 to R149), and the jumps after CMP (44_control_transfer.md section 2). -/

namespace Sys2Proof.Machine

/-! ## Words as signed numbers -/

/-- The sign bit says whether the signed value is negative. -/
theorem sign_eq (w : Word) : w.sign = decide (w.toInt < 0) := by
  rw [Word.sign, ← BitVec.msb_eq_toInt, BitVec.msb_eq_getLsbD_last]

/-- The two readings of a word: the sign bit counts for 2^15 or for -2^15. -/
theorem toInt_cases (w : Word) :
    (w.toNat < 32768 ∧ w.toInt = w.toNat) ∨ (32768 ≤ w.toNat ∧ w.toNat < 65536 ∧ w.toInt = w.toNat - 65536) := by
  have := w.isLt
  rw [BitVec.toInt_eq_toNat_cond]
  split <;> omega

theorem toInt_bounds (w : Word) : -32768 ≤ w.toInt ∧ w.toInt ≤ 32767 := by
  have := toInt_cases w
  omega

/-- The signed sum of two words is the exact one where that fits, and else off by 2^16. -/
theorem toInt_add_cases (a b : Word) :
    (-32768 ≤ a.toInt + b.toInt ∧ a.toInt + b.toInt ≤ 32767 ∧ (a + b).toInt = a.toInt + b.toInt) ∨
    (a.toInt + b.toInt < -32768 ∧ (a + b).toInt = a.toInt + b.toInt + 65536) ∨
    (32767 < a.toInt + b.toInt ∧ (a + b).toInt = a.toInt + b.toInt - 65536) := by
  have hsum := BitVec.toNat_add a b
  have ha := toInt_cases a
  have hb := toInt_cases b
  have hr := toInt_cases (a + b)
  omega

/-- The signed difference of two words is the exact one where that fits, and else off by 2^16. -/
theorem toInt_sub_cases (a b : Word) :
    (-32768 ≤ a.toInt - b.toInt ∧ a.toInt - b.toInt ≤ 32767 ∧ (a - b).toInt = a.toInt - b.toInt) ∨
    (a.toInt - b.toInt < -32768 ∧ (a - b).toInt = a.toInt - b.toInt + 65536) ∨
    (32767 < a.toInt - b.toInt ∧ (a - b).toInt = a.toInt - b.toInt - 65536) := by
  have hdiff := BitVec.toNat_sub a b
  have ha := toInt_cases a
  have hb := toInt_cases b
  have hr := toInt_cases (a - b)
  omega

/-- A sum overflows where the summands have one sign and the result has the other. -/
theorem add_overflow_eq (a b : Word) :
    (a.sign == b.sign && (a + b).sign != a.sign) = outsideSigned16 (a.toInt + b.toInt) := by
  have hr := toInt_add_cases a b
  have ha := toInt_bounds a
  have hb := toInt_bounds b
  rw [Bool.eq_iff_iff]
  simp only [sign_eq, outsideSigned16, Bool.and_eq_true, beq_iff_eq, bne_iff_ne, ne_eq, decide_eq_decide, decide_eq_true_eq]
  omega

/-- A difference overflows where the operands differ in sign and the result has not the first one's. -/
theorem sub_overflow_eq (a b : Word) :
    (a.sign != b.sign && (a - b).sign != a.sign) = outsideSigned16 (a.toInt - b.toInt) := by
  have hr := toInt_sub_cases a b
  have ha := toInt_bounds a
  have hb := toInt_bounds b
  rw [Bool.eq_iff_iff]
  simp only [sign_eq, outsideSigned16, Bool.and_eq_true, bne_iff_ne, ne_eq, decide_eq_decide, decide_eq_true_eq]
  omega

/-- The sign of a difference, corrected where it overflows, tells which operand is less. -/
theorem sub_sign_ne_overflow (a b : Word) :
    (decide ((a - b).toInt < 0) != outsideSigned16 (a.toInt - b.toInt)) = decide (a.toInt < b.toInt) := by
  have hr := toInt_sub_cases a b
  have ha := toInt_bounds a
  have hb := toInt_bounds b
  rw [Bool.eq_iff_iff]
  simp only [outsideSigned16, bne_iff_ne, ne_eq, decide_eq_decide, decide_eq_true_eq]
  omega

theorem ofNat_toNat_add (a b : Word) : (BitVec.ofNat 16 (a.toNat + b.toNat) : Word) = a + b := by
  rw [BitVec.ofNat_add, BitVec.ofNat_toNat, BitVec.ofNat_toNat, BitVec.setWidth_eq, BitVec.setWidth_eq]

theorem ofInt_toNat_sub (a b : Word) : (BitVec.ofInt 16 ((a.toNat : Int) - b.toNat) : Word) = a - b := by
  apply BitVec.eq_of_toNat_eq
  rw [BitVec.toNat_ofInt, BitVec.toNat_sub]
  omega

/-! ## The results and flags of R140, R141 and R148 -/

/-- `AddFlags` with each flag as a fact of the exact sums. -/
theorem addFlags_eq (a b : Word) :
    addFlags a b =
      { value := a + b
        carry := decide (65536 ≤ a.toNat + b.toNat)
        zero := decide (a + b = 0)
        sign := decide ((a + b).toInt < 0)
        overflow := outsideSigned16 (a.toInt + b.toInt) } := by
  simp only [addFlags, ofNat_toNat_add, add_overflow_eq]
  rw [sign_eq]
  rfl

/-- `SubFlags` with each flag as a fact of the exact differences. -/
theorem subFlags_eq (a b : Word) :
    subFlags a b =
      { value := a - b
        carry := decide (a.toNat < b.toNat)
        zero := decide (a = b)
        sign := decide ((a - b).toInt < 0)
        overflow := outsideSigned16 (a.toInt - b.toInt) } := by
  have hzero : (a - b == 0) = decide (a = b) := decide_eq_decide.2 sub_eq_zero
  simp only [subFlags, ofInt_toNat_sub, sub_overflow_eq, hzero]
  rw [sign_eq]

/-- The result and flags of `NEG`, which has rules of its own for carry and overflow (R148). -/
theorem negFlags_eq (v : Word) :
    negFlags v =
      { value := 0 - v
        carry := decide (v ≠ 0)
        zero := decide (v = 0)
        sign := decide ((0 - v).toInt < 0)
        overflow := decide (v = 0x8000) } := by
  have hvalue : (BitVec.ofInt 16 (0 - (v.toNat : Int)) : Word) = 0 - v := ofInt_toNat_sub 0 v
  have hzero : (0 - v == 0) = decide (v = 0) := decide_eq_decide.2 (sub_eq_zero.trans eq_comm)
  have hcarry : (v != 0) = decide (v ≠ 0) := by rw [decide_not]; rfl
  simp only [negFlags, hvalue, hzero, hcarry]
  rw [sign_eq]
  rfl

/-! ## ADD, SUB, CMP (R142, R143, R149) -/

/-- What `ADD`, `SUB` and `NEG` write: the operation's result with all four flags. -/
def arithResult (r : ArithResult) (f : Flags) : ShiftResult := ⟨r.value, f.withArith r⟩

/-- What `INC` and `DEC` write: the operation's result with its flags but the carry. -/
def arithResultKeepCarry (r : ArithResult) (f : Flags) : ShiftResult := ⟨r.value, f.withArithKeepCarry r⟩

theorem exec_add (d : Place) (o : Source) (s : State) :
    exec (.add d o) s = .next (updateBoth d o (fun dv sv => arithResult (addFlags dv sv)) s) := rfl

theorem exec_sub (d : Place) (o : Source) (s : State) :
    exec (.sub d o) s = .next (updateBoth d o (fun dv sv => arithResult (subFlags dv sv)) s) := rfl

theorem exec_cmp (d : Place) (o : Source) (s : State) :
    exec (.cmp d o) s = .next (compareBoth d o (fun dv sv f => f.withArith (subFlags dv sv)) s) := rfl

/-- Settles O25. -/
theorem addStoresTheSumAndItsFlags : Obligations.AddStoresTheSumAndItsFlags := by
  intro d o s
  obtain ⟨hvalue, hflags, hip, hframe⟩ := updateBoth_spec d o (fun dv sv => arithResult (addFlags dv sv)) s
  rw [addFlags_eq] at hvalue hflags
  refine ⟨_, exec_add d o s, hvalue, ?_⟩
  rw [hflags]
  exact ⟨rfl, rfl, rfl, rfl, rfl, hip.trans (nextOf_of_ds_parts rfl s).symm, hframe⟩

/-- Settles O26. -/
theorem subStoresTheDifferenceAndItsFlags : Obligations.SubStoresTheDifferenceAndItsFlags := by
  intro d o s
  obtain ⟨hvalue, hflags, hip, hframe⟩ := updateBoth_spec d o (fun dv sv => arithResult (subFlags dv sv)) s
  rw [subFlags_eq] at hvalue hflags
  refine ⟨_, exec_sub d o s, hvalue, ?_⟩
  rw [hflags]
  exact ⟨rfl, rfl, rfl, rfl, rfl, hip.trans (nextOf_of_ds_parts rfl s).symm, hframe⟩

/-- Settles O27. -/
theorem cmpSetsTheFlagsOfTheDifference : Obligations.CmpSetsTheFlagsOfTheDifference := by
  intro d o s
  obtain ⟨hflags, hip, hframe, -⟩ := compareBoth_spec d o (fun dv sv f => f.withArith (subFlags dv sv)) s
  rw [subFlags_eq] at hflags
  refine ⟨_, exec_cmp d o s, ?_⟩
  rw [hflags]
  exact ⟨rfl, rfl, rfl, rfl, sub_sign_ne_overflow _ _, rfl, hip.trans (nextOf_of_ds_parts rfl s).symm, hframe⟩

/-! ## INC, DEC, NEG (R144, R146, R148) -/

theorem exec_inc (d : Place) (s : State) :
    exec (.inc d) s = .next (updateOne d (fun v => arithResultKeepCarry (addFlags v 1)) s) := rfl

theorem exec_dec (d : Place) (s : State) :
    exec (.dec d) s = .next (updateOne d (fun v => arithResultKeepCarry (subFlags v 1)) s) := rfl

theorem exec_neg (d : Place) (s : State) :
    exec (.neg d) s = .next (updateOne d (fun v => arithResult (negFlags v)) s) := rfl

/-- Settles O28. -/
theorem incAndDecKeepTheCarry : Obligations.IncAndDecKeepTheCarry := by
  constructor <;> intro d s
  · obtain ⟨hvalue, hflags, hip, hframe⟩ := updateOne_spec d (fun v => arithResultKeepCarry (addFlags v 1)) s
    rw [addFlags_eq] at hvalue hflags
    refine ⟨_, exec_inc d s, hvalue, ?_⟩
    rw [hflags]
    exact ⟨rfl, rfl, rfl, rfl, rfl, hip.trans (nextOf_of_s1_place_parts rfl s).symm, hframe⟩
  · obtain ⟨hvalue, hflags, hip, hframe⟩ := updateOne_spec d (fun v => arithResultKeepCarry (subFlags v 1)) s
    rw [subFlags_eq] at hvalue hflags
    refine ⟨_, exec_dec d s, hvalue, ?_⟩
    rw [hflags]
    exact ⟨rfl, rfl, rfl, rfl, rfl, hip.trans (nextOf_of_s1_place_parts rfl s).symm, hframe⟩

/-- Settles O29. -/
theorem negStoresTheTwosComplement : Obligations.NegStoresTheTwosComplement := by
  intro d s
  obtain ⟨hvalue, hflags, hip, hframe⟩ := updateOne_spec d (fun v => arithResult (negFlags v)) s
  rw [negFlags_eq] at hvalue hflags
  refine ⟨_, exec_neg d s, hvalue, ?_⟩
  rw [hflags]
  exact ⟨rfl, rfl, rfl, rfl, rfl, hip.trans (nextOf_of_s1_place_parts rfl s).symm, hframe⟩

/-! ## MUL and DIV (R145, R147) -/

theorem mulLow_toNat (o : Source) (s : State) :
    (mulLow o s).toNat = (readReg .a s).toNat * (sourceValue o s).toNat % 65536 := BitVec.toNat_ofNat _ _

/-- The product of two words has no more than 32 bits, so its high word is exact. -/
theorem mulHigh_toNat (o : Source) (s : State) :
    (mulHigh o s).toNat = (readReg .a s).toNat * (sourceValue o s).toNat / 65536 := by
  have hlt : (readReg .a s).toNat * (sourceValue o s).toNat < 65536 * 65536 :=
    Nat.mul_lt_mul'' (readReg .a s).isLt (sourceValue o s).isLt
  rw [mulHigh, BitVec.toNat_ofNat]
  omega

theorem withHighWord_zero (f : Flags) : f.withHighWord 0 = { f with cf := false, of := false } := rfl

theorem withHighWord_of_ne_zero (f : Flags) {hi : Word} (h : hi ≠ 0) :
    f.withHighWord hi = { f with cf := true, of := true } := by
  rw [Flags.withHighWord, bne_iff_ne.2 h]

/-- The high word of the product is 0 exactly where the product fits one word. -/
theorem mulHigh_eq_zero_iff {o : Source} {s : State} :
    mulHigh o s = 0 ↔ (readReg .a s).toNat * (sourceValue o s).toNat / 65536 = 0 := by
  rw [← mulHigh_toNat, BitVec.toNat_eq]
  rfl

/-- Settles O30, by whether the product has a high word. -/
theorem mulWritesTheProductToYA : Obligations.MulWritesTheProductToYA := by
  intro o s
  have hnext : nextAfterSource o s = nextOf (.mul o) s := (nextOf_of_s1_parts rfl s).symm
  have hframe {t : State} (ht : exec (.mul o) s = .next t) : OnlyChanges [.a, .y] [] s t :=
    everyInstructionChangesOnlyWhatItsRuleNames (.mul o) s t nofun ht
  by_cases hhi : mulHigh o s = 0
  · have hexec := exec_mul_of_low hhi
    refine ⟨_, hexec, ⟨?low, ?_⟩, hnext, hframe hexec⟩
    case low => rw [readReg_setIp, readReg_writeReg_same, mulLow_toNat]
    rw [if_pos (mulHigh_eq_zero_iff.1 hhi), hhi]
    exact ⟨rfl, withHighWord_zero s.flags⟩
  · have hexec := exec_mul_of_high hhi
    refine ⟨_, hexec, ⟨?low, ?_⟩, hnext, hframe hexec⟩
    case low => rw [readReg_setIp, readReg_writeReg_same, mulLow_toNat]
    rw [if_neg (mt mulHigh_eq_zero_iff.2 hhi)]
    exact ⟨mulHigh_toNat o s, withHighWord_of_ne_zero s.flags hhi⟩

/-- A remainder by a word is a word. -/
theorem toNat_ofNat_mod (n : Nat) {w : Word} (hw : w ≠ 0) : (BitVec.ofNat 16 (n % w.toNat)).toNat = n % w.toNat := by
  have hpos : 0 < w.toNat := Nat.pos_of_ne_zero fun h => hw (BitVec.eq_of_toNat_eq h)
  rw [BitVec.toNat_ofNat, Nat.mod_eq_of_lt ((Nat.mod_lt _ hpos).trans w.isLt)]

/-- Settles O31, by whether the divisor is 0. -/
theorem divDividesYAOrEntersInterruptZero : Obligations.DivDividesYAOrEntersInterruptZero := by
  intro o s
  have hnext : nextAfterSource o s = nextOf (.div o) s := (nextOf_of_s1_parts rfl s).symm
  by_cases hz : sourceValue o s = 0
  · have hentered := enterInterrupt_spec s.parameters.intFrame 0 (nextOf (.div o) s) s
    refine ⟨_, exec_div_of_zero hz, ?_, ?_⟩
    · exact hentered.2.1
    · rw [if_pos hz, hnext]
      exact hentered
  · have hexec := exec_div_of_ne_zero hz
    have hframe := everyInstructionChangesOnlyWhatItsRuleNames (.div o) s _ nofun hexec
    rw [show writtenRegs (.div o) s = [.a, .y] from if_neg hz, show storeAddresses (.div o) s = [] from if_neg hz] at hframe
    refine ⟨_, hexec, rfl, ?_⟩
    rw [if_neg hz]
    refine ⟨⟨?quotient, ?remainder⟩, hnext, hframe⟩
    case quotient =>
      rw [readReg_setIp, readReg_writeReg, if_neg (by decide), readReg_writeReg_same]
      exact BitVec.toNat_ofNat _ _
    case remainder =>
      rw [readReg_setIp, readReg_writeReg_same]
      exact toNat_ofNat_mod (dividend s) hz

/-! ## The jumps after CMP (44_control_transfer.md section 2) -/

/-- The comparison conditions on flags that say of two words which is less, unsigned and signed, and whether they are one. -/
theorem condHolds_of_comparison {f : Flags} {a b : Word} (hcf : f.cf = decide (a.toNat < b.toNat))
    (hzf : f.zf = decide (a = b)) (hless : (f.sf != f.of) = decide (a.toInt < b.toInt)) :
    condHolds .above f = decide (b.toNat < a.toNat) ∧ condHolds .notCarry f = decide (b.toNat ≤ a.toNat) ∧
    condHolds .carry f = decide (a.toNat < b.toNat) ∧ condHolds .notAbove f = decide (a.toNat ≤ b.toNat) ∧
    condHolds .zero f = decide (a = b) ∧ condHolds .notZero f = decide (a ≠ b) ∧
    condHolds .greater f = decide (b.toInt < a.toInt) ∧ condHolds .greaterEqual f = decide (b.toInt ≤ a.toInt) ∧
    condHolds .less f = decide (a.toInt < b.toInt) ∧ condHolds .lessEqual f = decide (a.toInt ≤ b.toInt) := by
  have hge : (f.sf == f.of) = !decide (a.toInt < b.toInt) := by rw [← hless, bne, Bool.not_not]
  have hnat : a = b ↔ a.toNat = b.toNat := BitVec.toNat_eq
  have hint : a = b ↔ a.toInt = b.toInt := BitVec.toInt_inj.symm
  simp only [condHolds, hcf, hzf, hge, hless]
  refine ⟨?above, ?notCarry, trivial, ?notAbove, trivial, ?notZero, ?greater, ?greaterEqual, trivial, ?lessEqual⟩
  all_goals rw [Bool.eq_iff_iff]
  all_goals simp only [Bool.and_eq_true, Bool.or_eq_true, Bool.not_eq_true', decide_eq_false_iff_not, decide_eq_true_eq]
  case above => rw [hnat]; omega
  case notCarry => omega
  case notAbove => rw [hnat]; omega
  case greater => rw [hint]; omega
  case greaterEqual => omega
  case lessEqual => rw [hint]; omega

theorem jumpsIf_of_condHolds {p : Bool} {i : Instr} {opc : Nat} {c : Cond} {o : Source} {s : State}
    (hc : condHolds c s.flags = p) (hparts : i.parts = (opc, .s1 o))
    (hexec : exec i s = .next (jumpWhen (condHolds c s.flags) o s)) : JumpsIf p i o s :=
  hc ▸ jumpsIf_of_exec hparts hexec

/-- Settles O49: the flags `CMP` leaves say how its operands compare, and the jumps read no more than that. -/
theorem jumpsAfterCmpCompareTheOperands : Obligations.JumpsAfterCmpCompareTheOperands := by
  intro d o s
  obtain ⟨t, hexec, hcf, hzf, -, -, hless, -⟩ := cmpSetsTheFlagsOfTheDifference d o s
  obtain ⟨habove, hnotCarry, hcarry, hnotAbove, hzero, hnotZero, hgreater, hgreaterEqual, hlt, hlessEqual⟩ :=
    condHolds_of_comparison hcf hzf hless
  refine ⟨t, hexec, fun target => ⟨?ja, ?jae, ?jnc, ?jc, ?jna, ?jz, ?jnz, ?jg, ?jge, ?jl, ?jle⟩⟩
  case ja => exact jumpsIf_of_condHolds habove rfl (exec_ja target t)
  case jae => exact jumpsIf_of_condHolds hnotCarry rfl (exec_jae target t)
  case jnc => exact jumpsIf_of_condHolds hnotCarry rfl (exec_jnc target t)
  case jc => exact jumpsIf_of_condHolds hcarry rfl (exec_jc target t)
  case jna => exact jumpsIf_of_condHolds hnotAbove rfl (exec_jna target t)
  case jz => exact jumpsIf_of_condHolds hzero rfl (exec_jz target t)
  case jnz => exact jumpsIf_of_condHolds hnotZero rfl (exec_jnz target t)
  case jg => exact jumpsIf_of_condHolds hgreater rfl (exec_jg target t)
  case jge => exact jumpsIf_of_condHolds hgreaterEqual rfl (exec_jge target t)
  case jl => exact jumpsIf_of_condHolds hlt rfl (exec_jl target t)
  case jle => exact jumpsIf_of_condHolds hlessEqual rfl (exec_jle target t)

end Sys2Proof.Machine
end

section
/-! PROOFS. The rotates (43_shift_rotate.md R171 to R174). -/

namespace Sys2Proof.Machine

/-! ## Rotations, bit by bit (00_scope.md R6) -/

/-- A rotation to the left carries bit `k` to bit `k + c` modulo the width. -/
theorem getLsbD_rotl {n c k : Nat} (v : BitVec n) (hc : c < n) (hk : k < n) :
    (rotl v c).getLsbD ((k + c) % n) = v.getLsbD k := by
  rw [rotl, BitVec.getLsbD_or, BitVec.getLsbD_shiftLeft, BitVec.getLsbD_ushiftRight]
  by_cases hwrap : k + c < n
  · rw [Nat.mod_eq_of_lt hwrap, BitVec.getLsbD_of_ge v (n - c + (k + c)) (by omega)]
    simp [hwrap]
  · have hmod : (k + c) % n = k + c - n := by rw [Nat.mod_eq_sub_mod (by omega), Nat.mod_eq_of_lt (by omega)]
    have hlow : k + c - n < c := by omega
    rw [hmod, show n - c + (k + c - n) = k by omega]
    simp [hlow]

/-- A rotation to the right carries bit `k + c` modulo the width to bit `k`. -/
theorem getLsbD_rotr {n c k : Nat} (v : BitVec n) (hc : c < n) (hk : k < n) :
    (rotr v c).getLsbD k = v.getLsbD ((k + c) % n) := by
  have hn : 0 < n := by omega
  have hback : ((k + c) % n + (n - c) % n) % n = k := by
    rw [← Nat.add_mod, show k + c + (n - c) = k + n by omega, Nat.add_mod_right, Nat.mod_eq_of_lt hk]
  have h := getLsbD_rotl v (Nat.mod_lt (n - c) hn) (Nat.mod_lt (k + c) hn)
  rwa [hback] at h

/-! ## ROL and ROR (R173, R174) -/

theorem exec_rol (d : Place) (c : Source) (s : State) : exec (.rol d c) s = .next (updateBoth d c rolBy s) := rfl

theorem exec_ror (d : Place) (c : Source) (s : State) : exec (.ror d c) s = .next (updateBoth d c rorBy s) := rfl

/-- Settles O35. -/
theorem rolRotatesLeft : Obligations.RolRotatesLeft := by
  intro d c s
  obtain ⟨hvalue, hflags, hip, hframe⟩ := updateBoth_spec d c rolBy s
  refine ⟨_, exec_rol d c s, ⟨fun k hk => ?_, ?_⟩, hip.trans (nextOf_of_ds_parts rfl s).symm, hframe⟩
  · rw [hvalue]
    exact getLsbD_rotl _ (Nat.mod_lt _ (by decide)) hk
  · rw [hvalue, hflags]
    rfl

/-- Settles O36. -/
theorem rorRotatesRight : Obligations.RorRotatesRight := by
  intro d c s
  obtain ⟨hvalue, hflags, hip, hframe⟩ := updateBoth_spec d c rorBy s
  refine ⟨_, exec_ror d c s, ⟨fun k hk => ?_, ?_⟩, hip.trans (nextOf_of_ds_parts rfl s).symm, hframe⟩
  · rw [hvalue]
    exact getLsbD_rotr _ (Nat.mod_lt _ (by decide)) hk
  · rw [hvalue, hflags]
    rfl

/-! ## The 17 bits of RCL and RCR (R171, R172) -/

/-- A word and a carry as 17 bits, the carry on top. -/
def withCarry (v : Word × Bool) : BitVec 17 := BitVec.ofNat 17 (v.2.toNat * 65536 + v.1.toNat)

theorem carryWord_eq (f : Flags) (dv : Word) : carryWord f dv = withCarry (dv, f.cf) := rfl

theorem withCarry_toNat (v : Word × Bool) : (withCarry v).toNat = v.2.toNat * 65536 + v.1.toNat := by
  have := v.1.isLt
  have := v.2.toNat_lt
  rw [withCarry, BitVec.toNat_ofNat]
  omega

theorem withCarry_eq_cons (v : Word × Bool) : withCarry v = BitVec.cons v.2 v.1 := by
  apply BitVec.eq_of_toNat_eq
  rw [withCarry_toNat, BitVec.toNat_cons', Nat.shiftLeft_eq]

theorem getLsbD_withCarry (v : Word × Bool) (k : Nat) :
    (withCarry v).getLsbD k = if k = 16 then v.2 else v.1.getLsbD k := by
  rw [withCarry_eq_cons, BitVec.getLsbD_cons]

theorem extractLsb'_withCarry (v : Word × Bool) : (withCarry v).extractLsb' 0 16 = v.1 := by
  apply BitVec.eq_of_getLsbD_eq
  intro i hi
  rw [BitVec.getLsbD_extractLsb', Nat.zero_add, getLsbD_withCarry, if_neg (by omega)]
  simp [hi]

/-- The word one step of `RCL` makes: the old one moved up, the carry in bit 0. -/
theorem getLsbD_rclStep (v : Word × Bool) {k : Nat} (hk : k < 16) :
    (rclStep v).1.getLsbD k = if k = 0 then v.2 else v.1.getLsbD (k - 1) := by
  have hword : (rclStep v).1 = (BitVec.concat v.1 v.2).setWidth 16 := by
    apply BitVec.eq_of_toNat_eq
    rw [BitVec.toNat_setWidth, BitVec.toNat_concat]
    exact BitVec.toNat_ofNat _ _
  rw [hword, BitVec.getLsbD_setWidth, BitVec.getLsbD_concat]
  simp [hk]

/-- The word one step of `RCR` makes: the old one with the carry on top, moved down. -/
theorem getLsbD_rcrStep (v : Word × Bool) {k : Nat} (hk : k < 16) :
    (rcrStep v).1.getLsbD k = (withCarry v).getLsbD (1 + k) := by
  have hword : (rcrStep v).1 = (withCarry v >>> 1).setWidth 16 := by
    apply BitVec.eq_of_toNat_eq
    rw [BitVec.toNat_setWidth, BitVec.toNat_ushiftRight, Nat.shiftRight_eq_div_pow, withCarry_toNat, rcrStep,
      BitVec.toNat_ofNat]
    omega
  rw [hword, BitVec.getLsbD_setWidth, BitVec.getLsbD_ushiftRight]
  simp [hk]

/-- One step of `RCL` is a rotation of the 17 bits by one to the left. -/
theorem getLsbD_withCarry_rclStep (v : Word × Bool) {k : Nat} (hk : k < 17) :
    (withCarry (rclStep v)).getLsbD ((k + 1) % 17) = (withCarry v).getLsbD k := by
  rw [getLsbD_withCarry, getLsbD_withCarry]
  by_cases h15 : k = 15
  · subst h15; rfl
  · rw [if_neg (by omega), getLsbD_rclStep v (by omega)]
    by_cases h16 : k = 16
    · subst h16; rfl
    · rw [if_neg (by omega), if_neg h16, Nat.mod_eq_of_lt (by omega), Nat.add_sub_cancel]

/-- One step of `RCR` is a rotation of the 17 bits by one to the right. -/
theorem getLsbD_withCarry_rcrStep (v : Word × Bool) {k : Nat} (hk : k < 17) :
    (withCarry (rcrStep v)).getLsbD k = (withCarry v).getLsbD ((k + 1) % 17) := by
  rw [getLsbD_withCarry]
  by_cases h16 : k = 16
  · subst h16
    rw [if_pos rfl, getLsbD_withCarry]
    rfl
  · rw [if_neg h16, getLsbD_rcrStep v (by omega), Nat.mod_eq_of_lt (by omega), Nat.add_comm]

theorem getLsbD_withCarry_iterate_rclStep (v : Word × Bool) (n : Nat) {k : Nat} (hk : k < 17) :
    (withCarry (rclStep^[n] v)).getLsbD ((k + n) % 17) = (withCarry v).getLsbD k := by
  induction n with
  | zero => rw [Nat.add_zero, Nat.mod_eq_of_lt hk, Function.iterate_zero, id]
  | succ n ih =>
    rw [Function.iterate_succ_apply', ← ih, ← getLsbD_withCarry_rclStep _ (Nat.mod_lt (k + n) (by decide)),
      Nat.mod_add_mod, Nat.add_assoc]

theorem getLsbD_withCarry_iterate_rcrStep (v : Word × Bool) (n : Nat) {k : Nat} (hk : k < 17) :
    (withCarry (rcrStep^[n] v)).getLsbD k = (withCarry v).getLsbD ((k + n) % 17) := by
  induction n generalizing k with
  | zero => rw [Nat.add_zero, Nat.mod_eq_of_lt hk, Function.iterate_zero, id]
  | succ n ih =>
    rw [Function.iterate_succ_apply', getLsbD_withCarry_rcrStep _ hk, ih (Nat.mod_lt _ (by decide)), Nat.mod_add_mod,
      Nat.add_right_comm, Nat.add_assoc]

/-- Repeating the step of `RCL` is one rotation by the count modulo 17. -/
theorem withCarry_iterate_rclStep (v : Word × Bool) (n : Nat) :
    withCarry (rclStep^[n] v) = rotl (withCarry v) (n % 17) := by
  apply BitVec.eq_of_getLsbD_eq
  intro j hj
  obtain ⟨k, hk, rfl⟩ : ∃ k < 17, (k + n) % 17 = j := ⟨(j + 17 - n % 17) % 17, by omega, by omega⟩
  rw [getLsbD_withCarry_iterate_rclStep v n hk, ← Nat.add_mod_mod, getLsbD_rotl _ (Nat.mod_lt _ (by decide)) hk]

/-- Repeating the step of `RCR` is one rotation by the count modulo 17. -/
theorem withCarry_iterate_rcrStep (v : Word × Bool) (n : Nat) :
    withCarry (rcrStep^[n] v) = rotr (withCarry v) (n % 17) := by
  apply BitVec.eq_of_getLsbD_eq
  intro j hj
  rw [getLsbD_withCarry_iterate_rcrStep v n hj, ← Nat.add_mod_mod, getLsbD_rotr _ (Nat.mod_lt _ (by decide)) hj]

/-! ## RCL and RCR (R171, R172) -/

theorem exec_rcl (d : Place) (c : Source) (s : State) : exec (.rcl d c) s = .next (updateBoth d c rclBy s) := rfl

theorem exec_rcr (d : Place) (c : Source) (s : State) : exec (.rcr d c) s = .next (updateBoth d c rcrBy s) := rfl

theorem fromCarryWord_withCarry (v : Word × Bool) (c : Nat) (dv : Word) (f : Flags) :
    fromCarryWord (withCarry v) c dv f =
      ⟨v.1, { f with of := if c = 1 then signChanged dv v.1 else f.of, cf := v.2 }⟩ := by
  simp only [fromCarryWord, extractLsb'_withCarry, getLsbD_withCarry, if_true]

/-- The one argument for `RCL` and `RCR`: they write what their step gives when repeated as often as the count says. -/
theorem rotateThroughCarry_spec {i : Instr} {opc : Nat} {d : Place} {c : Source} {s : State}
    {rotation : Word → Word → Flags → ShiftResult} {oneStep : Word × Bool → Word × Bool} (hparts : i.parts = (opc, .ds d c))
    (hexec : exec i s = .next (updateBoth d c rotation s))
    (hby : ∀ dv count f, rotation dv count f =
      fromCarryWord (withCarry (oneStep^[count.toNat] (dv, f.cf))) (count.toNat % 17) dv f) :
    ∃ t, exec i s = .next t ∧
      (readLoc (resolve d s) t, t.flags.cf) = oneStep^[(sourceValue c s).toNat] (placeValue d s, s.flags.cf) ∧
      t.flags = { s.flags with
        cf := t.flags.cf
        of := if (sourceValue c s).toNat % 17 = 1 then signChanged (placeValue d s) (readLoc (resolve d s) t)
          else s.flags.of } ∧
      t.ip = nextOf i s ∧ OnlyChanges (resolve d s).regs (resolve d s).addresses s t := by
  obtain ⟨hvalue, hflags, hip, hframe⟩ := updateBoth_spec d c rotation s
  rw [hby, fromCarryWord_withCarry] at hvalue hflags
  refine ⟨_, hexec, ?_, ?_, hip.trans (nextOf_of_ds_parts hparts s).symm, hframe⟩
  · rw [hvalue, hflags]
  · rw [hvalue, hflags]

/-- Settles O37: the step repeated is the rotation by the count modulo 17. -/
theorem rclRepeatsTheOneBitRotation : Obligations.RclRepeatsTheOneBitRotation :=
  fun d c s => rotateThroughCarry_spec rfl (exec_rcl d c s) fun dv count f => by
    rw [withCarry_iterate_rclStep, ← carryWord_eq]; rfl

/-- Settles O38: the step repeated is the rotation by the count modulo 17. -/
theorem rcrRepeatsTheOneBitRotation : Obligations.RcrRepeatsTheOneBitRotation :=
  fun d c s => rotateThroughCarry_spec rfl (exec_rcr d c s) fun dv count f => by
    rw [withCarry_iterate_rcrStep, ← carryWord_eq]; rfl

end Sys2Proof.Machine
end

section
/-! PROOFS. The shifts (43_shift_rotate.md R170, R175 to R178). -/

namespace Sys2Proof.Machine

/-! ## The shifted words -/

/-- A left shift by any count is a multiplication modulo 2^16; 16 places and more leave nothing (R177). -/
theorem shlValue_eq (dv : Word) (n : Nat) : shlValue dv n = BitVec.ofNat 16 (dv.toNat * 2 ^ n) := by
  apply BitVec.eq_of_toNat_eq
  rw [BitVec.toNat_ofNat]
  unfold shlValue
  split
  · rw [BitVec.toNat_shiftLeft, Nat.shiftLeft_eq]
  · next hn =>
    obtain ⟨m, rfl⟩ := Nat.exists_eq_add_of_lt (Nat.lt_of_not_le hn)
    have hmul : dv.toNat * 2 ^ (15 + m + 1) = 2 ^ 16 * (dv.toNat * 2 ^ m) := by ring
    rw [hmul, Nat.mul_mod_right]
    rfl

/-- A right shift by any count is a division; 16 places and more leave nothing (R178). -/
theorem shrValue_eq (dv : Word) (n : Nat) : shrValue dv n = BitVec.ofNat 16 (dv.toNat / 2 ^ n) := by
  unfold shrValue
  split
  · rw [← Nat.shiftRight_eq_div_pow, ← BitVec.toNat_ushiftRight, BitVec.ofNat_toNat, BitVec.setWidth_eq]
  · next hn =>
    have hlt : dv.toNat < 2 ^ n := dv.isLt.trans_le (Nat.pow_le_pow_right (by decide) (by omega))
    rw [Nat.div_eq_of_lt hlt]
    rfl

/-- Division by 2^16 and by more leaves only the sign of a word. -/
theorem toInt_div_two_pow_of_le {n : Nat} (hn : 16 ≤ n) (w : Word) : w.toInt / 2 ^ n = if w.toInt < 0 then -1 else 0 := by
  have hbounds := toInt_bounds w
  have hpow : (65536 : Int) ≤ 2 ^ n := by exact_mod_cast Nat.pow_le_pow_right (n := 2) (by decide) hn
  split
  · exact Int.ediv_eq_neg_one_of_neg_of_le (by omega) (by omega)
  · exact Int.ediv_eq_zero_of_lt (by omega) (by omega)

/-- An arithmetic shift by any count is a division of the signed value, rounded down (R176). -/
theorem sarValue_toInt (dv : Word) (n : Nat) : (sarValue dv n).toInt = dv.toInt / 2 ^ n := by
  have hshift : (sarValue dv n).toInt = dv.toInt / 2 ^ min n 16 := by
    rw [sarValue, BitVec.toInt_sshiftRight, Int.shiftRight_eq_div_pow]
    norm_cast
  rw [hshift]
  by_cases hn : n ≤ 16
  · rw [Nat.min_eq_left hn]
  · rw [Nat.min_eq_right (by omega), toInt_div_two_pow_of_le le_rfl, toInt_div_two_pow_of_le (by omega)]

/-! ## The shifts -/

theorem exec_shl (d : Place) (c : Source) (s : State) :
    exec (.shl d c) s = .next (shiftBoth d c (fun dv n => shiftOverflow dv (shlValue dv n) n) shlBy s) := rfl

theorem exec_sal (d : Place) (c : Source) (s : State) :
    exec (.sal d c) s = .next (shiftBoth d c (fun dv n => shiftOverflow dv (shlValue dv n) n) shlBy s) := rfl

theorem exec_shr (d : Place) (c : Source) (s : State) :
    exec (.shr d c) s = .next (shiftBoth d c (fun dv n => shiftOverflow dv (shrValue dv n) n) shrBy s) := rfl

theorem exec_sar (d : Place) (c : Source) (s : State) :
    exec (.sar d c) s = .next (shiftBoth d c (fun _ _ => if c = .imm 1 then some false else none) sarBy s) := rfl

/-- What the four shifts share (R170): `IP` moves on, nothing but the destination and the flags changes, and those do not
either where the count is 0. -/
theorem shift_spec {i : Instr} {opc : Nat} {d : Place} {c : Source} {s : State} {known : Word → Nat → Option Bool}
    {f : Word → Nat → Flags → Bool → ShiftResult} (hparts : i.parts = (opc, .ds d c))
    (hexec : exec i s = .next (shiftBoth d c known f s)) :
    let old := placeValue d s
    let n := (sourceValue c s).toNat
    ∃ t, exec i s = .next t ∧ t.ip = nextOf i s ∧ OnlyChanges (resolve d s).regs (resolve d s).addresses s t ∧
      ((n = 0 ∧ readLoc (resolve d s) t = old ∧ t.flags = s.flags) ∨
        (n ≠ 0 ∧ ∃ ov, (∀ b, known old n = some b → ov = b) ∧ readLoc (resolve d s) t = (f old n s.flags ov).value ∧
          t.flags = (f old n s.flags ov).flags)) := by
  have hnext := (nextOf_of_ds_parts hparts s).symm
  by_cases hc : sourceValue c s = 0
  · rw [shiftBoth_zero d c known f s hc] at hexec
    exact ⟨_, hexec, hnext, .of_eq rfl rfl rfl, .inl ⟨by rw [hc]; rfl, by rw [readLoc_setIp, placeValue], rfl⟩⟩
  · obtain ⟨ov, hov, hvalue, hflags, hip, hframe⟩ := shiftBoth_spec d c known f s hc
    exact ⟨_, hexec, hip.trans hnext, hframe,
      .inr ⟨fun hn => hc (BitVec.eq_of_toNat_eq hn), ov, hov, hvalue, hflags⟩⟩

/-- The last bit shifted out, as R177 and R178 write it and as a conjunction. -/
theorem lastBitOut_eq (n : Nat) (b : Bool) : (if n ≤ 16 then b else false) = (decide (n ≤ 16) && b) := by
  by_cases h : n ≤ 16 <;> simp [h]

/-- Settles O39, by whether the count is 0. -/
theorem shlAndSalShiftLeft : Obligations.ShlAndSalShiftLeft := by
  intro d c s i hi
  obtain ⟨hparts, hexec⟩ : i.parts = (0x06, .ds d c) ∧
      exec i s = .next (shiftBoth d c (fun dv n => shiftOverflow dv (shlValue dv n) n) shlBy s) := by
    obtain rfl | rfl := hi
    · exact ⟨rfl, exec_shl d c s⟩
    · exact ⟨rfl, exec_sal d c s⟩
  obtain ⟨t, ht, hip, hframe, ⟨hn, hvalue, hflags⟩ | ⟨hn, ov, hov, hvalue, hflags⟩⟩ := shift_spec hparts hexec
  · refine ⟨t, ht, hip, hframe, ?_, ?_⟩
    · rw [hvalue, hn, Nat.pow_zero, Nat.mul_one, BitVec.ofNat_toNat, BitVec.setWidth_eq]
    · rw [if_pos hn]
      exact hflags
  · refine ⟨t, ht, hip, hframe, hvalue.trans (shlValue_eq _ _), ?_⟩
    rw [if_neg hn, hvalue, hflags]
    exact ⟨lastBitOut_eq _ _, rfl, rfl, rfl, fun h1 => hov _ (by rw [h1]; rfl)⟩

/-- Settles O40, by whether the count is 0. -/
theorem shrShiftsRight : Obligations.ShrShiftsRight := by
  intro d c s
  obtain ⟨t, ht, hip, hframe, ⟨hn, hvalue, hflags⟩ | ⟨hn, ov, hov, hvalue, hflags⟩⟩ := shift_spec rfl (exec_shr d c s)
  · refine ⟨t, ht, hip, hframe, ?_, ?_⟩
    · rw [hvalue, hn, Nat.pow_zero, Nat.div_one, BitVec.ofNat_toNat, BitVec.setWidth_eq]
    · rw [if_pos hn]
      exact hflags
  · refine ⟨t, ht, hip, hframe, hvalue.trans (shrValue_eq _ _), ?_⟩
    rw [if_neg hn, hvalue, hflags]
    exact ⟨lastBitOut_eq _ _, rfl, rfl, rfl, fun h1 => hov _ (by rw [h1]; rfl)⟩

/-- Settles O41, by whether the count is 0. -/
theorem sarShiftsRightKeepingTheSign : Obligations.SarShiftsRightKeepingTheSign := by
  intro d c s
  obtain ⟨t, ht, hip, hframe, ⟨hn, hvalue, hflags⟩ | ⟨hn, ov, hov, hvalue, hflags⟩⟩ := shift_spec rfl (exec_sar d c s)
  · refine ⟨t, ht, hip, hframe, ?_, ?_⟩
    · rw [hvalue, hn, pow_zero, Int.ediv_one]
    · rw [if_pos hn]
      exact hflags
  · refine ⟨t, ht, hip, hframe, ?_, ?_⟩
    · rw [hvalue]
      exact sarValue_toInt _ _
    · rw [if_neg hn, hvalue, hflags]
      exact ⟨rfl, rfl, rfl, rfl, fun h1 => hov false (if_pos h1)⟩

end Sys2Proof.Machine
end
